-- ==== Sys2Proof/Word.lean ====
section
/-! DEFINITION. The word types of the device: every register and every bus datum is 32 bits
(00_scope.md R10), every sample a binary32 pattern (R18), the sample rate a binary64 pattern. -/

namespace Sys2Proof

/-- A register or a bus datum (00_scope.md R10). -/
abbrev Word := BitVec 32

/-- A byte of the little-endian byte view of the device (20_memory.md R86). -/
abbrev Byte := BitVec 8

/-- The bit pattern of an IEEE 754 binary32 number; `AsF32` and `Bits` of 00_scope.md R11 are the
identity on it. -/
abbrev F32 := BitVec 32

/-- The bit pattern of an IEEE 754 binary64 number (00_scope.md R11). -/
abbrev F64 := BitVec 64

/-- `AsI32` of 00_scope.md R11: the two's-complement reading of a word. -/
def asI32 (w : Word) : Int := w.toInt

/-- A word written as an unsigned number, for the integer results that fit a register. -/
def word (n : Nat) : Word := BitVec.ofNat 32 n

end Sys2Proof
end

