-- ==== Sys2Proof/Config.lean ====
section
/-! DEFINITION. What an implementation fixes (00_scope.md R8) and what the spec leaves free
(00_scope.md R22, R31; 20_memory.md R92). A free value is an opaque constant: no proof can see it. -/

namespace Sys2Proof

/-- The implementation parameters of 00_scope.md R8 that are plain data. `State` carries one record
of them, no step changes it, and a statement about every state is a statement about every
implementation (log entry 2). -/
structure Params where
  /-- `NCH_MAX`, the largest channel count: a perfect square from 1 to 64. -/
  nchMax : Nat
  /-- `BMAX`, the largest block size in samples: 1 to 16384. -/
  bmax : Nat
  /-- `LMAX`, the largest delay-buffer length: 5 to 2^20. -/
  lmax : Nat
  /-- `ROT_TOL` in units of 2^-64: positive (below the rounding error of binary32: log entry 16). -/
  rotTol : Nat
  /-- `COEF_TOL` in units of 2^-64: positive (below the rounding error of binary32: log entry 16). -/
  coefTol : Nat
  /-- Which realisation of the open functions `Sin32`, `Cos32`, `Kernel4`, `BiquadCoef`, `RotMat` the
  implementation has: 0 is the spec's default, any other number an arbitrary conforming one
  (log entry 3). -/
  realisation : Nat
deriving DecidableEq, Repr

/-- The values 00_scope.md R8 takes: 64, 16384, 2^20, 2^-20, 2^-20, and the default functions. -/
def Params.default : Params where
  nchMax := 64
  bmax := 16384
  lmax := 1048576
  rotTol := 2 ^ 44
  coefTol := 2 ^ 44
  realisation := 0

/-- The operations whose NaN result carries a free sign and payload (00_scope.md R22). -/
inductive FloatOp
  | add | sub | mul | div | narrow | sin | cos
deriving DecidableEq, Repr

/-- The four weights of the interpolation kernel (41_delay_line.md R153). -/
structure Kernel where
  h0 : F32
  h1 : F32
  h2 : F32
  h3 : F32
deriving DecidableEq, Repr, Inhabited

/-- Which stage of the filter bank (43_filter_bank.md R213): high-pass or low-pass. -/
inductive FilterKind
  | hp | lp
deriving DecidableEq, Repr

/-- A coefficient set `b0, b1, b2, a1, a2` (10_state.md R56, 43_filter_bank.md R213). -/
structure Coefs where
  b0 : F32
  b1 : F32
  b2 : F32
  a1 : F32
  a2 : F32
deriving DecidableEq, Repr, Inhabited

/-- The sign and the 22 free payload bits of the NaN that an operation returns (00_scope.md R22), as
a function of the draw counter, the operation and its operands (log entry 4). -/
opaque Config.nanBits : Nat → FloatOp → F32 → F32 → BitVec 23

/-- What a byte of FST, CB or MAT that nothing has written since reset reads as, for each reset
(20_memory.md R92) and each byte address (log entry 6). -/
opaque Config.powerOnByte : Nat → Nat → Byte

/-- An implementation's sine (00_scope.md R27), used where it conforms. -/
opaque Config.sinRaw : Nat → F32 → F32

/-- An implementation's cosine (00_scope.md R27), used where it conforms. -/
opaque Config.cosRaw : Nat → F32 → F32

/-- An implementation's kernel (41_delay_line.md R153); the spec puts no condition on it. -/
opaque Config.kernelRaw : Nat → F32 → Kernel

/-- An implementation's `BiquadCoef` (43_filter_bank.md R213), used where it conforms. -/
opaque Config.biquadRaw : Nat → FilterKind → F32 → F32 → Coefs

/-- An implementation's `RotMat` entry `D[i][j]` (42_rotation.md R187) at yaw, pitch, roll and order,
used where it conforms. -/
opaque Config.rotRaw : Nat → F32 → F32 → F32 → Nat → Nat → Nat → F32

end Sys2Proof
end

