-- ==== Sys2Proof/Syntax.lean ====
section
/-! DEFINITION. The 13 commands of spec/opcode_table.json (30_encoding.md R114), one constructor a row. -/

namespace Sys2Proof

/-- A command. `ch` is the channel operand of format C, an index (30_encoding.md R113). -/
inductive Instr
  /-- `NOP` (40_system.md R130). -/
  | nop
  /-- `PREPARE` (40_system.md R132). -/
  | prepare
  /-- `SETORDER` (40_system.md R137). -/
  | setorder
  /-- `CLRERR` (40_system.md R140). -/
  | clrerr
  /-- `DL.PUSH ch` (41_delay_line.md R151). -/
  | dlPush (ch : Nat)
  /-- `DL.POP ch` (41_delay_line.md R157). -/
  | dlPop (ch : Nat)
  /-- `DL.RUN` (41_delay_line.md R162). -/
  | dlRun
  /-- `RM.BUILD` (42_rotation.md R182). -/
  | rmBuild
  /-- `RM.APPLY` (42_rotation.md R190). -/
  | rmApply
  /-- `RM.COMMIT` (42_rotation.md R193). -/
  | rmCommit
  /-- `FB.SETCUT` (43_filter_bank.md R211). -/
  | fbSetcut
  /-- `FB.RUN ch` (43_filter_bank.md R217). -/
  | fbRun (ch : Nat)
  /-- `FB.RUNALL` (43_filter_bank.md R219). -/
  | fbRunall
deriving DecidableEq, Repr

end Sys2Proof
end

