-- ==== Sys2Proof/WellFormed.lean ====
section
/-! DEFINITION. The well-formedness checks: a command's channel operand fits its field
(30_encoding.md R113, R120), and the implementation parameters meet the constraints of 00_scope.md R8
and 92_eei_decisions.md ("Open parameters in one list"). -/

namespace Sys2Proof

/-- The channel operand is 0 to 255 (30_encoding.md R113). A channel at or above `NCHL` is well
formed and faults when it runs. -/
def Instr.wellFormed : Instr → Bool
  | .nop => true
  | .prepare => true
  | .setorder => true
  | .clrerr => true
  | .dlPush ch => decide (ch < 256)
  | .dlPop ch => decide (ch < 256)
  | .dlRun => true
  | .rmBuild => true
  | .rmApply => true
  | .rmCommit => true
  | .fbSetcut => true
  | .fbRun ch => decide (ch < 256)
  | .fbRunall => true

/-- The perfect squares that `NCH_MAX` may be (00_scope.md R8). -/
def Params.squares : List Nat := [1, 4, 9, 16, 25, 36, 49, 64]

/-- The constraints of 00_scope.md R8: `NCH_MAX` a perfect square from 1 to 64, `BMAX` from 1 to 16384,
`LMAX` from 5 to 2^20, positive tolerances, however small (log entry 16). -/
def Params.wellFormed (p : Params) : Bool :=
  Params.squares.contains p.nchMax && decide (1 ≤ p.bmax) && decide (p.bmax ≤ 16384) &&
    decide (5 ≤ p.lmax) && decide (p.lmax ≤ 1048576) && decide (0 < p.rotTol) &&
    decide (0 < p.coefTol)

end Sys2Proof
end

