-- ==== Sys2Proof/Decode.lean ====
section
/-! DEFINITION. The command decoder and encoder (30_encoding.md R110 to R117). -/

namespace Sys2Proof

/-- Why a word is no command (30_encoding.md R112 step 1, R115). Each raises `IllegalCommand`. -/
inductive DecodeError
  /-- The opcode byte is none of the 13 of 30_encoding.md R114. -/
  | unknownOpcode
  /-- A listed opcode with a non-zero reserved field (30_encoding.md R111). -/
  | reservedField
deriving DecidableEq, Repr

/-- `w[7:0]` (30_encoding.md R111). -/
def opcodeField (w : Word) : Nat := (w.extractLsb' 0 8).toNat

/-- `w[15:8]`, zero-extended (30_encoding.md R113). -/
def channelField (w : Word) : Nat := (w.extractLsb' 8 8).toNat

/-- Format Z: bits 31:8 must be zero (30_encoding.md R111). -/
def formatZ (w : Word) (i : Instr) : Except DecodeError Instr :=
  if w.extractLsb' 8 24 = 0 then .ok i else .error .reservedField

/-- Format C: bits 31:16 must be zero, bits 15:8 are the channel (30_encoding.md R111). -/
def formatC (w : Word) (i : Nat → Instr) : Except DecodeError Instr :=
  if w.extractLsb' 16 16 = 0 then .ok (i (channelField w)) else .error .reservedField

/-- The opcode map of 30_encoding.md R114; every other word is illegal (R115). -/
def decode (w : Word) : Except DecodeError Instr :=
  match opcodeField w with
  | 0x01 => formatZ w .nop
  | 0x02 => formatZ w .prepare
  | 0x03 => formatZ w .setorder
  | 0x04 => formatZ w .clrerr
  | 0x10 => formatC w .dlPush
  | 0x11 => formatC w .dlPop
  | 0x12 => formatZ w .dlRun
  | 0x20 => formatZ w .rmBuild
  | 0x21 => formatZ w .rmApply
  | 0x22 => formatZ w .rmCommit
  | 0x30 => formatZ w .fbSetcut
  | 0x31 => formatC w .fbRun
  | 0x32 => formatZ w .fbRunall
  | _ => .error .unknownOpcode

/-- The opcode byte of a command (30_encoding.md R114). -/
def Instr.opcode : Instr → Nat
  | .nop => 0x01
  | .prepare => 0x02
  | .setorder => 0x03
  | .clrerr => 0x04
  | .dlPush _ => 0x10
  | .dlPop _ => 0x11
  | .dlRun => 0x12
  | .rmBuild => 0x20
  | .rmApply => 0x21
  | .rmCommit => 0x22
  | .fbSetcut => 0x30
  | .fbRun _ => 0x31
  | .fbRunall => 0x32

/-- The channel operand of a format C command, 0 for format Z. -/
def Instr.channel : Instr → Nat
  | .dlPush ch => ch
  | .dlPop ch => ch
  | .fbRun ch => ch
  | .nop => 0
  | .prepare => 0
  | .setorder => 0
  | .clrerr => 0
  | .dlRun => 0
  | .rmBuild => 0
  | .rmApply => 0
  | .rmCommit => 0
  | .fbSetcut => 0
  | .fbRunall => 0

/-- The command word: `(c << 8) | opcode`, every other bit zero (30_encoding.md R111, R120). -/
def encode (i : Instr) : Word :=
  0#16 ++ (BitVec.ofNat 8 i.channel ++ BitVec.ofNat 8 i.opcode : BitVec 16)

/-- The command word whose low `nbits` bits are those of `w` and whose other bits are zero: what the
host's table numbers as one instruction (30_encoding.md R110: one 32-bit word). -/
def tableWord (nbits w : Nat) : Word := BitVec.ofNat 32 (w % 2 ^ nbits)

/-- The command this decoder reads from a row of spec/opcode_table.json. -/
def decodeTableWord (nbits w : Nat) : Option Instr :=
  match decode (tableWord nbits w) with
  | .ok i => some i
  | .error _ => none

end Sys2Proof
end

