-- ==== Sys2Proof/Machine/State.lean ====
section
/-! DEFINITION. The state of the device (10_state.md R35): registers, cursors, memories, and the bus
port; the state after reset (10_state.md R65); the reasons a step could stop. -/

namespace Sys2Proof.Machine

/-- `CTRL.SMODE` (10_state.md R42): how the base delay moves across a block. -/
inductive SMode
  /-- 0: linear ramp across the block (41_delay_line.md R159). -/
  | ramp
  /-- 1: one-pole smoother (41_delay_line.md R159). -/
  | onePole
deriving DecidableEq, Repr

/-- `CTRL.XMODE` (10_state.md R42): the transform mode. -/
inductive XMode
  /-- 0: `MAT` is built by the device. -/
  | rotate
  /-- 1: `MAT` is loaded by the host. -/
  | warp
deriving DecidableEq, Repr

/-- The fields of `CTRL` (10_state.md R42); its reserved bits have no storage and read 0. -/
structure Ctrl where
  /-- Bit 0, `IE`: error interrupt enable (60_exceptions.md R238). -/
  ie : Bool
  /-- Bit 1, `SMODE`. -/
  smode : SMode
  /-- Bit 2, `XMODE`. -/
  xmode : XMode
deriving DecidableEq, Repr

/-- The fields of `STATUS` (10_state.md R43); its reserved bits have no storage and read 0. -/
structure Status where
  /-- Bit 0, `PREPARED`. -/
  prepared : Bool
  /-- Bit 1, `ERR`. -/
  err : Bool
  /-- Bit 2, `MAT_OK`. -/
  matOk : Bool
  /-- Bits 7:4, `ERRCODE` (60_exceptions.md R242). -/
  errCode : BitVec 4
deriving DecidableEq, Repr

/-- The stored 32-bit registers of 10_state.md R40, each under its own name. `ID` is hard-wired (R41),
`CTRL` and `STATUS` are records of fields, and the cursors `WCUR[c]` are a file of their own. -/
inductive Reg
  | errinfo | cmd | cmdcnt | srLo | srHi | maxd | lfomax | nch | blk
  | fs | len | dmaxl | lfomaxl | nchl | blkl | nsamp | order | n | inch | cfgorder
  | dtgt | dcur | scoef | lforate | lfodepth | lfoph | dly | din | dout
  | hphz | lphz | hphzc | lphzc
  | hpb0 | hpb1 | hpb2 | hpa1 | hpa2 | lpb0 | lpb1 | lpb2 | lpa1 | lpa2
  | yaw | pitch | roll
deriving DecidableEq, Repr

/-- The memories `BUF`, `FST`, `CB` and `MAT` (10_state.md R35), as bytes of the device's address
space: word address `A` is the four bytes `4·A` to `4·A + 3`, little-endian (20_memory.md R86). An
address that is not listed reads as `Memory.unlisted` says (Machine/Memory.lean). -/
structure Memory where
  /-- The listed bytes: addresses strictly rising, none equal to a known unlisted value. -/
  cells : List Host.Cell
  /-- Which set of power-on draws the memories hold (20_memory.md R92); each reset takes a new one. -/
  seed : Nat
  /-- A `PREPARE` has cleared `FST` since reset (40_system.md R134): an unlisted byte of it is 0. -/
  fstCleared : Bool
deriving DecidableEq, Repr

/-- One transaction of the host (00_scope.md R30, 20_memory.md R82), or a pulse of `rst_n`. -/
inductive BusOp
  /-- `MemRead(A, 1)` (20_memory.md R84). -/
  | read (addr : BitVec 27)
  /-- `MemWrite(A, 1, v)` (20_memory.md R85). -/
  | write (addr : BitVec 27) (data : Word)
  /-- A read of `size` bytes at byte offset `offset` from the platform's base, where the device is
  mapped into a byte-addressed space (20_memory.md R86, R87). -/
  | mappedRead (offset : BitVec 29) (size : Nat)
  /-- The write that corresponds to `mappedRead`. -/
  | mappedWrite (offset : BitVec 29) (size : Nat) (data : Word)
  /-- `rst_n` driven low and high again between two transactions (70_reset_and_hazards.md R260, R261). -/
  | reset
deriving DecidableEq, Repr

/-- What the device answers a transaction with (20_memory.md R82). -/
inductive BusReply
  /-- `ack` with `err = 0` and `rdata`. -/
  | data (rdata : Word)
  /-- `ack` with `err = 0`, for a write. -/
  | done
  /-- `ack` with `err = 1` (20_memory.md R88). -/
  | busFault
deriving DecidableEq, Repr

/-- The whole state (10_state.md R35), and the model's own fields `params`, `draw`, `pending`, `reply`
and, in `mem`, `seed` and `fstCleared` (log entries 1, 2, 4, 6, 7). -/
structure State where
  /-- The implementation's parameters (00_scope.md R8). No step changes them (log entry 2). -/
  params : Params
  /-- `CTRL`, register 0x01. -/
  ctrl : Ctrl
  /-- `STATUS`, register 0x02. -/
  status : Status
  /-- The other stored registers, in the order of `Reg`. -/
  regs : Vector Word 46
  /-- The write cursors `WCUR[0..63]`, registers 0x40 to 0x7F (10_state.md R58). -/
  wcur : Vector Word 64
  /-- The memories `BUF`, `FST`, `CB`, `MAT`. -/
  mem : Memory
  /-- Keys the free NaN results (00_scope.md R22); every transaction advances it (log entry 4). -/
  draw : Nat
  /-- The host's transactions not yet taken, the next one first (20_memory.md R94; log entry 1). -/
  pending : List BusOp
  /-- The reply to the transaction that the last step took, if it took one (log entry 1). -/
  reply : Option BusReply
deriving DecidableEq, Repr

/-- Why the machine stops with a fault: never. The faults of 60_exceptions.md are recorded and the
device goes on (R240), and a bus fault is a reply (20_memory.md R88); so nothing raises one, which is
safe. -/
inductive Fault
deriving DecidableEq, Repr

/-- Why an instruction has no meaning here. -/
inductive Refusal
  /-- Raised by an arm of `exec` whose instruction has no meaning yet: no arm of this model. Safe: the
  run stops. -/
  | notModelled (mnemonic : String)
deriving DecidableEq, Repr

/-- What a step or a command answers. -/
abbrev Result := Host.Outcome State Fault Refusal

/-- The memories after reset: no word is known, and `BUF` does not exist (10_state.md R65). -/
def Memory.powerOn (seed : Nat) : Memory where
  cells := []
  seed := seed
  fstCleared := false

/-- The machine right after reset (10_state.md R65, 70_reset_and_hazards.md R260): every register 0
but the hard-wired `ID`, not prepared, the memories unknown, and no transaction pending. -/
def State.reset : State where
  params := Params.default
  ctrl := { ie := false, smode := .ramp, xmode := .rotate }
  status := { prepared := false, err := false, matOk := false, errCode := 0#4 }
  regs := Vector.replicate 46 0#32
  wcur := Vector.replicate 64 0#32
  mem := Memory.powerOn 0
  draw := 0
  pending := []
  reply := none

end Sys2Proof.Machine
end

