-- ==== Sys2Proof/Machine/Registers.lean ====
section
/-! DEFINITION. The register map (10_state.md R36, R37, R40) and the accessors every read and write of
a register goes through. -/

namespace Sys2Proof.Machine

/-- The value `ID` always reads (10_state.md R41). -/
def idWord : Word := 0x4D444C01#32

/-- Access kinds (10_state.md R37). -/
inductive RegKind
  /-- A bus write stores the value. -/
  | rw
  /-- A bus write stores a value computed from the written one. -/
  | rwL
  /-- A bus write is ignored. -/
  | ro
deriving DecidableEq, Repr

/-- The place of a register in the stored file. -/
def Reg.slot (r : Reg) : Fin 46 :=
  ⟨r.ctorIdx, by cases r <;> decide⟩

/-- The bus index of a stored register (10_state.md R40). -/
def Reg.index : Reg → Nat
  | .errinfo => 0x03 | .cmd => 0x04 | .cmdcnt => 0x05 | .srLo => 0x06 | .srHi => 0x07
  | .maxd => 0x08 | .lfomax => 0x09 | .nch => 0x0A | .blk => 0x0B
  | .fs => 0x0C | .len => 0x0D | .dmaxl => 0x0E | .lfomaxl => 0x0F | .nchl => 0x10 | .blkl => 0x11
  | .nsamp => 0x12 | .order => 0x13 | .n => 0x14 | .inch => 0x15 | .cfgorder => 0x16
  | .dtgt => 0x18 | .dcur => 0x19 | .scoef => 0x1A | .lforate => 0x1B | .lfodepth => 0x1C
  | .lfoph => 0x1D | .dly => 0x1E | .din => 0x1F | .dout => 0x20
  | .hphz => 0x24 | .lphz => 0x25 | .hphzc => 0x26 | .lphzc => 0x27
  | .hpb0 => 0x28 | .hpb1 => 0x29 | .hpb2 => 0x2A | .hpa1 => 0x2B | .hpa2 => 0x2C
  | .lpb0 => 0x2D | .lpb1 => 0x2E | .lpb2 => 0x2F | .lpa1 => 0x30 | .lpa2 => 0x31
  | .yaw => 0x34 | .pitch => 0x35 | .roll => 0x36

/-- The stored register at a bus index (10_state.md R40). -/
def Reg.ofIndex : Nat → Option Reg
  | 0x03 => some .errinfo | 0x04 => some .cmd | 0x05 => some .cmdcnt
  | 0x06 => some .srLo | 0x07 => some .srHi
  | 0x08 => some .maxd | 0x09 => some .lfomax | 0x0A => some .nch | 0x0B => some .blk
  | 0x0C => some .fs | 0x0D => some .len | 0x0E => some .dmaxl | 0x0F => some .lfomaxl
  | 0x10 => some .nchl | 0x11 => some .blkl
  | 0x12 => some .nsamp | 0x13 => some .order | 0x14 => some .n | 0x15 => some .inch
  | 0x16 => some .cfgorder
  | 0x18 => some .dtgt | 0x19 => some .dcur | 0x1A => some .scoef | 0x1B => some .lforate
  | 0x1C => some .lfodepth | 0x1D => some .lfoph | 0x1E => some .dly | 0x1F => some .din
  | 0x20 => some .dout
  | 0x24 => some .hphz | 0x25 => some .lphz | 0x26 => some .hphzc | 0x27 => some .lphzc
  | 0x28 => some .hpb0 | 0x29 => some .hpb1 | 0x2A => some .hpb2 | 0x2B => some .hpa1
  | 0x2C => some .hpa2
  | 0x2D => some .lpb0 | 0x2E => some .lpb1 | 0x2F => some .lpb2 | 0x30 => some .lpa1
  | 0x31 => some .lpa2
  | 0x34 => some .yaw | 0x35 => some .pitch | 0x36 => some .roll
  | _ => none

/-- The access kind of a stored register (10_state.md R40). -/
def Reg.kind : Reg → RegKind
  | .errinfo => .ro | .cmd => .rw | .cmdcnt => .ro | .srLo => .rw | .srHi => .rw
  | .maxd => .rw | .lfomax => .rw | .nch => .rw | .blk => .rw
  | .fs => .ro | .len => .ro | .dmaxl => .ro | .lfomaxl => .ro | .nchl => .ro | .blkl => .ro
  | .nsamp => .rwL | .order => .ro | .n => .ro | .inch => .rw | .cfgorder => .rw
  | .dtgt => .rw | .dcur => .rw | .scoef => .rw | .lforate => .rw | .lfodepth => .rw
  | .lfoph => .rw | .dly => .rw | .din => .rw | .dout => .ro
  | .hphz => .rw | .lphz => .rw | .hphzc => .ro | .lphzc => .ro
  | .hpb0 => .rw | .hpb1 => .rw | .hpb2 => .rw | .hpa1 => .rw | .hpa2 => .rw
  | .lpb0 => .rw | .lpb1 => .rw | .lpb2 => .rw | .lpa1 => .rw | .lpa2 => .rw
  | .yaw => .rw | .pitch => .rw | .roll => .rw

/-- What stands at a register index (10_state.md R40). -/
inductive RegSel
  | id | ctrl | status
  | stored (r : Reg)
  | wcur (c : Nat)
  | reserved
deriving DecidableEq, Repr

/-- The register at an index; `WCUR[c]` with `c ≥ NCH_MAX` and every index not in the map are reserved
(10_state.md R40). -/
def regAt (p : Params) (idx : Nat) : RegSel :=
  if idx = 0 then .id
  else if idx = 1 then .ctrl
  else if idx = 2 then .status
  else if 0x40 ≤ idx ∧ idx < 0x40 + p.nchMax then .wcur (idx - 0x40)
  else match Reg.ofIndex idx with
    | some r => .stored r
    | none => .reserved

/-- Read a stored register. -/
def State.reg (s : State) (r : Reg) : Word := s.regs[r.slot]

/-- Write a stored register. -/
def State.setReg (s : State) (r : Reg) (v : Word) : State :=
  { s with regs := s.regs.set r.slot v r.slot.isLt }

/-- `WCUR[c]` (10_state.md R58); 0 for a `c` beyond the file, which no command names. -/
def State.cursor (s : State) (c : Nat) : Nat := (s.wcur[c]?.getD 0#32).toNat

/-- Write `WCUR[c]`. -/
def State.setCursor (s : State) (c : Nat) (v : Nat) : State :=
  { s with wcur := s.wcur.setIfInBounds c (word v) }

/-- `CTRL` as the bus reads it: reserved bits 0 (10_state.md R42). -/
def Ctrl.word (c : Ctrl) : Word :=
  0#29 ++ (BitVec.ofBool (c.xmode = .warp) ++
    (BitVec.ofBool (c.smode = .onePole) ++ BitVec.ofBool c.ie : BitVec 2) : BitVec 3)

/-- The fields a write of `v` to `CTRL` stores (10_state.md R42). -/
def Ctrl.ofWord (v : Word) : Ctrl where
  ie := v.getLsbD 0
  smode := if v.getLsbD 1 then .onePole else .ramp
  xmode := if v.getLsbD 2 then .warp else .rotate

/-- `STATUS` as the bus reads it: reserved bits 0 (10_state.md R43). -/
def Status.word (t : Status) : Word :=
  0#24 ++ (t.errCode ++ (0#1 ++ (BitVec.ofBool t.matOk ++
    (BitVec.ofBool t.err ++ BitVec.ofBool t.prepared : BitVec 2) : BitVec 3) : BitVec 4) : BitVec 8)

/-- The value a bus read of a register index returns (10_state.md R37, 20_memory.md R84). -/
def State.readIndex (s : State) (idx : Nat) : Word :=
  match regAt s.params idx with
  | .id => idWord
  | .ctrl => s.ctrl.word
  | .status => s.status.word
  | .stored r => s.reg r
  | .wcur c => word (s.cursor c)
  | .reserved => 0#32

/-- The interrupt output (60_exceptions.md R238). -/
def State.irq (s : State) : Bool := s.status.err && s.ctrl.ie

end Sys2Proof.Machine
end

