-- ==== Sys2Proof/Machine/Flags.lean ====
section
/-! DEFINITION. The flags of `STATUS` (10_state.md R43): the only flags the device has. No arithmetic
writes one. `MAT_OK` is maintained as 10_state.md R64 says. -/

namespace Sys2Proof.Machine

/-- `STATUS.PREPARED <- b`. -/
def State.setPrepared (s : State) (b : Bool) : State :=
  { s with status := { s.status with prepared := b } }

/-- `STATUS.MAT_OK <- b` (10_state.md R64). -/
def State.setMatOk (s : State) (b : Bool) : State :=
  { s with status := { s.status with matOk := b } }

/-- The cause codes (60_exceptions.md R242). -/
inductive Cause
  | configurationError | illegalCommand | notPrepared | channelOutOfRange | matrixNotReady
deriving DecidableEq, Repr

/-- The `ERRCODE` of a cause (60_exceptions.md R242). -/
def Cause.code : Cause → BitVec 4
  | .configurationError => 1#4
  | .illegalCommand => 2#4
  | .notPrepared => 3#4
  | .channelOutOfRange => 4#4
  | .matrixNotReady => 5#4

/-- `STATUS.ERR <- 1; STATUS.ERRCODE <- k` (60_exceptions.md R237). -/
def State.setError (s : State) (k : Cause) : State :=
  { s with status := { s.status with err := true, errCode := k.code } }

/-- `STATUS.ERR <- 0; STATUS.ERRCODE <- 0` (40_system.md R140). -/
def State.clearErrorFlag (s : State) : State :=
  { s with status := { s.status with err := false, errCode := 0#4 } }

end Sys2Proof.Machine
end

