-- ==== Sys2Proof/Machine/Float.lean ====
section
/-! DEFINITION. Binary32 arithmetic (00_scope.md R18 to R25): correctly rounded, ties to even,
subnormals kept, no fused operation, NaN results free (R22). Every finite binary32 number is a whole
number of units of 2^-149, so sums are exact in units and one rounding function serves all. -/

namespace Sys2Proof.Machine

/-! ## Constants (00_scope.md R24) -/

/-- `TWO_PI`. -/
def twoPi32 : F32 := 0x40C90FDB#32
/-- `DEG2RAD`. -/
def degToRad32 : F32 := 0x3C8EFA35#32
/-- `HALF`, 0.5. -/
def half32 : F32 := 0x3F000000#32
/-- `ONE`, 1.0. -/
def one32 : F32 := 0x3F800000#32
/-- `F32_DMIN`, 2.0: the lower clamp of a delay; also the constant 2.0 of the kernel. -/
def two32 : F32 := 0x40000000#32
/-- 6.0, the divisor of the outer kernel weights (41_delay_line.md R153). -/
def six32 : F32 := 0x40C00000#32
/-- `F32_20`, 20.0: the lower clamp of a cutoff. -/
def twenty32 : F32 := 0x41A00000#32
/-- `F32_180`, 180.0: the upper clamp of an angle in degrees. -/
def deg180 : F32 := 0x43340000#32
/-- -180.0: the lower clamp of an angle in degrees. -/
def degNeg180 : F32 := 0xC3340000#32
/-- `+0.0`. -/
def zero32 : F32 := 0#32

/-! ## Parts of a binary32 pattern -/

/-- The pattern without its sign bit. -/
def fMag (x : F32) : Nat := x.toNat % 2 ^ 31

/-- The sign bit. -/
def fSign (x : F32) : Bool := x.msb

/-- The magnitude pattern of an infinity; NaNs lie above it. -/
def infMag : Nat := 0x7F800000

/-- `x` is a NaN. -/
def fIsNaN (x : F32) : Bool := decide (infMag < fMag x)

/-- `x` is an infinity. -/
def fIsInf (x : F32) : Bool := decide (fMag x = infMag)

/-- `x` is finite: neither a NaN nor an infinity. -/
def fIsFinite (x : F32) : Bool := decide (fMag x < infMag)

/-- The magnitude that a 31-bit pattern denotes, in units of 2^-149. -/
def magUnits (mag : Nat) : Nat :=
  if mag / 2 ^ 23 = 0 then mag else (2 ^ 23 + mag % 2 ^ 23) * 2 ^ (mag / 2 ^ 23 - 1)

/-- The magnitude of a finite number in units of 2^-149. -/
def fUnits (x : F32) : Nat := magUnits (fMag x)

/-- A finite number in units of 2^-149, with its sign. -/
def fInt (x : F32) : Int := if fSign x then -(fUnits x : Int) else (fUnits x : Int)

/-- The pattern with sign `neg` and magnitude pattern `mag`. -/
def packF32 (neg : Bool) (mag : Nat) : F32 :=
  BitVec.ofNat 32 (if neg then 2 ^ 31 + mag else mag)

/-- A quiet NaN with the given sign (top bit) and payload (other 22 bits) (00_scope.md R22). -/
def quietNaN (d : BitVec 23) : F32 := packF32 d.msb (0x7FC00000 + d.toNat % 2 ^ 22)

/-! ## Rounding (00_scope.md R19) -/

/-- Round the number `num / den` of units of 2^-149 (`den > 0`) to nearest, ties to even: the 31-bit
pattern of the result, an infinity on overflow (00_scope.md R19, R20). -/
def roundUnits (num den : Nat) : Nat :=
  let e := Nat.log2 (num / den) - 23
  let d := den * 2 ^ e
  let q := num / d
  let r := num % d
  let q' := if d < 2 * r ∨ (2 * r = d ∧ q % 2 = 1) then q + 1 else q
  min (e * 2 ^ 23 + q') infMag

/-! ## The datapath operations (00_scope.md R19 to R22) -/

/-- `fneg`: flips the sign bit and nothing else. -/
def fneg (x : F32) : F32 := x ^^^ 0x80000000#32

/-- The sum, given the NaN to answer where the result is one. -/
def sumWith (nan a b : F32) : F32 :=
  if fIsNaN a || fIsNaN b then nan
  else if fIsInf a then (if fIsInf b && fSign a != fSign b then nan else a)
  else if fIsInf b then b
  else if fInt a + fInt b = 0 then packF32 (fSign a && fSign b) 0
  else packF32 (decide (fInt a + fInt b < 0)) (roundUnits (fInt a + fInt b).natAbs 1)

/-- `fadd(a, b)`; `k` is the draw counter, which keys a NaN result (log entry 4). -/
def fadd (k : Nat) (a b : F32) : F32 := sumWith (quietNaN (Config.nanBits k .add a b)) a b

/-- `fsub(a, b)`. -/
def fsub (k : Nat) (a b : F32) : F32 := sumWith (quietNaN (Config.nanBits k .sub a b)) a (fneg b)

/-- `fmul(a, b)`. -/
def fmul (k : Nat) (a b : F32) : F32 :=
  let nan := quietNaN (Config.nanBits k .mul a b)
  let neg := fSign a != fSign b
  if fIsNaN a || fIsNaN b then nan
  else if fIsInf a then (if fMag b = 0 then nan else packF32 neg infMag)
  else if fIsInf b then (if fMag a = 0 then nan else packF32 neg infMag)
  else packF32 neg (roundUnits (fUnits a * fUnits b) (2 ^ 149))

/-- `fdiv(a, b)`. -/
def fdiv (k : Nat) (a b : F32) : F32 :=
  let nan := quietNaN (Config.nanBits k .div a b)
  let neg := fSign a != fSign b
  if fIsNaN a || fIsNaN b then nan
  else if fIsInf a then (if fIsInf b then nan else packF32 neg infMag)
  else if fIsInf b then packF32 neg 0
  else if fMag b = 0 then (if fMag a = 0 then nan else packF32 neg infMag)
  else packF32 neg (roundUnits (fUnits a * 2 ^ 149) (fUnits b))

/-! ## Comparison and Clamp (00_scope.md R23) -/

/-- A number's place in the IEEE order: both zeros at 0. Meaningless for a NaN. -/
def fKey (x : F32) : Int := if fSign x then -(fMag x : Int) else (fMag x : Int)

/-- `x >= y`, false with a NaN. -/
def fge (x y : F32) : Bool := !fIsNaN x && !fIsNaN y && decide (fKey y ≤ fKey x)

/-- `x > y`, false with a NaN. -/
def fgt (x y : F32) : Bool := !fIsNaN x && !fIsNaN y && decide (fKey y < fKey x)

/-- `x < y`, false with a NaN. -/
def flt (x y : F32) : Bool := fgt y x

/-- `Clamp(x, lo, hi)`: a NaN goes to `lo`. -/
def fclamp (x lo hi : F32) : F32 :=
  if !fge x lo then lo else if fgt x hi then hi else x

/-! ## Conversions (00_scope.md R16, R25) -/

/-- `F32ofInt(i)`; exact for `|i| ≤ 2^24` (00_scope.md R16). -/
def f32OfInt (i : Int) : F32 :=
  packF32 (decide (i < 0)) (roundUnits (i.natAbs * 2 ^ 149) 1)

/-- `Floor(x)` for a finite `x` (00_scope.md R16). -/
def fFloor (x : F32) : Int := fInt x / 2 ^ 149

/-- The magnitude bits of a binary64 pattern. -/
def dMag (d : F64) : Nat := d.toNat % 2 ^ 63

/-- The magnitude pattern of a binary64 infinity. -/
def dInfMag : Nat := 0x7FF0000000000000

/-- A binary64 number is a NaN. -/
def dIsNaN (d : F64) : Bool := decide (dInfMag < dMag d)

/-- The number `num / den` of units of 2^-149 that a finite binary64 magnitude is. -/
def dUnits (mag : Nat) : Nat × Nat :=
  let e := mag / 2 ^ 52
  let m := if e = 0 then mag else 2 ^ 52 + mag % 2 ^ 52
  -- the value is m · 2^(max e 1 - 1075), that is m · 2^(max e 1 - 926) units
  if 926 ≤ max e 1 then (m * 2 ^ (max e 1 - 926), 1) else (m, 2 ^ (926 - max e 1))

/-- `RN32ofF64(d)` (00_scope.md R25). A NaN gives a free quiet NaN; no command asks for one
(40_system.md R133 h). -/
def rn32ofF64 (k : Nat) (d : F64) : F32 :=
  if dIsNaN d then quietNaN (Config.nanBits k .narrow (d.extractLsb' 32 32) (d.extractLsb' 0 32))
  else if dMag d = dInfMag then packF32 d.msb infMag
  else packF32 d.msb (roundUnits (dUnits (dMag d)).1 (dUnits (dMag d)).2)

/-- The binary64 pattern of 40.0, the lowest sample rate `PREPARE` takes (40_system.md R133 h). -/
def dForty : F64 := 0x4044000000000000#64

/-- `SR ≥ 40.0` for a binary64 number, false for a NaN. -/
def dGeForty (d : F64) : Bool := !dIsNaN d && !d.msb && decide (dMag dForty ≤ dMag d)

end Sys2Proof.Machine
end

