-- ==== Sys2Proof/Machine/Integers.lean ====
section
/-! DEFINITION. The integer laws of 00_scope.md: `Mod` (R14), `ISqrt` (R15), the bounded loop (R13). -/

namespace Sys2Proof.Machine

/-- `Mod(a, m)` of 00_scope.md R14: the residue, never negative, for `m ≥ 1`. -/
def modInt (a : Int) (m : Nat) : Nat := (a % (m : Int)).toNat

/-- The largest number below `2^bits` above `r`'s own bits whose square does not exceed `n`, found bit
by bit from the top. -/
def iSqrtFrom : (bits : Nat) → (n r : Nat) → Nat
  | 0, _, r => r
  | b + 1, n, r => iSqrtFrom b n (if (r + 2 ^ b) * (r + 2 ^ b) ≤ n then r + 2 ^ b else r)

/-- `ISqrt(n)` of 00_scope.md R15: the floor of the square root. -/
def iSqrt (n : Nat) : Nat := iSqrtFrom (Nat.log2 n / 2 + 1) n 0

/-- `for v in 0..n-1` of 00_scope.md R13: the body for 0, 1, …, n-1 in that order, not at all for
`n = 0`. -/
def forUpTo {σ : Type} (n : Nat) (body : Nat → σ → σ) (s : σ) : σ :=
  match n with
  | 0 => s
  | m + 1 => body m (forUpTo m body s)

end Sys2Proof.Machine
end

