-- ==== Sys2Proof/Machine/Reals.lean ====
section
/-! DEFINITION. The exact real functions the open functions are defined by, computed in fixed point with
256 fractional bits: sine and cosine (00_scope.md R27), the Butterworth coefficients (43_filter_bank.md
R213) and the rotation recursion (42_rotation.md R183 to R186). The errors stay far below the 2^-150 at
which a binary32 rounding could notice (log entry 9). -/

namespace Sys2Proof.Machine

/-- 1.0 in fixed point. -/
def fixOne : Int := 2 ^ 256

/-- Product. -/
def fixMul (a b : Int) : Int := a * b / 2 ^ 256

/-- Quotient. -/
def fixDiv (a b : Int) : Int := a * 2 ^ 256 / b

/-- The square root of the rational `num / den`. -/
def fixSqrt (num den : Nat) : Int := (iSqrt (num * 2 ^ 512 / den) : Nat)

/-- π with 256 fractional bits, rounded down. -/
def piFix : Nat := 0x3243f6a8885a308d313198a2e03707344a4093822299f31d0082efa98ec4e6c89

/-- π with 448 fractional bits, rounded down, for the reduction of large angles. -/
def piWide : Nat :=
  0x3243f6a8885a308d313198a2e03707344a4093822299f31d0082efa98ec4e6c89452821e638d01377be5466cf34e90c6cc0ac29b7c97c50dd

/-- The exact value of a finite binary32 number. -/
def fixOfF32 (x : F32) : Int := fInt x * 2 ^ 107

/-- `RN32` of a real, a result of zero as `+0` (42_rotation.md R187, 43_filter_bank.md R213). -/
def fixRound (z : Int) : F32 :=
  let mag := roundUnits z.natAbs (2 ^ 107)
  packF32 (decide (z < 0) && decide (mag ≠ 0)) mag

/-- The sum of the alternating series whose `n`-th term is `term` and whose next is
`-term · x² / ((n+1)(n+2))`. -/
def taylor : (fuel n : Nat) → (x2 term acc : Int) → Int
  | 0, _, _, _, acc => acc
  | f + 1, n, x2, term, acc =>
    taylor f (n + 2) x2 (-(term * x2 / 2 ^ 256) / ((n + 1) * (n + 2) : Nat)) (acc + term)

/-- Sine of an angle in `[-2π, 2π]`. -/
def fixSin (r : Int) : Int := taylor 64 1 (fixMul r r) r 0

/-- Cosine of an angle in `[-2π, 2π]`. -/
def fixCos (r : Int) : Int := taylor 64 0 (fixMul r r) fixOne 0

/-- An angle of `units` · 2^-149 radians, modulo 2π. -/
def reduceAngle (units : Nat) : Int := (units * 2 ^ 299 % (2 * piWide) / 2 ^ 192 : Nat)

/-- The sine of a finite binary32 angle in radians. -/
def realSin (x : F32) : Int :=
  if fSign x then -fixSin (reduceAngle (fUnits x)) else fixSin (reduceAngle (fUnits x))

/-- The cosine of a finite binary32 angle in radians. -/
def realCos (x : F32) : Int := fixCos (reduceAngle (fUnits x))

/-! ## Butterworth coefficients (43_filter_bank.md R213) -/

/-- Five real coefficients in fixed point. -/
structure RealCoefs where
  b0 : Int
  b1 : Int
  b2 : Int
  a1 : Int
  a2 : Int
deriving DecidableEq, Repr

/-- `BiquadCoef(kind, fc, fs)` in real numbers (43_filter_bank.md R213), from the two frequencies in
any common unit. -/
def realCoefs (kind : FilterKind) (fc fs : Nat) : RealCoefs :=
  let w : Int := (2 * piFix * fc / fs : Nat)
  let sw := fixSin w
  let cw := fixCos w
  let al := fixDiv sw (fixSqrt 2 1)
  let a0 := fixOne + al
  let a1 := fixDiv (-2 * cw) a0
  let a2 := fixDiv (fixOne - al) a0
  match kind with
  | .lp =>
    let b0 := fixDiv ((fixOne - cw) / 2) a0
    { b0 := b0, b1 := fixDiv (fixOne - cw) a0, b2 := b0, a1 := a1, a2 := a2 }
  | .hp =>
    let b0 := fixDiv ((fixOne + cw) / 2) a0
    { b0 := b0, b1 := fixDiv (-(fixOne + cw)) a0, b2 := b0, a1 := a1, a2 := a2 }

/-! ## Rotation matrices (42_rotation.md R183 to R186) -/

/-- The block `R^l` of degree `l`: rows `m` and columns `n` from `-l` to `l`. -/
abbrev Block := List (List Int)

/-- `R^h[m][n]`. -/
def Block.entry (b : Block) (h : Nat) (m n : Int) : Int :=
  (b.getD (m + h).toNat []).getD (n + h).toNat 0

/-- The block with the given entries. -/
def Block.build (l : Nat) (entry : Int → Int → Int) : Block :=
  (List.range (2 * l + 1)).map fun i =>
    (List.range (2 * l + 1)).map fun j => entry ((i : Int) - l) ((j : Int) - l)

/-- An angle in degrees as radians (42_rotation.md R183). -/
def radians (deg : F32) : Int := fInt deg * 2 ^ 107 * piFix / (180 * 2 ^ 256)

/-- `R^1` (42_rotation.md R184), from the Cartesian rotation `Rz(α) · Ry(β) · Rx(γ)` of R183. -/
def degreeOne (yd pd rd : F32) : Block :=
  let ca := fixCos (radians yd)
  let sa := fixSin (radians yd)
  let cb := fixCos (radians pd)
  let sb := fixSin (radians pd)
  let cg := fixCos (radians rd)
  let sg := fixSin (radians rd)
  let r00 := fixMul ca cb
  let r01 := fixMul (fixMul ca sb) sg - fixMul sa cg
  let r02 := fixMul (fixMul ca sb) cg + fixMul sa sg
  let r10 := fixMul sa cb
  let r11 := fixMul (fixMul sa sb) sg + fixMul ca cg
  let r12 := fixMul (fixMul sa sb) cg - fixMul ca sg
  let r20 := -sb
  let r21 := fixMul cb sg
  let r22 := fixMul cb cg
  [[r11, r12, r10], [r21, r22, r20], [r01, r02, r00]]

/-- `P(i, l, a, b)` of 42_rotation.md R186. -/
def rotP (r1 prev : Block) (i : Int) (l : Nat) (a b : Int) : Int :=
  if b = l then
    fixMul (r1.entry 1 i 1) (prev.entry (l - 1) a (l - 1)) -
      fixMul (r1.entry 1 i (-1)) (prev.entry (l - 1) a (-l + 1))
  else if b = -l then
    fixMul (r1.entry 1 i 1) (prev.entry (l - 1) a (-l + 1)) +
      fixMul (r1.entry 1 i (-1)) (prev.entry (l - 1) a (l - 1))
  else fixMul (r1.entry 1 i 0) (prev.entry (l - 1) a b)

/-- `U(l, m, n)` of 42_rotation.md R186. -/
def rotU (r1 prev : Block) (l : Nat) (m n : Int) : Int := rotP r1 prev 0 l m n

/-- `V(l, m, n)` of 42_rotation.md R186. -/
def rotV (r1 prev : Block) (l : Nat) (m n : Int) : Int :=
  if m = 0 then rotP r1 prev 1 l 1 n + rotP r1 prev (-1) l (-1) n
  else if m = 1 then fixMul (rotP r1 prev 1 l 0 n) (fixSqrt 2 1)
  else if 1 < m then rotP r1 prev 1 l (m - 1) n - rotP r1 prev (-1) l (-m + 1) n
  else if m = -1 then fixMul (rotP r1 prev (-1) l 0 n) (fixSqrt 2 1)
  else rotP r1 prev (-1) l (-m - 1) n + rotP r1 prev 1 l (m + 1) n

/-- `W(l, m, n)` of 42_rotation.md R186. -/
def rotW (r1 prev : Block) (l : Nat) (m n : Int) : Int :=
  if 0 < m then rotP r1 prev 1 l (m + 1) n + rotP r1 prev (-1) l (-m - 1) n
  else if m < 0 then rotP r1 prev 1 l (m - 1) n - rotP r1 prev (-1) l (-m + 1) n
  else 0

/-- `den(l, n)` of 42_rotation.md R185. -/
def rotDen (l : Nat) (n : Int) : Nat :=
  if n.natAbs = l then 2 * l * (2 * l - 1) else l * l - n.natAbs * n.natAbs

/-- `u(l, m, n)` of 42_rotation.md R185. -/
def coefU (l : Nat) (m n : Int) : Int :=
  fixSqrt (l * l - m.natAbs * m.natAbs) (rotDen l n)

/-- `v(l, m, n)` of 42_rotation.md R185. -/
def coefV (l : Nat) (m n : Int) : Int :=
  if m = 0 then -(fixSqrt (2 * (l - 1) * l) (rotDen l n) / 2)
  else fixSqrt ((l + m.natAbs - 1) * (l + m.natAbs)) (rotDen l n) / 2

/-- `w(l, m, n)` of 42_rotation.md R185. -/
def coefW (l : Nat) (m n : Int) : Int :=
  if m = 0 then 0
  else -(fixSqrt ((l - m.natAbs - 1) * (l - m.natAbs)) (rotDen l n) / 2)

/-- A term whose coefficient is zero is dropped (42_rotation.md R185). -/
def rotTerm (c f : Int) : Int := if c = 0 then 0 else fixMul c f

/-- `R^l` from `R^1` and `R^(l-1)`, for `l ≥ 2` (42_rotation.md R185). -/
def nextBlock (r1 prev : Block) (l : Nat) : Block :=
  Block.build l fun m n =>
    rotTerm (coefU l m n) (rotU r1 prev l m n) + rotTerm (coefV l m n) (rotV r1 prev l m n) +
      rotTerm (coefW l m n) (rotW r1 prev l m n)

/-- `R^l` for every degree (42_rotation.md R184, R185). -/
def rotBlock (r1 : Block) : Nat → Block
  | 0 => [[fixOne]]
  | 1 => r1
  | l + 2 => nextBlock r1 (rotBlock r1 (l + 1)) (l + 2)

end Sys2Proof.Machine
end

