-- ==== Sys2Proof/Machine/Numerics.lean ====
section
/-! DEFINITION. The open functions `Sin32`, `Cos32`, `Kernel4`, `BiquadCoef`, `RotMat` (00_scope.md R8):
realisation 0 is the spec's default; any other is a free function, taken where it meets the conditions
the spec puts on every implementation and replaced by the default where it does not (log entry 3). -/

namespace Sys2Proof.Machine

/-- `y` is within `tol` · 2^-64 of the real `x`. -/
def within (tol : Nat) (x : Int) (y : F32) : Bool :=
  fIsFinite y && decide ((fixOfF32 y - x).natAbs ≤ tol * 2 ^ 192)

/-! ## Sine and cosine (00_scope.md R27) -/

/-- The conditions of 00_scope.md R27 on a value `y` for the real value `v` at `x`: exact at `+0`
(`atZero`), between -1 and 1, within 2^-22 for `|x| ≤ 8`. -/
def trigConforms (atZero : F32) (v : Int) (x y : F32) : Bool :=
  fIsFinite y && decide (fMag y ≤ fMag one32) && (decide (x ≠ zero32) || decide (y = atZero)) &&
    (decide (0x41000000 < fMag x) || within (2 ^ 42) v y)

/-- `Sin32(x)` (00_scope.md R27). -/
def sin32 (p : Params) (k : Nat) (x : F32) : F32 :=
  if !fIsFinite x then quietNaN (Config.nanBits k .sin x zero32)
  else if p.realisation = 0 then fixRound (realSin x)
  else if trigConforms zero32 (realSin x) x (Config.sinRaw p.realisation x) then
    Config.sinRaw p.realisation x
  else fixRound (realSin x)

/-- `Cos32(x)` (00_scope.md R27); exactly 1.0 at both zeros. -/
def cos32 (p : Params) (k : Nat) (x : F32) : F32 :=
  if !fIsFinite x then quietNaN (Config.nanBits k .cos x zero32)
  else if fMag x = 0 then one32
  else if p.realisation = 0 then fixRound (realCos x)
  else if trigConforms one32 (realCos x) x (Config.cosRaw p.realisation x) then
    Config.cosRaw p.realisation x
  else fixRound (realCos x)

/-! ## The interpolation kernel (41_delay_line.md R153) -/

/-- The default `Kernel4(f)`: the 3rd-order Lagrange weights in the operation order of R153. -/
def lagrange4 (k : Nat) (f : F32) : Kernel :=
  let fm1 := fsub k f one32
  let fm2 := fsub k f two32
  let fp1 := fadd k f one32
  { h0 := fdiv k (fmul k (fmul k (fneg f) fm1) fm2) six32
    h1 := fdiv k (fmul k (fmul k fp1 fm1) fm2) two32
    h2 := fdiv k (fmul k (fmul k (fneg fp1) f) fm2) two32
    h3 := fdiv k (fmul k (fmul k fp1 f) fm1) six32 }

/-- `Kernel4(f)`; the spec puts no condition on another implementation's. -/
def kernel4 (p : Params) (k : Nat) (f : F32) : Kernel :=
  if p.realisation = 0 then lagrange4 k f else Config.kernelRaw p.realisation f

/-! ## Filter coefficients (43_filter_bank.md R213) -/

/-- One coefficient: the implementation's where it is finite and within `COEF_TOL` of the real value,
else the default `RN32` of the real value; so also where `COEF_TOL` is smaller than the rounding error of
binary32 and no binary32 number lies within it (DESIGN CHOICE, log entry 16). -/
def coefOr (p : Params) (x : Int) (y : F32) : F32 :=
  if p.realisation = 0 then fixRound x else if within p.coefTol x y then y else fixRound x

/-- `BiquadCoef(kind, fc, fs)`. -/
def biquadCoef (p : Params) (kind : FilterKind) (fc fs : F32) : Coefs :=
  let x := realCoefs kind (fUnits fc) (fUnits fs)
  let y := Config.biquadRaw p.realisation kind fc fs
  { b0 := coefOr p x.b0 y.b0
    b1 := coefOr p x.b1 y.b1
    b2 := coefOr p x.b2 y.b2
    a1 := coefOr p x.a1 y.a1
    a2 := coefOr p x.a2 y.a2 }

/-! ## The rotation matrix (42_rotation.md R187) -/

/-- The degree `l` of an ACN channel `c = l² + l + m` (42_rotation.md R181). -/
def acnDegree (c : Nat) : Nat := iSqrt c

/-- The index `m` of an ACN channel (42_rotation.md R181). -/
def acnIndex (c : Nat) : Int := (c : Int) - acnDegree c * acnDegree c - acnDegree c

/-- One entry inside a degree block: the implementation's where it is within `ROT_TOL` of the real value
and at most 1 in magnitude, else the default (42_rotation.md R187 b, e); so also where `ROT_TOL` is smaller than
the rounding error of binary32 and no binary32 number, the default among them, meets R187 (b)
(DESIGN CHOICE, log entry 16). -/
def rotOr (p : Params) (x : Int) (y : F32) : F32 :=
  if p.realisation ≠ 0 ∧ within p.rotTol x y ∧ fMag y ≤ fMag one32 then y
  else fclamp (fixRound x) (fneg one32) one32

/-- `D[i][j]` (42_rotation.md R187): 1.0 at `(0, 0)` and `+0` between different degrees (c), the exact
identity at zero angles (a), else the entry of the degree block. -/
def rotEntry (p : Params) (blocks : List Block) (yd pd rd : F32) (order i j : Nat) : F32 :=
  if acnDegree i ≠ acnDegree j then zero32
  else if acnDegree i = 0 then one32
  else if fMag yd = 0 ∧ fMag pd = 0 ∧ fMag rd = 0 then (if i = j then one32 else zero32)
  else rotOr p ((blocks.getD (acnDegree i) []).entry (acnDegree i) (acnIndex i) (acnIndex j))
    (Config.rotRaw p.realisation yd pd rd order i j)

/-- `RotMat(yd, pd, rd, order)`: the rows of the `N × N` matrix `D` (42_rotation.md R183 to R187). -/
def rotMat (p : Params) (yd pd rd : F32) (order : Nat) : List (List F32) :=
  let r1 := degreeOne yd pd rd
  let blocks := (List.range (order + 1)).map (rotBlock r1)
  (List.range ((order + 1) * (order + 1))).map fun i =>
    (List.range ((order + 1) * (order + 1))).map fun j => rotEntry p blocks yd pd rd order i j

/-- `D[i][j]` of a matrix given by its rows. -/
def entryOf (d : List (List F32)) (i j : Nat) : F32 := (d.getD i []).getD j zero32

end Sys2Proof.Machine
end

