-- ==== Sys2Proof/Machine/Memory.lean ====
section
/-! DEFINITION. The memories `MAT`, `FST`, `CB`, `BUF` (10_state.md R59 to R62) as one byte-addressed
memory in canonical form, with the element addresses of 20_memory.md R81 and the little-endian words
of R86. Laws: Sys2Proof/Laws/Memory.lean. -/

namespace Sys2Proof.Machine

/-! ## Word addresses of the elements (20_memory.md R81) -/

/-- The first word address of the `MAT` window. -/
def matBase : Nat := 0x1000
/-- The first word address of the `FST` window. -/
def fstBase : Nat := 0x2000
/-- The first word address of the `CB` window. -/
def cbBase : Nat := 0x100000
/-- The first word address of the `BUF` window. -/
def bufBase : Nat := 0x4000000

/-- `MAT[i][j]` is at `0x1000 + 64·i + j`. -/
def matAddr (i j : Nat) : Nat := matBase + 64 * i + j
/-- `FST[c][s]` is at `0x2000 + 4·c + s`. -/
def fstAddr (c s : Nat) : Nat := fstBase + 4 * c + s
/-- `CB[c][n]` is at `0x100000 + 0x4000·c + n`. -/
def cbAddr (c n : Nat) : Nat := cbBase + 0x4000 * c + n
/-- `BUF[c][k]` is at `0x4000000 + 0x100000·c + k`. -/
def bufAddr (c k : Nat) : Nat := bufBase + 0x100000 * c + k

/-! ## Bytes -/

/-- A byte of the `FST` window, words 0x2000 to 0x20FF. -/
def inFst (a : Nat) : Bool := decide (4 * fstBase ≤ a) && decide (a < 4 * (fstBase + 0x100))

/-- A byte of the `BUF` window, words 0x4000000 and above. -/
def inBuf (a : Nat) : Bool := decide (4 * bufBase ≤ a)

/-- The value an unlisted byte is known to have: 0 in `BUF`, which `PREPARE` creates cleared, and in
`FST` once a `PREPARE` has cleared it (40_system.md R134); elsewhere none is known (20_memory.md R92). -/
def Memory.knownByte (m : Memory) (a : Nat) : Option Byte :=
  if inBuf a || (inFst a && m.fstCleared) then some 0#8 else none

/-- What an unlisted byte reads as: its known value, or a draw that stays the same until the byte is
written (20_memory.md R92, log entry 6). -/
def Memory.unlisted (m : Memory) (a : Nat) : Byte :=
  (m.knownByte a).getD (Config.powerOnByte m.seed a)

/-- The byte listed at an address. -/
def cellAt : List Host.Cell → Nat → Option Byte
  | [], _ => none
  | (x, b) :: rest, a => if a = x then some b else cellAt rest a

/-- List a byte at its place. -/
def setCell : List Host.Cell → Nat → Byte → List Host.Cell
  | [], a, b => [(a, b)]
  | (x, y) :: rest, a, b =>
    if a < x then (a, b) :: (x, y) :: rest
    else if a = x then (a, b) :: rest
    else (x, y) :: setCell rest a b

/-- Take a byte off the list. -/
def dropCell (cells : List Host.Cell) (a : Nat) : List Host.Cell :=
  cells.filter fun c => decide (c.1 ≠ a)

/-- Read one byte. -/
def Memory.readByte (m : Memory) (a : Nat) : Byte := (cellAt m.cells a).getD (m.unlisted a)

/-- Write one byte, keeping the canonical form: a known unlisted value is not listed. -/
def Memory.writeByte (m : Memory) (a : Nat) (b : Byte) : Memory :=
  { m with
    cells := if m.knownByte a = some b then dropCell m.cells a else setCell m.cells a b }

/-- The canonical form: addresses strictly rising, and no entry equal to the known unlisted value. -/
abbrev Memory.wf (m : Memory) : Prop :=
  m.cells.Pairwise (fun c d => c.1 < d.1) ∧ ∀ c ∈ m.cells, m.knownByte c.1 ≠ some c.2

/-! ## Words (20_memory.md R83, R86) -/

/-- The word at word address `A`: four bytes, least significant first. -/
def Memory.readWord (m : Memory) (A : Nat) : Word :=
  m.readByte (4 * A + 3) ++ (m.readByte (4 * A + 2) ++ (m.readByte (4 * A + 1) ++ m.readByte (4 * A) :
    BitVec 16) : BitVec 24)

/-- Write the word at word address `A`. -/
def Memory.writeWord (m : Memory) (A : Nat) (v : Word) : Memory :=
  (((m.writeByte (4 * A) (v.extractLsb' 0 8)).writeByte (4 * A + 1) (v.extractLsb' 8 8)).writeByte
    (4 * A + 2) (v.extractLsb' 16 8)).writeByte (4 * A + 3) (v.extractLsb' 24 8)

/-- What `PREPARE` does to the memories: every word of `BUF` and `FST` is `+0.0` (40_system.md R134);
`CB` and `MAT` keep theirs. -/
def Memory.clearSignal (m : Memory) : Memory where
  cells := m.cells.filter fun c => !inBuf c.1 && !inFst c.1
  seed := m.seed
  fstCleared := true

end Sys2Proof.Machine
end

