-- ==== Sys2Proof/Machine/Operands.lean ====
section
/-! DEFINITION. The operand forms: how a command reads its channel, its registers and the elements of
the memories (00_scope.md R11, R12; 30_encoding.md R113, R118). -/

namespace Sys2Proof.Machine

/-- A register read as `u32` in `int` arithmetic. -/
def State.nat (s : State) (r : Reg) : Nat := (s.reg r).toNat

/-- A register read as `i32` (00_scope.md R11, R17). -/
def State.int (s : State) (r : Reg) : Int := asI32 (s.reg r)

/-- A register read as `f32` (00_scope.md R11): its pattern. -/
def State.f32 (s : State) (r : Reg) : F32 := s.reg r

/-- `SR = AsF64({SR_HI, SR_LO})` (10_state.md R47). -/
def State.sampleRate (s : State) : F64 := s.reg .srHi ++ s.reg .srLo

/-- The operand check of format C: `c >= REG.NCHL` (30_encoding.md R112 step 3). -/
def State.channelOutside (s : State) (ch : Nat) : Bool := decide (s.nat .nchl ≤ ch)

/-- `MAT[i][j]` (10_state.md R62). -/
def State.mat (s : State) (i j : Nat) : F32 := s.mem.readWord (matAddr i j)
/-- `FST[c][t]` (10_state.md R60). -/
def State.fst (s : State) (c t : Nat) : F32 := s.mem.readWord (fstAddr c t)
/-- `CB[c][n]` (10_state.md R61). -/
def State.cb (s : State) (c n : Nat) : F32 := s.mem.readWord (cbAddr c n)
/-- `BUF[c][k]` (10_state.md R59). -/
def State.buf (s : State) (c k : Nat) : F32 := s.mem.readWord (bufAddr c k)

/-- Store the word at word address `A`. -/
def State.store (s : State) (A : Nat) (v : Word) : State := { s with mem := s.mem.writeWord A v }

/-- `MAT[i][j] <- v`. -/
def State.setMat (s : State) (i j : Nat) (v : F32) : State := s.store (matAddr i j) v
/-- `FST[c][t] <- v`. -/
def State.setFst (s : State) (c t : Nat) (v : F32) : State := s.store (fstAddr c t) v
/-- `CB[c][n] <- v`. -/
def State.setCb (s : State) (c n : Nat) (v : F32) : State := s.store (cbAddr c n) v
/-- `BUF[c][k] <- v`. -/
def State.setBuf (s : State) (c k : Nat) (v : F32) : State := s.store (bufAddr c k) v

end Sys2Proof.Machine
end

