-- ==== Sys2Proof/Machine/Ops.lean ====
section
/-! DEFINITION. The operations every command shares: fault entry (60_exceptions.md R237) and its
acknowledgement (R243), completion (40_system.md R131), and the checks of 30_encoding.md R112. -/

namespace Sys2Proof.Machine

/-- Fault entry, `raise X(w)` (60_exceptions.md R237): the cause and the command word are recorded if no
error is pending; otherwise the first error is kept. Nothing else changes. -/
def State.raise (s : State) (k : Cause) (w : Word) : State :=
  if s.status.err then s else (s.setError k).setReg .errinfo w

/-- The acknowledgement of a recorded fault, the device's only counterpart of a return from exception
(60_exceptions.md R243, 40_system.md R140). -/
def State.acknowledge (s : State) : State := s.clearErrorFlag.setReg .errinfo 0#32

/-- Completion: `CMDCNT` advances modulo 2^32 (40_system.md R131, 30_encoding.md R112 step 6). -/
def State.complete (s : State) : State := s.setReg .cmdcnt (s.reg .cmdcnt + 1#32)

/-- A command that runs in any state and raises nothing of its own (30_encoding.md R112). -/
def runAlways (s : State) (run : State → State) : Result := .next (run s).complete

/-- A command of format Z that needs `PREPARED = 1` (30_encoding.md R112 steps 2, 5, 6). -/
def runPrepared (w : Word) (s : State) (run : State → State) : Result :=
  if s.status.prepared then .next (run s).complete else .next (s.raise .notPrepared w)

/-- A command of format C (30_encoding.md R112 steps 2, 3, 5, 6). -/
def runChannel (w : Word) (ch : Nat) (s : State) (run : State → State) : Result :=
  if s.status.prepared then
    if s.channelOutside ch then .next (s.raise .channelOutOfRange w) else .next (run s).complete
  else .next (s.raise .notPrepared w)

end Sys2Proof.Machine
end

