-- ==== Sys2Proof/Machine/DelayLine.lean ====
section
/-! DEFINITION. The delay-line unit (41_delay_line.md): push, the interpolated read, the delay control
with ramp, smoother and LFO, and the block run. -/

namespace Sys2Proof.Machine

/-! ## Push (41_delay_line.md R151) -/

/-- `Push(c, x)`: store at the cursor, advance the cursor modulo `LEN`. -/
def push (c : Nat) (x : F32) (s : State) : State :=
  (s.setBuf c (s.cursor c) x).setCursor c (modInt (s.cursor c + 1) (s.nat .len))

/-! ## The fractional read (41_delay_line.md R152 to R154) -/

/-- `F32ofInt(max(2, n))`: the upper bound of a delay that may reach `n` samples (41_delay_line.md
R152). -/
def delayBound (n : Nat) : F32 := f32OfInt (max 2 n : Nat)

/-- `DHiBase`, the bound of the delay without LFO. -/
def dHiBase (s : State) : F32 := delayBound (s.nat .dmaxl)

/-- `DHiTot`, the bound of the delay with LFO. -/
def dHiTot (s : State) : F32 := delayBound (s.nat .dmaxl + s.nat .lfomaxl)

/-- `ClampDelay(d)`. -/
def clampDelay (s : State) (d : F32) : F32 := fclamp d two32 (dHiTot s)

/-- The slot of the sample pushed `t` pushes ago, `Mod(WCUR[c] - t, LEN)` (41_delay_line.md R154,
20_memory.md R100). -/
def tapSlot (s : State) (c : Nat) (t : Int) : Nat := modInt ((s.cursor c : Int) - t) (s.nat .len)

/-- The sample at tap delay `t`. -/
def tap (s : State) (c : Nat) (t : Int) : F32 := s.buf c (tapSlot s c t)

/-- The four taps of a clamped delay `dc`, at tap delays `i - 1` to `i + 2` with `i = Floor(dc)`, weighted
by the kernel and summed left to right (41_delay_line.md R154); `x t` is the sample at tap delay `t`. -/
def interpolate (p : Params) (k : Nat) (dc : F32) (x : Int → F32) : F32 :=
  let i := fFloor dc
  let h := kernel4 p k (fsub k dc (f32OfInt i))
  fadd k (fadd k (fadd k (fmul k h.h0 (x (i - 1))) (fmul k h.h1 (x i))) (fmul k h.h2 (x (i + 1))))
    (fmul k h.h3 (x (i + 2)))

/-- `PopAt(c, d)` (41_delay_line.md R154). Writes no state. -/
def popAt (s : State) (c : Nat) (d : F32) : F32 :=
  interpolate s.params s.draw (clampDelay s d) (tap s c)

/-! ## Delay control and LFO (41_delay_line.md R158 to R161) -/

/-- What `DL.RUN` computes once at its start (41_delay_line.md R158, R159, R161). -/
structure DelayPlan where
  /-- `B`, the samples of the block. -/
  samples : Nat
  mode : SMode
  /-- The block's target delay without LFO. -/
  d1 : F32
  /-- Where the previous block ended. -/
  d0 : F32
  /-- The ramp's slope. -/
  step : F32
  /-- The smoother's coefficient. -/
  coef : F32
  /-- The LFO's phase increment in turns. -/
  inc : F32
  /-- The LFO's depth in samples. -/
  dep : F32
deriving DecidableEq, Repr

/-- What the delay control carries from sample to sample. -/
structure DelayCtl where
  /-- The smoother's value, `cur` of 41_delay_line.md R159. -/
  cur : F32
  /-- The LFO phase in turns. -/
  ph : F32
deriving DecidableEq, Repr

/-- The start values of a block (41_delay_line.md R158, R159, R161). -/
def delayPlan (s : State) : DelayPlan :=
  let k := s.draw
  let d1 := fclamp (s.f32 .dtgt) two32 (dHiBase s)
  let d0 := fclamp (s.f32 .dcur) two32 (dHiBase s)
  { samples := s.nat .nsamp
    mode := s.ctrl.smode
    d1 := d1
    d0 := d0
    step := fdiv k (fsub k d1 d0) (f32OfInt (s.nat .nsamp))
    coef := fclamp (s.f32 .scoef) zero32 one32
    inc := fclamp (fdiv k (s.f32 .lforate) (s.f32 .fs)) zero32 half32
    dep := fclamp (s.f32 .lfodepth) zero32 (f32OfInt (s.nat .lfomaxl)) }

/-- The phase a block starts with: `LFOPH`, or `+0` if it is outside `[0, 1)` (41_delay_line.md R161). -/
def startPhase (s : State) : F32 :=
  if fge (s.f32 .lfoph) zero32 && flt (s.f32 .lfoph) one32 then s.f32 .lfoph else zero32

/-- The delay control before the first sample. -/
def startCtl (s : State) : DelayCtl where
  cur := (delayPlan s).d0
  ph := startPhase s

/-- `base[n]` (41_delay_line.md R159); `cur` is the smoother's value before the sample. -/
def baseDelay (k : Nat) (p : DelayPlan) (n : Nat) (cur : F32) : F32 :=
  match p.mode with
  | .ramp =>
    if n + 1 = p.samples then p.d1 else fadd k p.d0 (fmul k (f32OfInt (n + 1 : Nat)) p.step)
  | .onePole => fadd k cur (fmul k p.coef (fsub k p.d1 cur))

/-- The phase after a sample: advanced, wrapped by one subtraction (41_delay_line.md R161). -/
def nextPhase (k : Nat) (inc ph : F32) : F32 :=
  if fge (fadd k ph inc) one32 then fsub k (fadd k ph inc) one32 else fadd k ph inc

/-- The LFO offset at a phase, `depth × sin(2π·phase)` (41_delay_line.md R161). -/
def lfoOffset (p : Params) (k : Nat) (dep ph : F32) : F32 :=
  fmul k dep (sin32 p k (fmul k twoPi32 ph))

/-- The delay control after sample `n` (41_delay_line.md R159, R161). -/
def nextCtl (k : Nat) (p : DelayPlan) (n : Nat) (c : DelayCtl) : DelayCtl where
  cur := match p.mode with
    | .ramp => c.cur
    | .onePole => baseDelay k p n c.cur
  ph := nextPhase k p.inc c.ph

/-- The effective delay `d[n]` (41_delay_line.md R160), one for all channels. -/
def effectiveDelay (s : State) (p : DelayPlan) (n : Nat) (c : DelayCtl) : F32 :=
  clampDelay s (fadd s.draw (baseDelay s.draw p n c.cur) (lfoOffset s.params s.draw p.dep c.ph))

/-! ## The block run (41_delay_line.md R162) -/

/-- One channel of one sample: push `CB[c][n]`, then read it back delayed into `CB[c][n]`. -/
def pushPop (n : Nat) (d : F32) (c : Nat) (s : State) : State :=
  (push c (s.cb c n) s).setCb c n (popAt (push c (s.cb c n) s) c d)

/-- A run in progress: the state and the delay control. -/
structure DelayRun where
  st : State
  ctl : DelayCtl
deriving DecidableEq, Repr

/-- One sample of every working channel, channels ascending. -/
def delaySample (p : DelayPlan) (channels n : Nat) (r : DelayRun) : DelayRun where
  st := forUpTo channels (pushPop n (effectiveDelay r.st p n r.ctl)) r.st
  ctl := nextCtl r.st.draw p n r.ctl

/-- The samples of the block, ascending. -/
def delayBlock (s : State) : DelayRun :=
  forUpTo (s.nat .nsamp) (delaySample (delayPlan s) (s.nat .n)) { st := s, ctl := startCtl s }

/-- The value `DCUR` ends with (41_delay_line.md R162). -/
def endDelay (p : DelayPlan) (c : DelayCtl) : F32 :=
  match p.mode with
  | .ramp => p.d1
  | .onePole => c.cur

/-- `DL.RUN` (41_delay_line.md R162). -/
def runDelay (s : State) : State :=
  let r := delayBlock s
  (r.st.setReg .dcur (endDelay (delayPlan s) r.ctl)).setReg .lfoph r.ctl.ph

/-! ## The commands -/

/-- `DL.PUSH c` (41_delay_line.md R151). -/
def execDlPush (ch : Nat) (s : State) : Result :=
  runChannel (encode (.dlPush ch)) ch s fun s => push ch (s.f32 .din) s

/-- `DL.POP c` (41_delay_line.md R157). -/
def execDlPop (ch : Nat) (s : State) : Result :=
  runChannel (encode (.dlPop ch)) ch s fun s => s.setReg .dout (popAt s ch (s.f32 .dly))

/-- `DL.RUN` (41_delay_line.md R162). -/
def execDlRun (s : State) : Result := runPrepared (encode .dlRun) s runDelay

end Sys2Proof.Machine
end

