-- ==== Sys2Proof/Machine/FilterBank.lean ====
section
/-! DEFINITION. The filter-bank unit (43_filter_bank.md): coefficients and the two biquad stages. -/

namespace Sys2Proof.Machine

/-! ## Coefficients (43_filter_bank.md R212) -/

/-- A cutoff clamped to `[20, FS/2]` (43_filter_bank.md R212). -/
def cutoff (s : State) (r : Reg) : F32 :=
  fclamp (s.f32 r) twenty32 (fmul s.draw (s.f32 .fs) half32)

/-- The coefficient set a stage gets (43_filter_bank.md R212). -/
def stageCoefs (s : State) (kind : FilterKind) (r : Reg) : Coefs :=
  biquadCoef s.params kind (cutoff s r) (s.f32 .fs)

/-- Store the high-pass set. -/
def State.setHp (s : State) (c : Coefs) : State :=
  ((((s.setReg .hpb0 c.b0).setReg .hpb1 c.b1).setReg .hpb2 c.b2).setReg .hpa1 c.a1).setReg .hpa2 c.a2

/-- Store the low-pass set. -/
def State.setLp (s : State) (c : Coefs) : State :=
  ((((s.setReg .lpb0 c.b0).setReg .lpb1 c.b1).setReg .lpb2 c.b2).setReg .lpa1 c.a1).setReg .lpa2 c.a2

/-- `ComputeCoefficients()` (43_filter_bank.md R212). -/
def computeCoefficients (s : State) : State :=
  (((s.setReg .hphzc (cutoff s .hphz)).setReg .lphzc (cutoff s .lphz)).setHp
    (stageCoefs s .hp .hphz)).setLp (stageCoefs s .lp .lphz)

/-! ## Processing (43_filter_bank.md R215) -/

/-- The high-pass set as the registers hold it. -/
def State.hpCoefs (s : State) : Coefs where
  b0 := s.f32 .hpb0
  b1 := s.f32 .hpb1
  b2 := s.f32 .hpb2
  a1 := s.f32 .hpa1
  a2 := s.f32 .hpa2

/-- The low-pass set as the registers hold it. -/
def State.lpCoefs (s : State) : Coefs where
  b0 := s.f32 .lpb0
  b1 := s.f32 .lpb1
  b2 := s.f32 .lpb2
  a1 := s.f32 .lpa1
  a2 := s.f32 .lpa2

/-- The output and next state words of one stage for one sample. -/
structure BiquadOut where
  y : F32
  s1 : F32
  s2 : F32
deriving DecidableEq, Repr

/-- `BiquadStep` (43_filter_bank.md R215), transposed direct form II. -/
def biquadStep (k : Nat) (c : Coefs) (s1 s2 x : F32) : BiquadOut :=
  let y := fadd k (fmul k c.b0 x) s1
  { y := y
    s1 := fadd k (fsub k (fmul k c.b1 x) (fmul k c.a1 y)) s2
    s2 := fsub k (fmul k c.b2 x) (fmul k c.a2 y) }

/-- One sample of one channel: high-pass, then low-pass, in place (43_filter_bank.md R215). -/
def filterSample (hpc lpc : Coefs) (c n : Nat) (s : State) : State :=
  let h := biquadStep s.draw hpc (s.fst c 0) (s.fst c 1) (s.cb c n)
  let l := biquadStep s.draw lpc (s.fst c 2) (s.fst c 3) h.y
  ((((s.setFst c 0 h.s1).setFst c 1 h.s2).setFst c 2 l.s1).setFst c 3 l.s2).setCb c n l.y

/-- `FilterChannel(c)` (43_filter_bank.md R215): the coefficients are read once. -/
def filterChannel (c : Nat) (s : State) : State :=
  forUpTo (s.nat .nsamp) (filterSample s.hpCoefs s.lpCoefs c) s

/-- `FB.RUNALL`: the working channels, ascending (43_filter_bank.md R219). -/
def filterAll (s : State) : State := forUpTo (s.nat .n) filterChannel s

/-! ## The commands -/

/-- `FB.SETCUT` (43_filter_bank.md R211). -/
def execFbSetcut (s : State) : Result := runPrepared (encode .fbSetcut) s computeCoefficients

/-- `FB.RUN c` (43_filter_bank.md R217). -/
def execFbRun (ch : Nat) (s : State) : Result :=
  runChannel (encode (.fbRun ch)) ch s (filterChannel ch)

/-- `FB.RUNALL` (43_filter_bank.md R219). -/
def execFbRunall (s : State) : Result := runPrepared (encode .fbRunall) s filterAll

end Sys2Proof.Machine
end

