-- ==== Sys2Proof/Machine/RotationUnit.lean ====
section
/-! DEFINITION. The rotation-matrix unit (42_rotation.md): build, apply, commit. -/

namespace Sys2Proof.Machine

/-- An angle register clamped to `[-180, 180]` degrees (42_rotation.md R182). -/
def angle (s : State) (r : Reg) : F32 := fclamp (s.f32 r) degNeg180 deg180

/-- `D`, the matrix `RM.BUILD` builds from the angles and the working order (42_rotation.md R182). -/
def rotation (s : State) : List (List F32) :=
  rotMat s.params (angle s .yaw) (angle s .pitch) (angle s .roll) (s.nat .order)

/-- Store the transpose of `d` into the top-left `n × n` square of `MAT` (42_rotation.md R182, R189). -/
def storeMatrix (d : List (List F32)) (n : Nat) (s : State) : State :=
  forUpTo n (fun i s => forUpTo n (fun j s => s.setMat i j (entryOf d j i)) s) s

/-- `BuildRotation()` (42_rotation.md R182). -/
def buildRotation (s : State) : State :=
  (storeMatrix (rotation s) (s.nat .n) s).setMatOk true

/-- The scratch copy of one sample of the working channels (42_rotation.md R190, 10_state.md R63). -/
def scratch (s : State) (n : Nat) : List F32 := (List.range (s.nat .n)).map fun i => s.cb i n

/-- `Σ_i v[i] · MAT[i][j]`, ascending from the first product (42_rotation.md R190). -/
def matrixSum (s : State) (v : List F32) (j : Nat) : F32 :=
  forUpTo (s.nat .n - 1)
    (fun i acc =>
      fadd s.draw acc (fmul s.draw (v.getD (i + 1) zero32) (s.mat (i + 1) j)))
    (fmul s.draw (v.getD 0 zero32) (s.mat 0 j))

/-- One sample of `RM.APPLY`: every sum is over the scratch copy, so no output reaches another. -/
def applySample (n : Nat) (s : State) : State :=
  forUpTo (s.nat .n) (fun j t => t.setCb j n (matrixSum s (scratch s n) j)) s

/-- The samples of the block, ascending (42_rotation.md R190). -/
def applyMatrix (s : State) : State := forUpTo (s.nat .nsamp) applySample s

/-- `RM.APPLY` after its checks: rebuild in Rotate mode when the matrix is not ready, then apply
(42_rotation.md R190). -/
def runApply (s : State) : State :=
  if s.ctrl.xmode = .rotate ∧ s.status.matOk = false then applyMatrix (buildRotation s)
  else applyMatrix s

/-! ## The commands -/

/-- `RM.BUILD` (42_rotation.md R182). -/
def execRmBuild (s : State) : Result := runPrepared (encode .rmBuild) s buildRotation

/-- `RM.APPLY` (42_rotation.md R190), with the check of 30_encoding.md R112 step 4. -/
def execRmApply (s : State) : Result :=
  if s.status.prepared = true ∧ s.ctrl.xmode = .warp ∧ s.status.matOk = false then
    .next (s.raise .matrixNotReady (encode .rmApply))
  else runPrepared (encode .rmApply) s runApply

/-- `RM.COMMIT` (42_rotation.md R193). -/
def execRmCommit (s : State) : Result :=
  runPrepared (encode .rmCommit) s fun s => s.setMatOk true

end Sys2Proof.Machine
end

