-- ==== Sys2Proof/Machine/System.lean ====
section
/-! DEFINITION. The system commands `NOP`, `PREPARE`, `SETORDER`, `CLRERR` (40_system.md). -/

namespace Sys2Proof.Machine

/-- `ORDER_MAX` (00_scope.md R8). -/
def orderMax (p : Params) : Nat := iSqrt p.nchMax - 1

/-! ## Working order (40_system.md R138) -/

/-- `CFGORDER` clamped to `[0, ORDER_MAX]` (40_system.md R138). -/
def configuredOrder (s : State) : Int :=
  if s.int .cfgorder < 0 then 0
  else if (orderMax s.params : Int) < s.int .cfgorder then orderMax s.params
  else s.int .cfgorder

/-- `min(ISqrt(INCH) - 1, cfg, ISqrt(NCHL) - 1)` (40_system.md R138). -/
def workingOrder (s : State) : Int :=
  min (min ((iSqrt (s.int .inch).toNat : Int) - 1) (configuredOrder s))
    ((iSqrt (s.nat .nchl) : Int) - 1)

/-- Make `o` the working order: `ORDER`, `N`, `MAT_OK <- 0`, and in Rotate mode a rebuild
(40_system.md R138). -/
def setOrder (o : Int) (s : State) : State :=
  let t := ((s.setReg .order (BitVec.ofInt 32 o)).setReg .n
    (BitVec.ofInt 32 ((o + 1) * (o + 1)))).setMatOk false
  match s.ctrl.xmode with
  | .rotate => buildRotation t
  | .warp => t

/-- `ResolveOrder(force)` (40_system.md R138). -/
def resolveOrder (force : Bool) (s : State) : State :=
  if force = true ∨ workingOrder s ≠ (s.nat .order : Int) then setOrder (workingOrder s) s else s

/-! ## PREPARE (40_system.md R132 to R136) -/

/-- `PrepareArgsValid()` (40_system.md R133), the conditions a to h. -/
def prepareArgsValid (s : State) : Bool :=
  decide (1 ≤ s.int .maxd) && decide (1 ≤ s.int .nch) && decide (1 ≤ s.int .inch) &&
  decide (s.int .nch ≤ s.params.nchMax) &&
  (decide (1 ≤ s.int .blk) && decide (s.int .blk ≤ s.params.bmax)) &&
  decide (0 ≤ s.int .lfomax) &&
  decide (s.int .maxd + s.int .lfomax + 4 ≤ s.params.lmax) &&
  (dGeForty s.sampleRate && fIsFinite (rn32ofF64 s.draw s.sampleRate))

/-- The latched copies `LatchAndClear` writes, `NSAMP` among them (40_system.md R134). -/
def latchSizes (s : State) : State :=
  ((((((s.setReg .fs (rn32ofF64 s.draw s.sampleRate)).setReg .dmaxl (s.reg .maxd)).setReg .lfomaxl
    (s.reg .lfomax)).setReg .nchl (s.reg .nch)).setReg .blkl (s.reg .blk)).setReg .nsamp
    (s.reg .blk)).setReg .len (BitVec.ofInt 32 (s.int .maxd + s.int .lfomax + 4))

/-- Every cursor 0, `BUF` and `FST` cleared (40_system.md R134). -/
def clearSignal (s : State) : State :=
  { s with wcur := Vector.replicate 64 0#32, mem := s.mem.clearSignal }

/-- `LatchAndClear()` (40_system.md R134). -/
def latchAndClear (s : State) : State :=
  (((clearSignal (latchSizes s)).setReg .dcur
    (fclamp (s.f32 .dtgt) two32 (f32OfInt (max 2 (s.int .maxd))))).setReg .lfoph zero32).setReg .dout
    zero32

/-- `PREPARE` once its arguments are valid (40_system.md R132, R135). -/
def runPrepare (s : State) : State :=
  resolveOrder true (computeCoefficients ((latchAndClear s).setPrepared true))

/-! ## The commands -/

/-- `NOP` (40_system.md R130). -/
def execNop (s : State) : Result := runAlways s id

/-- `PREPARE` (40_system.md R132, R136). -/
def execPrepare (s : State) : Result :=
  if prepareArgsValid s then runAlways s runPrepare
  else .next ((s.setPrepared false).raise .configurationError (encode .prepare))

/-- `SETORDER` (40_system.md R137). -/
def execSetorder (s : State) : Result :=
  if s.status.prepared = true ∧ s.int .inch < 1 then
    .next (s.raise .configurationError (encode .setorder))
  else runPrepared (encode .setorder) s (resolveOrder false)

/-- `CLRERR` (40_system.md R140). -/
def execClrerr (s : State) : Result := runAlways s State.acknowledge

end Sys2Proof.Machine
end

