-- ==== Sys2Proof/Machine/Dispatch.lean ====
section
/-! DEFINITION. One arm per command of spec/opcode_table.json. -/

namespace Sys2Proof.Machine

def exec (i : Instr) (s : State) : Host.Outcome State Fault Refusal :=
  match i with
  | .nop => Sys2Proof.Machine.execNop s
  | .prepare => Sys2Proof.Machine.execPrepare s
  | .setorder => Sys2Proof.Machine.execSetorder s
  | .clrerr => Sys2Proof.Machine.execClrerr s
  | .dlPush ch => Sys2Proof.Machine.execDlPush ch s
  | .dlPop ch => Sys2Proof.Machine.execDlPop ch s
  | .dlRun => Sys2Proof.Machine.execDlRun s
  | .rmBuild => Sys2Proof.Machine.execRmBuild s
  | .rmApply => Sys2Proof.Machine.execRmApply s
  | .rmCommit => Sys2Proof.Machine.execRmCommit s
  | .fbSetcut => Sys2Proof.Machine.execFbSetcut s
  | .fbRun ch => Sys2Proof.Machine.execFbRun ch s
  | .fbRunall => Sys2Proof.Machine.execFbRunall s

end Sys2Proof.Machine
end

