-- ==== Sys2Proof/Machine/Bus.lean ====
section
/-! DEFINITION. The bus port (20_memory.md): the address map, reads, writes, command execution, the
byte-mapped accesses of a platform, and reset. -/

namespace Sys2Proof.Machine

/-- What a word address names (20_memory.md R81). -/
inductive Target
  /-- A register index of the `REG` window. -/
  | reg (idx : Nat)
  /-- `MAT[i][j]`. -/
  | mat (i j : Nat)
  /-- `FST[c][t]`. -/
  | fst (c t : Nat)
  /-- `CB[c][n]`. -/
  | cb (c n : Nat)
  /-- `BUF[c][k]`. -/
  | buf (c k : Nat)
  /-- No window, or an element that does not exist. -/
  | unmapped
deriving DecidableEq, Repr

/-- An element if it exists. -/
def Target.ifExists (there : Prop) [Decidable there] (t : Target) : Target :=
  if there then t else .unmapped

/-- The address map (20_memory.md R81). -/
def target (s : State) (A : Nat) : Target :=
  if A ≤ 0xFF then .reg A
  else if 0x1000 ≤ A ∧ A ≤ 0x1FFF then
    Target.ifExists ((A - 0x1000) / 64 < s.params.nchMax ∧ (A - 0x1000) % 64 < s.params.nchMax)
      (.mat ((A - 0x1000) / 64) ((A - 0x1000) % 64))
  else if 0x2000 ≤ A ∧ A ≤ 0x20FF then
    Target.ifExists ((A - 0x2000) / 4 < s.params.nchMax) (.fst ((A - 0x2000) / 4) ((A - 0x2000) % 4))
  else if 0x100000 ≤ A ∧ A ≤ 0x1FFFFF then
    Target.ifExists ((A - 0x100000) / 0x4000 < s.params.nchMax ∧ (A - 0x100000) % 0x4000 < s.params.bmax)
      (.cb ((A - 0x100000) / 0x4000) ((A - 0x100000) % 0x4000))
  else if 0x4000000 ≤ A ∧ A ≤ 0x7FFFFFF then
    Target.ifExists (s.status.prepared = true ∧ (A - 0x4000000) / 0x100000 < s.nat .nchl ∧
        (A - 0x4000000) % 0x100000 < s.nat .len)
      (.buf ((A - 0x4000000) / 0x100000) ((A - 0x4000000) % 0x100000))
  else .unmapped

/-- `MemRead(A, 1)` (20_memory.md R84): the reply; a read changes no state. -/
def readReply (s : State) (A : Nat) : BusReply :=
  match target s A with
  | .reg idx => .data (s.readIndex idx)
  | .mat i j => .data (s.mat i j)
  | .fst c t => .data (s.fst c t)
  | .cb c n => .data (s.cb c n)
  | .buf c k => .data (s.buf c k)
  | .unmapped => .busFault

/-! ## Writes without a command (20_memory.md R85) -/

/-- A write to `CTRL` (10_state.md R42): a change of `XMODE` clears `MAT_OK`. -/
def writeCtrl (v : Word) (s : State) : State :=
  let t := { s with ctrl := Ctrl.ofWord v }
  if (Ctrl.ofWord v).xmode = s.ctrl.xmode then t else t.setMatOk false

/-- A write to `NSAMP` (10_state.md R50): legalised into `1..BLKL`, ignored while not prepared. -/
def writeNsamp (v : Word) (s : State) : State :=
  if s.status.prepared then
    s.setReg .nsamp
      (if v = 0#32 then 1#32 else if s.nat .blkl < v.toNat then s.reg .blkl else v)
  else s

/-- A write to `YAW`, `PITCH` or `ROLL` (10_state.md R57): clears `MAT_OK` in Rotate mode. -/
def writeAngle (r : Reg) (v : Word) (s : State) : State :=
  let t := s.setReg r v
  if s.ctrl.xmode = .rotate then t.setMatOk false else t

/-- A write to a stored register other than by a command (10_state.md R37, 20_memory.md R85). -/
def writeStored (r : Reg) (v : Word) (s : State) : State :=
  match r.kind with
  | .ro => s
  | .rwL => writeNsamp v s
  | .rw => if r = .yaw ∨ r = .pitch ∨ r = .roll then writeAngle r v s else s.setReg r v

/-- A write to a register index, `CMD` storing the word only (20_memory.md R85). -/
def writeIndex (idx : Nat) (v : Word) (s : State) : State :=
  match regAt s.params idx with
  | .id => s
  | .ctrl => writeCtrl v s
  | .status => s
  | .stored r => writeStored r v s
  | .wcur _ => s
  | .reserved => s

/-- A write to any address but `CMD`: the next state and the reply (20_memory.md R85, R88). -/
def writeTarget (t : Target) (v : Word) (s : State) : State × BusReply :=
  match t with
  | .reg idx => (writeIndex idx v s, .done)
  | .mat i j => ((s.setMat i j v).setMatOk false, .done)
  | .fst _ _ => (s, .busFault)
  | .cb c n => (s.setCb c n v, .done)
  | .buf _ _ => (s, .busFault)
  | .unmapped => (s, .busFault)

/-! ## Commands (30_encoding.md R112) -/

/-- The word address of `CMD`. -/
def cmdAddr : Nat := 0x04

/-- `Execute(w)` (30_encoding.md R112): an illegal word raises `IllegalCommand`. -/
def execute (w : Word) (s : State) : Result :=
  match decode w with
  | .ok i => exec i s
  | .error _ => .next (s.raise .illegalCommand w)

/-- The reply a transaction ends with. -/
def State.withReply (s : State) (r : Option BusReply) : State := { s with reply := r }

/-- Give a command's outcome the reply of its bus write. -/
def replyDone (r : Result) : Result :=
  match r with
  | .next t => .next (t.withReply (some .done))
  | .fault f => .fault f
  | .refused f => .refused f

/-- `MemWrite(A, 1, v)` (20_memory.md R85); a write to `CMD` stores the word, then executes it
(10_state.md R45). -/
def busWrite (A : Nat) (v : Word) (s : State) : Result :=
  if A = cmdAddr then replyDone (execute v (s.setReg .cmd v))
  else .next ((writeTarget (target s A) v s).1.withReply (some (writeTarget (target s A) v s).2))

/-- `MemRead(A, 1)` (20_memory.md R84). -/
def busRead (A : Nat) (s : State) : Result := .next (s.withReply (some (readReply s A)))

/-- An access through a byte-addressed mapping is one whole naturally aligned word (20_memory.md R87). -/
def wholeWord (offset : BitVec 29) (size : Nat) : Bool :=
  decide (size = 4) && decide (offset.toNat % 4 = 0)

/-- Reset (70_reset_and_hazards.md R260, R261): the state of 10_state.md R65 with memories that hold
new unspecified values; the implementation, and the host's further transactions, stay. -/
def State.afterReset (s : State) : State :=
  { State.reset with
    params := s.params
    mem := Memory.powerOn (s.mem.seed + 1)
    draw := s.draw
    pending := s.pending }

/-- One transaction (20_memory.md R82 to R88). -/
def transact (op : BusOp) (s : State) : Result :=
  match op with
  | .read A => busRead A.toNat s
  | .write A v => busWrite A.toNat v s
  | .mappedRead o size =>
    if wholeWord o size then busRead (o.toNat / 4) s else .next (s.withReply (some .busFault))
  | .mappedWrite o size v =>
    if wholeWord o size then busWrite (o.toNat / 4) v s else .next (s.withReply (some .busFault))
  | .reset => .next s.afterReset

/-- Take a transaction off the list: the draw counter advances (log entry 4). -/
def State.taken (s : State) (rest : List BusOp) : State :=
  { s with pending := rest, draw := s.draw + 1 }

/-- No transaction pending: the device does nothing (60_exceptions.md R250), and no reply stands. -/
def idle (s : State) : Result := .next (s.withReply none)

/-- The bus write that issues a command word (10_state.md R45). -/
def commandWrite (w : Word) : BusOp := .write (BitVec.ofNat 27 cmdAddr) w

end Sys2Proof.Machine
end

