-- ==== Sys2Proof/Machine/Step.lean ====
section
/-! DEFINITION. One step: the next transaction of the host (00_scope.md R30), and where a command word
is placed so that the next step runs it. -/

namespace Sys2Proof.Machine

/-- One step of the device: the first pending transaction, or nothing (00_scope.md R30,
60_exceptions.md R250). -/
def step (s : State) : Host.Outcome State Fault Refusal :=
  match s.pending with
  | [] => idle s
  | op :: rest => transact op (s.taken rest)

/-- `s` with the bus write of the command word as its next transaction (log entry 1). -/
def State.withFetchWord (s : State) (nbits w : Nat) : State :=
  { s with pending := commandWrite (tableWord nbits w) :: s.pending }

end Sys2Proof.Machine
end

