-- ==== Sys2Proof/Safety.lean ====
section
/-! DEFINITION. What counts as a safe state: the invariants of 10_state.md R66, the canonical form of the
memory, the error record of 60_exceptions.md R242, that memory holds only elements that exist
(20_memory.md R81); what a change leaves alone; and, as functions of the state a command starts from,
the sequences the block commands compute. -/

namespace Sys2Proof.Machine

/-- 40.0, the lowest `FS` (10_state.md R66). -/
def forty32 : F32 := 0x42200000#32

/-- What holds while `STATUS.PREPARED = 1` (10_state.md R66). -/
structure SizesOk (s : State) : Prop where
  dmaxl_pos : 1 ≤ s.nat .dmaxl
  nchl_pos : 1 ≤ s.nat .nchl
  nchl_le : s.nat .nchl ≤ s.params.nchMax
  blkl_pos : 1 ≤ s.nat .blkl
  blkl_le : s.nat .blkl ≤ s.params.bmax
  len_eq : s.nat .len = s.nat .dmaxl + s.nat .lfomaxl + 4
  len_le : s.nat .len ≤ s.params.lmax
  cursor_lt : ∀ c, c < 64 → s.cursor c < s.nat .len
  nsamp_pos : 1 ≤ s.nat .nsamp
  nsamp_le : s.nat .nsamp ≤ s.nat .blkl
  order_le : s.nat .order ≤ orderMax s.params
  n_eq : s.nat .n = (s.nat .order + 1) * (s.nat .order + 1)
  n_le : s.nat .n ≤ s.nat .nchl
  fs_finite : fIsFinite (s.f32 .fs) = true
  fs_ge : fge (s.f32 .fs) forty32 = true

/-- The error record (10_state.md R44, 60_exceptions.md R242): nothing recorded while `ERR = 0`, one of
the five codes 1 to 5 while `ERR = 1`. -/
structure RecordOk (s : State) : Prop where
  clear : s.status.err = false → s.status.errCode = 0#4 ∧ s.reg .errinfo = 0#32
  coded : s.status.err = true → 1 ≤ s.status.errCode.toNat ∧ s.status.errCode.toNat ≤ 5

/-- The invariant of the machine. -/
structure StateInv (s : State) : Prop where
  params_ok : s.params.wellFormed = true
  mem_wf : s.mem.wf
  record : RecordOk s
  sizes : s.status.prepared = true → SizesOk s

/-- An element of a memory that exists (20_memory.md R81). -/
def Target.isElement : Target → Bool
  | .mat _ _ => true
  | .fst _ _ => true
  | .cb _ _ => true
  | .buf _ _ => true
  | .reg _ => false
  | .unmapped => false

/-- Every listed byte of memory belongs to an element that exists; while the device is not prepared,
`BUF` is out of the map and what is left in it is not spoken of (40_system.md R136). -/
def MemoryInMap (s : State) : Prop :=
  ∀ cell ∈ s.mem.cells,
    (target s (cell.1 / 4)).isElement = true ∨ (inBuf cell.1 = true ∧ s.status.prepared = false)

/-! ## What a change leaves alone -/

/-- `t` is `s` but for: the registers of `rs`, the cursors of the channels in `cs`, the memory words at
the word addresses in `A`, and `STATUS`, of which a statement speaks apart. -/
structure KeepsBut (rs : List Reg) (cs A : Nat → Prop) (s t : State) : Prop where
  params : t.params = s.params
  ctrl : t.ctrl = s.ctrl
  reg : ∀ r, r ∉ rs → t.reg r = s.reg r
  cursor : ∀ c, ¬ cs c → t.cursor c = s.cursor c
  byte : ∀ a, ¬ A (a / 4) → t.mem.readByte a = s.mem.readByte a
  draw : t.draw = s.draw
  pending : t.pending = s.pending
  reply : t.reply = s.reply

/-- No channel, or no word. -/
def nowhere : Nat → Prop := fun _ => False

/-- The words `CB[c][n]` of the channels `c` with `C c` and the samples `n < b`. -/
def cbWords (C : Nat → Prop) (b A : Nat) : Prop := ∃ c n, C c ∧ n < b ∧ A = cbAddr c n

/-- The words `FST[c][0..3]` of the channels `c` with `C c`. -/
def fstWords (C : Nat → Prop) (A : Nat) : Prop := ∃ c t, C c ∧ t < 4 ∧ A = fstAddr c t

/-- The words `BUF[c][0..len-1]` of the channels `c` with `C c`. -/
def bufWords (C : Nat → Prop) (len A : Nat) : Prop := ∃ c k, C c ∧ k < len ∧ A = bufAddr c k

/-- The words `MAT[0..n-1][0..n-1]`. -/
def matWords (n A : Nat) : Prop := ∃ i j, i < n ∧ j < n ∧ A = matAddr i j

/-- A fault entry with cause code `k` (60_exceptions.md R242: 1 `ConfigurationError`, 2 `IllegalCommand`,
3 `NotPrepared`, 4 `ChannelOutOfRange`, 5 `MatrixNotReady`) and command word `w` (R237): `s` becomes `t`, whose
`PREPARED` is `p`. With no error pending the cause and the word are recorded; otherwise the first record
stays. Nothing else changes, `CMDCNT` and `MAT_OK` included. -/
structure FaultEntry (k : BitVec 4) (w : Word) (p : Bool) (s t : State) : Prop where
  err : t.status.err = true
  first : s.status.err = false → t.status.errCode = k ∧ t.reg .errinfo = w
  kept : s.status.err = true → t.status.errCode = s.status.errCode ∧ t.reg .errinfo = s.reg .errinfo
  prepared : t.status.prepared = p
  matOk : t.status.matOk = s.status.matOk
  rest : KeepsBut [.errinfo] nowhere nowhere s t

/-- The reads that end in a bus fault (20_memory.md R84). -/
def readFaults (s : State) (A : Nat) : Prop := target s A = .unmapped

/-- The writes that end in a bus fault (20_memory.md R85). -/
def writeFaults (s : State) (A : Nat) : Prop :=
  target s A = .unmapped ∨ (∃ c i, target s A = .fst c i) ∨ ∃ c k, target s A = .buf c k

/-- The transactions that end in a bus fault (20_memory.md R84, R85, R87): in a byte mapping also every
access that is not one aligned word. -/
def busFaults (s : State) : BusOp → Prop
  | .read A => readFaults s A.toNat
  | .write A _ => writeFaults s A.toNat
  | .mappedRead o size => size ≠ 4 ∨ o.toNat % 4 ≠ 0 ∨ readFaults s (o.toNat / 4)
  | .mappedWrite o size _ => size ≠ 4 ∨ o.toNat % 4 ≠ 0 ∨ writeFaults s (o.toNat / 4)
  | .reset => False

/-! ## The sequences the block commands compute -/

/-- The samples of channel `c` on the time line of a block that starts in `s` (20_memory.md R100,
41_delay_line.md R155): sample `j ≥ 0` of the block is `CB[c][j]`, and sample `-t` the one pushed `t` pushes
before it. -/
def history (s : State) (c : Nat) (j : Int) : F32 :=
  if 0 ≤ j then s.cb c j.toNat else s.buf c (modInt ((s.cursor c : Int) + j) (s.nat .len))

/-- The delay control before sample `n` of a `DL.RUN` that starts in `s` (41_delay_line.md R159, R161). -/
def ctlAt (s : State) : Nat → DelayCtl
  | 0 => startCtl s
  | n + 1 => nextCtl s.draw (delayPlan s) n (ctlAt s n)

/-- The effective delay `d[n]` of sample `n` (41_delay_line.md R160). -/
def delayAt (s : State) (n : Nat) : F32 := effectiveDelay s (delayPlan s) n (ctlAt s n)

/-- The four state words of the filter bank for one channel (10_state.md R60). -/
structure FilterWords where
  h1 : F32
  h2 : F32
  l1 : F32
  l2 : F32
deriving DecidableEq, Repr

/-- `FST[c]`. -/
def State.filterWords (s : State) (c : Nat) : FilterWords where
  h1 := s.fst c 0
  h2 := s.fst c 1
  l1 := s.fst c 2
  l2 := s.fst c 3

/-- The high-pass stage of sample `n` of channel `c`, with the state words `f` (43_filter_bank.md R215). -/
def highPassAt (s : State) (c n : Nat) (f : FilterWords) : BiquadOut :=
  biquadStep s.draw s.hpCoefs f.h1 f.h2 (s.cb c n)

/-- The low-pass stage, whose input is the output of the high-pass stage. -/
def lowPassAt (s : State) (c n : Nat) (f : FilterWords) : BiquadOut :=
  biquadStep s.draw s.lpCoefs f.l1 f.l2 (highPassAt s c n f).y

/-- The filter state of channel `c` before sample `n` of a filter run that starts in `s`. -/
def filterAt (s : State) (c : Nat) : Nat → FilterWords
  | 0 => s.filterWords c
  | n + 1 =>
    { h1 := (highPassAt s c n (filterAt s c n)).s1
      h2 := (highPassAt s c n (filterAt s c n)).s2
      l1 := (lowPassAt s c n (filterAt s c n)).s1
      l2 := (lowPassAt s c n (filterAt s c n)).s2 }

/-- The output for sample `n` of channel `c`. -/
def filterOutAt (s : State) (c n : Nat) : F32 := (lowPassAt s c n (filterAt s c n)).y

/-- `Σ_i CB[i][n] · MAT[i][j]`, from the first product and `i` ascending (42_rotation.md R190). -/
def matrixSumAt (s : State) (n j : Nat) : F32 :=
  (List.range (s.nat .n - 1)).foldl
    (fun acc i => fadd s.draw acc (fmul s.draw (s.cb (i + 1) n) (s.mat (i + 1) j)))
    (fmul s.draw (s.cb 0 n) (s.mat 0 j))

/-- Push the samples of a list, in order, each through `DIN` and a `DL.PUSH` of channel `ch`. -/
def pushAll (ch : Nat) : List F32 → State → Result
  | [], s => .next s
  | x :: xs, s =>
    match exec (.dlPush ch) (s.setReg .din x) with
    | .next t => pushAll ch xs t
    | .fault f => .fault f
    | .refused r => .refused r

/-- `FB.RUN 0`, …, `FB.RUN n-1` in this order. -/
def filterEach : Nat → State → Result
  | 0, s => .next s
  | n + 1, s =>
    match filterEach n s with
    | .next t => exec (.fbRun n) t
    | .fault f => .fault f
    | .refused r => .refused r

/-! ## The rules of the command table and of `PREPARE`, said without the machine -/

/-- The rows of spec/opcode_table.json as mask, match, and the command that a channel field `c` gives
(30_encoding.md R114). -/
def opcodeRows : List (Word × Word × (Nat → Instr)) :=
  [(0xFFFFFFFF#32, 0x01#32, fun _ => .nop), (0xFFFFFFFF#32, 0x02#32, fun _ => .prepare),
    (0xFFFFFFFF#32, 0x03#32, fun _ => .setorder), (0xFFFFFFFF#32, 0x04#32, fun _ => .clrerr),
    (0xFFFF00FF#32, 0x10#32, .dlPush), (0xFFFF00FF#32, 0x11#32, .dlPop),
    (0xFFFFFFFF#32, 0x12#32, fun _ => .dlRun), (0xFFFFFFFF#32, 0x20#32, fun _ => .rmBuild),
    (0xFFFFFFFF#32, 0x21#32, fun _ => .rmApply), (0xFFFFFFFF#32, 0x22#32, fun _ => .rmCommit),
    (0xFFFFFFFF#32, 0x30#32, fun _ => .fbSetcut), (0xFFFF00FF#32, 0x31#32, .fbRun),
    (0xFFFFFFFF#32, 0x32#32, fun _ => .fbRunall)]

/-- The commands that run in any state (60_exceptions.md R235). -/
def runsUnprepared : List Instr := [.nop, .prepare, .clrerr]

/-- `PrepareArgsValid()` (40_system.md R133), the conditions a to h in order. -/
structure PrepareValid (s : State) : Prop where
  maxd : 1 ≤ s.int .maxd
  nch : 1 ≤ s.int .nch
  inch : 1 ≤ s.int .inch
  nch_max : s.int .nch ≤ s.params.nchMax
  blk : 1 ≤ s.int .blk ∧ s.int .blk ≤ s.params.bmax
  lfomax : 0 ≤ s.int .lfomax
  len : s.int .maxd + s.int .lfomax + 4 ≤ s.params.lmax
  sr : dGeForty s.sampleRate = true ∧ fIsFinite (rn32ofF64 s.draw s.sampleRate) = true

/-- The order that 40_system.md R138 resolves from `INCH`, `CFGORDER` and the prepared channel count. -/
def resolvedOrder (p : Params) (inch cfg : Int) (nchl : Nat) : Nat :=
  min (min (Nat.sqrt inch.toNat - 1) (min cfg.toNat (Nat.sqrt p.nchMax - 1))) (Nat.sqrt nchl - 1)

/-- The matrix `D` of the angle registers at an order (42_rotation.md R182). -/
def rotationAt (s : State) (order : Nat) : List (List F32) :=
  rotMat s.params (fclamp (s.reg .yaw) degNeg180 deg180) (fclamp (s.reg .pitch) degNeg180 deg180)
    (fclamp (s.reg .roll) degNeg180 deg180) order

/-- `mag` is the magnitude pattern nearest the number `num / den` of units of 2^-149, the even one of two
that are equally near; an infinity stands at its place behind the largest finite number
(00_scope.md R19, IEEE 754). -/
def NearestEven (num den mag : Nat) : Prop :=
  mag ≤ infMag ∧ ∀ m, m ≤ infMag → m ≠ mag →
    ((num : Int) - magUnits mag * den).natAbs < ((num : Int) - magUnits m * den).natAbs ∨
      (((num : Int) - magUnits mag * den).natAbs = ((num : Int) - magUnits m * den).natAbs ∧
        mag % 2 = 0)

end Sys2Proof.Machine
end

