-- ==== Sys2Proof/Certificates/Slice0/Obligations.lean ====
section
/-! DEFINITION. The statements for the provers, each with the rule of spec/ it formalises or rests on. A
completed command is spoken of as: the command answers a next state, which is then described in full. The
premise `StateInv s` is the invariant of Sys2Proof/Safety.lean; that every step keeps it is `StepKeepsInv`. -/

open Sys2Proof Sys2Proof.Machine

/-! ## Encoding -/

/-- Every well-formed command survives encoding and decoding, with every channel 0 to 255
(30_encoding.md R111, R113, R114). -/
def Obligations.DecodeInvertsEncode : Prop :=
  ∀ i : Instr, i.wellFormed = true → decode (encode i) = .ok i

/-- A word that decodes is the encoding of what it decodes to: each command has one word
(30_encoding.md R110, R111). -/
def Obligations.EncodeInvertsDecode : Prop :=
  ∀ (w : Word) (i : Instr), decode w = .ok i → encode i = w ∧ i.wellFormed = true

/-- The decoder follows the mask and match of every row of the opcode table, and refuses every other word
(30_encoding.md R114). -/
def Obligations.DecodeFollowsOpcodeTable : Prop :=
  (∀ w : Word, ∀ row ∈ opcodeRows, w &&& row.1 = row.2.1 →
      decode w = .ok (row.2.2 (w >>> 8).toNat)) ∧
    ∀ w : Word, (∀ row ∈ opcodeRows, w &&& row.1 ≠ row.2.1) → ∀ i, decode w ≠ .ok i

/-- Words written out from the spec decode to the commands it gives them (40_system.md R130 to R140,
41_delay_line.md R151, R157, 42_rotation.md R182, 43_filter_bank.md R217; 60_exceptions.md R236). -/
def Obligations.SpecWordsDecode : Prop :=
  decode 0x00000001#32 = .ok .nop ∧ decode 0x00000002#32 = .ok .prepare ∧
    decode 0x00000510#32 = .ok (.dlPush 5) ∧ decode 0x0000FF11#32 = .ok (.dlPop 255) ∧
    decode 0x00000020#32 = .ok .rmBuild ∧ decode 0x00000331#32 = .ok (.fbRun 3) ∧
    decode 0x00010010#32 = .error .reservedField ∧ decode 0x00000000#32 = .error .unknownOpcode

/-! ## Commands and the bus -/

/-- A bus write of a command word to `CMD` stores the word, runs the command it decodes to, and is
acknowledged without error (10_state.md R45, 30_encoding.md R112). -/
def Obligations.StepRunsDecodedCommand : Prop :=
  ∀ (s : State) (w : Word) (i : Instr) (rest : List BusOp),
    s.pending = commandWrite w :: rest → decode w = .ok i →
    step s = replyDone (exec i ((s.taken rest).setReg .cmd w))

/-- A word that matches no row of the opcode table raises `IllegalCommand`, code 2, in every state: `CMD` holds the
word, and the error record is all else that changes (60_exceptions.md R234, 30_encoding.md R115). -/
def Obligations.IllegalWordIsRecorded : Prop :=
  ∀ (s : State) (w : Word) (rest : List BusOp), s.pending = commandWrite w :: rest →
    (∀ row ∈ opcodeRows, w &&& row.1 ≠ row.2.1) →
    ∃ t, step s = .next (t.withReply (some .done)) ∧
      FaultEntry 2#4 w s.status.prepared ((s.taken rest).setReg .cmd w) t

/-- Every command but `NOP`, `PREPARE` and `CLRERR` faults with `NotPrepared`, code 3, while `PREPARED = 0`, and
does nothing else (60_exceptions.md R235), whatever its channel (R236). -/
def Obligations.UnpreparedCommandFaults : Prop :=
  ∀ (s : State) (i : Instr), i ∉ runsUnprepared → s.status.prepared = false →
    ∃ t, exec i s = .next t ∧ FaultEntry 3#4 (encode i) false s t

/-- A channel at or above the prepared count faults with `ChannelOutOfRange`, code 4, and nothing else
happens
(60_exceptions.md R239). -/
def Obligations.ChannelOutsideFaults : Prop :=
  ∀ (s : State) (ch : Nat) (i : Instr), i = .dlPush ch ∨ i = .dlPop ch ∨ i = .fbRun ch →
    s.status.prepared = true → s.nat .nchl ≤ ch →
    ∃ t, exec i s = .next t ∧ FaultEntry 4#4 (encode i) true s t

/-- `RM.APPLY` faults with `MatrixNotReady`, code 5, in Warp mode without a committed matrix, and nothing else
happens; in Rotate mode it never raises it but rebuilds: `MAT` holds the transposed rotation of the angles, `MAT_OK`
is set, and the command completes with the error record as it was (60_exceptions.md R241). -/
def Obligations.WarpWithoutMatrixFaults : Prop :=
  ∀ s : State, s.status.prepared = true → s.status.matOk = false →
    (s.ctrl.xmode = .warp →
      ∃ t, exec .rmApply s = .next t ∧ FaultEntry 5#4 (encode .rmApply) true s t) ∧
    (s.ctrl.xmode = .rotate →
      ∃ t, exec .rmApply s = .next t ∧ t.status = { s.status with matOk := true } ∧
        t.reg .errinfo = s.reg .errinfo ∧ t.reg .cmdcnt = s.reg .cmdcnt + 1#32 ∧
        (StateInv s → ∀ i j, i < s.nat .n → j < s.nat .n →
          t.mat i j = entryOf (rotationAt s (s.nat .order)) j i))

/-- A `PREPARE` with invalid arguments withdraws `PREPARED`, faults with `ConfigurationError`, code 1, and
changes nothing else; afterwards every processing command faults with `NotPrepared` and `BUF` is unmapped
(40_system.md R136). -/
def Obligations.InvalidPrepareFaults : Prop :=
  ∀ s : State, ¬ PrepareValid s →
    ∃ t, exec .prepare s = .next t ∧ FaultEntry 1#4 (encode .prepare) false s t ∧
      (∀ i, i ∉ runsUnprepared →
        ∃ u, exec i t = .next u ∧ FaultEntry 3#4 (encode i) false t u) ∧
      ∀ A, 0x4000000 ≤ A → target t A = .unmapped

/-- `SETORDER` with `INCH ≤ 0` faults with `ConfigurationError`, code 1, and nothing else changes
(40_system.md R137). -/
def Obligations.SetorderWithoutInputsFaults : Prop :=
  ∀ s : State, s.status.prepared = true → s.int .inch ≤ 0 →
    ∃ t, exec .setorder s = .next t ∧ FaultEntry 1#4 (encode .setorder) true s t

/-- A recorded error gates nothing: a command run with the record and one run without it differ in the record
alone; and while an error is recorded, every command but `CLRERR` leaves the record as it is, so a later fault is
lost but for its not executing (60_exceptions.md R240). Both runs draw the same NaN results (log entry 4). -/
def Obligations.RecordGatesNothing : Prop :=
  ∀ (i : Instr) (s : State), ∃ t u, exec i s = .next t ∧ exec i s.acknowledge = .next u ∧
    t.acknowledge = u.acknowledge ∧
    (s.status.err = true → i ≠ .clrerr →
      t.status.err = true ∧ t.status.errCode = s.status.errCode ∧ t.reg .errinfo = s.reg .errinfo)

/-- `PREPARE` alone sets or withdraws `PREPARED`; no other command touches the flag
(10_state.md R43, 40_system.md R132, R136). -/
def Obligations.OnlyPrepareChangesPrepared : Prop :=
  ∀ (i : Instr) (s : State), i ≠ .prepare →
    ∃ t, exec i s = .next t ∧ t.status.prepared = s.status.prepared

/-- No step stops: no event of the device is a fault or a refusal of the machine (60_exceptions.md R240, R245). -/
def Obligations.DeviceNeverStops : Prop := ∀ s : State, ∃ t, step s = .next t

/-! ## System commands -/

/-- `NOP` completes in every state and does nothing else (40_system.md R130, R131). -/
def Obligations.NopCompletes : Prop :=
  ∀ s : State, ∃ t, exec .nop s = .next t ∧ t.reg .cmdcnt = s.reg .cmdcnt + 1#32 ∧
    t.status = s.status ∧ KeepsBut [.cmdcnt] nowhere nowhere s t

/-- `CLRERR` completes in every state: the record is gone, `irq` is low, and it repairs nothing else
(40_system.md R140, 60_exceptions.md R243). -/
def Obligations.ClrerrClearsRecord : Prop :=
  ∀ s : State, ∃ t, exec .clrerr s = .next t ∧ t.status.err = false ∧ t.status.errCode = 0#4 ∧
    t.reg .errinfo = 0#32 ∧ t.irq = false ∧ t.status.prepared = s.status.prepared ∧
    t.status.matOk = s.status.matOk ∧ t.reg .cmdcnt = s.reg .cmdcnt + 1#32 ∧
    KeepsBut [.cmdcnt, .errinfo] nowhere nowhere s t

/-- A valid `PREPARE` completes in every state: it latches the sizes, zeroes the cursors, and starts the delay at
the clamped target (40_system.md R132, R134, R135). The working order is of the new sizes (R138); the
coefficients belong to the new sample rate (43_filter_bank.md R212). -/
def Obligations.PrepareLatches : Prop :=
  ∀ s : State, s.params.wellFormed = true → PrepareValid s →
    ∃ t, exec .prepare s = .next t ∧ t.status.prepared = true ∧
      t.reg .fs = rn32ofF64 s.draw s.sampleRate ∧ t.reg .dmaxl = s.reg .maxd ∧
      t.reg .lfomaxl = s.reg .lfomax ∧ t.reg .nchl = s.reg .nch ∧ t.reg .blkl = s.reg .blk ∧
      t.reg .nsamp = s.reg .blk ∧ t.nat .len = s.nat .maxd + s.nat .lfomax + 4 ∧
      (∀ c, t.cursor c = 0) ∧
      t.reg .dcur = fclamp (s.reg .dtgt) two32 (f32OfInt (max 2 (s.nat .maxd) : Nat)) ∧
      t.reg .lfoph = 0#32 ∧ t.reg .dout = 0#32 ∧
      t.nat .order = resolvedOrder s.params (s.int .inch) (s.int .cfgorder) (s.nat .nch) ∧
      t.nat .n = (t.nat .order + 1) * (t.nat .order + 1) ∧
      t.reg .hphzc = fclamp (s.reg .hphz) twenty32 (fmul s.draw (t.reg .fs) half32) ∧
      t.reg .lphzc = fclamp (s.reg .lphz) twenty32 (fmul s.draw (t.reg .fs) half32) ∧
      t.hpCoefs = biquadCoef s.params .hp (t.reg .hphzc) (t.reg .fs) ∧
      t.lpCoefs = biquadCoef s.params .lp (t.reg .lphzc) (t.reg .fs) ∧
      t.reg .cmdcnt = s.reg .cmdcnt + 1#32

/-- What a valid `PREPARE` does to the memories and the matrix flag, and what it leaves alone: `BUF` and `FST` are
silent, in Rotate mode the matrix is rebuilt, and the parameter registers, `CTRL`, `CB`, the error flag and the
error code keep their values (40_system.md R134, R135, 70_reset_and_hazards.md R262). -/
def Obligations.PrepareClears : Prop :=
  ∀ s : State, s.params.wellFormed = true → PrepareValid s →
    ∃ t, exec .prepare s = .next t ∧
      (∀ c k, c < t.nat .nchl → k < t.nat .len → t.buf c k = 0#32) ∧
      (∀ c i, c < s.params.nchMax → i < 4 → t.fst c i = 0#32) ∧
      (t.status.matOk = true ↔ s.ctrl.xmode = .rotate) ∧
      (s.ctrl.xmode = .rotate → ∀ i j, i < t.nat .n → j < t.nat .n →
        t.mat i j = entryOf (rotationAt s (t.nat .order)) j i) ∧
      t.status.err = s.status.err ∧ t.status.errCode = s.status.errCode ∧
      KeepsBut [.cmdcnt, .fs, .len, .dmaxl, .lfomaxl, .nchl, .blkl, .nsamp, .dcur, .lfoph, .dout,
          .hphzc, .lphzc, .hpb0, .hpb1, .hpb2, .hpa1, .hpa2, .lpb0, .lpb1, .lpb2, .lpa1, .lpa2,
          .order, .n] (fun _ => True)
        (fun A => (0x2000 ≤ A ∧ A ≤ 0x20FF) ∨ 0x4000000 ≤ A ∨
          (s.ctrl.xmode = .rotate ∧ matWords (t.nat .n) A)) s t

/-- `SETORDER` with an order that differs from `ORDER`: the new order and dimension, `MAT_OK` as the mode has it,
in Rotate mode the rebuilt matrix, and nothing else: no delay buffer, cursor or filter state
(40_system.md R137 to R139). -/
def Obligations.SetorderChangesOrder : Prop :=
  ∀ s : State, StateInv s → s.status.prepared = true → 1 ≤ s.int .inch →
    resolvedOrder s.params (s.int .inch) (s.int .cfgorder) (s.nat .nchl) ≠ s.nat .order →
    ∃ t, exec .setorder s = .next t ∧
      t.nat .order = resolvedOrder s.params (s.int .inch) (s.int .cfgorder) (s.nat .nchl) ∧
      t.nat .n = (t.nat .order + 1) * (t.nat .order + 1) ∧
      (t.status.matOk = true ↔ s.ctrl.xmode = .rotate) ∧
      (s.ctrl.xmode = .rotate → ∀ i j, i < t.nat .n → j < t.nat .n →
        t.mat i j = entryOf (rotationAt s (t.nat .order)) j i) ∧
      t.status.prepared = true ∧ t.status.err = s.status.err ∧ t.status.errCode = s.status.errCode ∧
      t.reg .cmdcnt = s.reg .cmdcnt + 1#32 ∧
      KeepsBut [.cmdcnt, .order, .n] nowhere
        (fun A => s.ctrl.xmode = .rotate ∧ matWords (t.nat .n) A) s t

/-- `SETORDER` with an order that equals `ORDER` completes and writes nothing, `MAT` and `MAT_OK` included
(40_system.md R138). -/
def Obligations.SetorderKeepsOrder : Prop :=
  ∀ s : State, s.status.prepared = true → 1 ≤ s.int .inch →
    1 ≤ s.nat .nchl → 1 ≤ s.params.nchMax →
    resolvedOrder s.params (s.int .inch) (s.int .cfgorder) (s.nat .nchl) = s.nat .order →
    ∃ t, exec .setorder s = .next t ∧ t.status = s.status ∧
      t.reg .cmdcnt = s.reg .cmdcnt + 1#32 ∧ KeepsBut [.cmdcnt] nowhere nowhere s t

/-- After `SETORDER` the working channel count is within the negotiated and the prepared count, and the order
within the configured one and `ORDER_MAX` (10_state.md R66, 40_system.md R138). -/
def Obligations.WorkingOrderIsBounded : Prop :=
  ∀ s : State, StateInv s → s.status.prepared = true → 1 ≤ s.int .inch →
    ∃ t, exec .setorder s = .next t ∧ (t.nat .n : Int) ≤ s.int .inch ∧ t.nat .n ≤ s.nat .nchl ∧
      (t.nat .order : Int) ≤ max 0 (s.int .cfgorder) ∧
      (t.nat .order + 1) * (t.nat .order + 1) ≤ s.params.nchMax ∧ 1 ≤ t.nat .n

/-! ## The delay line -/

/-- `DL.PUSH c` stores `DIN` at the cursor and moves the cursor of channel `c` on by one, from the last slot to
slot 0; nothing else changes (41_delay_line.md R151, R163). -/
def Obligations.PushStoresAtCursor : Prop :=
  ∀ (s : State) (ch : Nat), StateInv s → s.status.prepared = true → ch < s.nat .nchl →
    ∃ t, exec (.dlPush ch) s = .next t ∧ t.buf ch (s.cursor ch) = s.reg .din ∧
      t.cursor ch = (if s.cursor ch + 1 = s.nat .len then 0 else s.cursor ch + 1) ∧
      t.status = s.status ∧ t.reg .cmdcnt = s.reg .cmdcnt + 1#32 ∧
      KeepsBut [.cmdcnt] (· = ch) (· = bufAddr ch (s.cursor ch)) s t

/-- After a run of pushes to a channel, the sample pushed `τ` pushes ago lies `τ` slots behind the cursor
(20_memory.md R100). -/
def Obligations.PushedSampleLiesBehindCursor : Prop :=
  ∀ (s : State) (ch : Nat) (xs : List F32), StateInv s → s.status.prepared = true → ch < s.nat .nchl →
    ∃ t, pushAll ch xs s = .next t ∧ ∀ τ, 1 ≤ τ → τ ≤ s.nat .len → τ ≤ xs.length →
      t.buf ch (modInt ((t.cursor ch : Int) - τ) (s.nat .len)) = xs.getD (xs.length - τ) 0#32

/-- `DL.POP c` writes to `DOUT` the interpolated read at `DLY`, clamped to `[2, max(2, DMAXL + LFOMAXL)]`, and
changes nothing else (41_delay_line.md R152, R154, R157). -/
def Obligations.PopReadsInterpolated : Prop :=
  ∀ (s : State) (ch : Nat), s.status.prepared = true → ch < s.nat .nchl →
    ∃ t, exec (.dlPop ch) s = .next t ∧
      (∀ dc i h, dc = fclamp (s.reg .dly) two32
            (f32OfInt (max 2 (s.nat .dmaxl + s.nat .lfomaxl) : Nat)) →
          i = fFloor dc → h = kernel4 s.params s.draw (fsub s.draw dc (f32OfInt i)) →
        t.reg .dout =
          fadd s.draw (fadd s.draw (fadd s.draw
            (fmul s.draw h.h0 (s.buf ch (modInt (s.cursor ch - (i - 1)) (s.nat .len))))
            (fmul s.draw h.h1 (s.buf ch (modInt (s.cursor ch - i) (s.nat .len)))))
            (fmul s.draw h.h2 (s.buf ch (modInt (s.cursor ch - (i + 1)) (s.nat .len)))))
            (fmul s.draw h.h3 (s.buf ch (modInt (s.cursor ch - (i + 2)) (s.nat .len))))) ∧
      t.status = s.status ∧ t.reg .cmdcnt = s.reg .cmdcnt + 1#32 ∧
      KeepsBut [.cmdcnt, .dout] nowhere nowhere s t

/-- Whatever the delay's bit pattern, the four taps are four different slots that exist, and none is the slot
the next push writes (41_delay_line.md R154, R166 a). -/
def Obligations.TapsAreSafe : Prop :=
  ∀ (s : State) (ch : Nat) (d : F32), StateInv s → s.status.prepared = true → ch < s.nat .nchl →
    2 ≤ fFloor (clampDelay s d) ∧
      fFloor (clampDelay s d) ≤ (max 2 (s.nat .dmaxl + s.nat .lfomaxl) : Nat) ∧
      ∀ τ, fFloor (clampDelay s d) - 1 ≤ τ → τ ≤ fFloor (clampDelay s d) + 2 →
        target s (bufAddr ch (tapSlot s ch τ)) = .buf ch (tapSlot s ch τ) ∧
          tapSlot s ch τ ≠ s.cursor ch ∧
          ∀ τ', fFloor (clampDelay s d) - 1 ≤ τ' → τ' ≤ fFloor (clampDelay s d) + 2 → τ' ≠ τ →
            tapSlot s ch τ' ≠ tapSlot s ch τ

/-- With the default kernel, an integer delay and finite neighbours, `DL.POP` answers the sample at that delay, up
to the sign of a zero (41_delay_line.md R155, R166 b). The default kernel is realisation 0 (log entry 3). -/
def Obligations.IntegerDelayReadsSample : Prop :=
  ∀ (s : State) (ch d : Nat), StateInv s → s.status.prepared = true → s.params.realisation = 0 →
    ch < s.nat .nchl → 2 ≤ d → d ≤ max 2 (s.nat .dmaxl + s.nat .lfomaxl) →
    s.reg .dly = f32OfInt d → fIsFinite (tap s ch (d - 1)) = true →
    fIsFinite (tap s ch (d + 1)) = true → fIsFinite (tap s ch (d + 2)) = true →
    fIsNaN (tap s ch d) = false →
    ∃ t, exec (.dlPop ch) s = .next t ∧ fMag (t.reg .dout) = fMag (tap s ch d) ∧
      (fMag (tap s ch d) ≠ 0 → t.reg .dout = tap s ch d)

/-- With the default kernel, every read of a prepared channel that nothing has been pushed to is `+0`, whatever the
delay (41_delay_line.md R156). The default kernel is realisation 0 (log entry 3). -/
def Obligations.EmptyBufferReadsZero : Prop :=
  ∀ (s : State) (ch : Nat) (d : F32), s.params.wellFormed = true → s.params.realisation = 0 →
    PrepareValid s → ch < s.nat .nch →
    ∃ t u, exec .prepare s = .next t ∧ exec (.dlPop ch) (t.setReg .dly d) = .next u ∧
      u.reg .dout = 0#32

/-- The output of `DL.RUN`: sample `n` of every working channel is the four-tap sum of `PopAt`, at the delay `d[n]`,
over the channel's time line, which runs from the samples pushed before the block into the block itself; the `LEN`
latest samples of that time line are in the buffer; the cursors have moved on by the block length
(41_delay_line.md R154, R155, R162, R163). What `d[n]` is: `RunEndsOnTarget`. -/
def Obligations.RunReadsDelayedHistory : Prop :=
  ∀ s : State, StateInv s → s.status.prepared = true →
    ∃ t, exec .dlRun s = .next t ∧
      (∀ c n dc i h, c < s.nat .n → n < s.nat .nsamp → dc = delayAt s n → i = fFloor dc →
          h = kernel4 s.params s.draw (fsub s.draw dc (f32OfInt i)) →
        t.cb c n =
          fadd s.draw (fadd s.draw (fadd s.draw
            (fmul s.draw h.h0 (history s c ((n : Int) + 1 - (i - 1))))
            (fmul s.draw h.h1 (history s c ((n : Int) + 1 - i))))
            (fmul s.draw h.h2 (history s c ((n : Int) + 1 - (i + 1)))))
            (fmul s.draw h.h3 (history s c ((n : Int) + 1 - (i + 2))))) ∧
      (∀ (c τ : Nat), c < s.nat .n → 1 ≤ τ → τ ≤ s.nat .len →
        t.buf c (modInt ((t.cursor c : Int) - τ) (s.nat .len)) =
          history s c ((s.nat .nsamp : Int) - τ)) ∧
      ∀ c, c < s.nat .n → t.cursor c = (s.cursor c + s.nat .nsamp) % s.nat .len

/-- The delay control of `DL.RUN`, what it leaves in its registers, and its frame. Written out are: the start values;
for each sample the LFO phase, the base delay of the ramp and of the one-pole smoother, and the effective delay
`d[n]`; `DCUR` ends on the clamped target in ramp mode and on the smoother's value in one-pole mode, `LFOPH` on the
advanced phase; beside them the run changes the working channels' cursors, their `BUF`, and `CB` within the block
(41_delay_line.md R152, R158 to R162, 20_memory.md R99). `(ctlAt s n).cur` is `cur[n-1]` of R159, `(ctlAt s n).ph` the
phase before sample `n`. -/
def Obligations.RunEndsOnTarget : Prop :=
  ∀ (s : State) (d1 d0 step k inc dep : F32), StateInv s → s.status.prepared = true →
    d1 = fclamp (s.reg .dtgt) two32 (f32OfInt (max 2 (s.nat .dmaxl) : Nat)) →
    d0 = fclamp (s.reg .dcur) two32 (f32OfInt (max 2 (s.nat .dmaxl) : Nat)) →
    step = fdiv s.draw (fsub s.draw d1 d0) (f32OfInt (s.nat .nsamp)) →
    k = fclamp (s.reg .scoef) zero32 one32 →
    inc = fclamp (fdiv s.draw (s.reg .lforate) (s.reg .fs)) zero32 half32 →
    dep = fclamp (s.reg .lfodepth) zero32 (f32OfInt (s.nat .lfomaxl)) →
    (ctlAt s 0).cur = d0 ∧
    (ctlAt s 0).ph =
      (if fge (s.reg .lfoph) zero32 = true ∧ flt (s.reg .lfoph) one32 = true then s.reg .lfoph else zero32) ∧
    (∀ n ph lfo, ph = (ctlAt s n).ph → lfo = fmul s.draw dep (sin32 s.params s.draw (fmul s.draw twoPi32 ph)) →
      (ctlAt s (n + 1)).ph = (if fge (fadd s.draw ph inc) one32 = true
        then fsub s.draw (fadd s.draw ph inc) one32 else fadd s.draw ph inc) ∧
      (s.ctrl.smode = .ramp →
        delayAt s n = fclamp (fadd s.draw
            (if n + 1 = s.nat .nsamp then d1
              else fadd s.draw d0 (fmul s.draw (f32OfInt (n + 1 : Nat)) step)) lfo)
          two32 (f32OfInt (max 2 (s.nat .dmaxl + s.nat .lfomaxl) : Nat))) ∧
      (s.ctrl.smode = .onePole →
        (ctlAt s (n + 1)).cur =
          fadd s.draw (ctlAt s n).cur (fmul s.draw k (fsub s.draw d1 (ctlAt s n).cur)) ∧
        delayAt s n = fclamp (fadd s.draw (ctlAt s (n + 1)).cur lfo)
          two32 (f32OfInt (max 2 (s.nat .dmaxl + s.nat .lfomaxl) : Nat)))) ∧
    ∃ t, exec .dlRun s = .next t ∧
      (s.ctrl.smode = .ramp → t.reg .dcur = d1) ∧
      (s.ctrl.smode = .onePole → t.reg .dcur = (ctlAt s (s.nat .nsamp)).cur) ∧
      t.reg .lfoph = (ctlAt s (s.nat .nsamp)).ph ∧
      t.status = s.status ∧ t.reg .cmdcnt = s.reg .cmdcnt + 1#32 ∧
      KeepsBut [.cmdcnt, .dcur, .lfoph] (· < s.nat .n)
        (fun A => cbWords (· < s.nat .n) (s.nat .nsamp) A ∨ bufWords (· < s.nat .n) (s.nat .len) A) s t

/-- The effective delay of every sample is within the safe range (41_delay_line.md R152, R160). -/
def Obligations.EffectiveDelayIsClamped : Prop :=
  ∀ (s : State) (n : Nat), StateInv s → s.status.prepared = true →
    fge (delayAt s n) two32 = true ∧
      fge (f32OfInt (max 2 (s.nat .dmaxl + s.nat .lfomaxl) : Nat)) (delayAt s n) = true

/-- The LFO phase stays in `[0, 1)` from sample to sample, whatever `LFOPH`, `LFORATE` and `FS` hold
(41_delay_line.md R161, R164 c). -/
def Obligations.PhaseStaysInTurn : Prop :=
  ∀ (s : State) (n : Nat), fge (ctlAt s n).ph zero32 = true ∧ flt (ctlAt s n).ph one32 = true

/-! ## The rotation matrix -/

/-- `RM.BUILD` stores the transpose of the rotation of the clamped angles in the `N × N` square, sets `MAT_OK`, in
either transform mode, and changes nothing else (42_rotation.md R182, R189). -/
def Obligations.BuildStoresRotation : Prop :=
  ∀ s : State, StateInv s → s.status.prepared = true →
    ∃ t, exec .rmBuild s = .next t ∧
      (∀ i j, i < s.nat .n → j < s.nat .n → t.mat i j = entryOf (rotationAt s (s.nat .order)) j i) ∧
      t.status = { s.status with matOk := true } ∧ t.reg .cmdcnt = s.reg .cmdcnt + 1#32 ∧
      KeepsBut [.cmdcnt] nowhere (matWords (s.nat .n)) s t

/-- `RotMat` is the exact identity at zero angles of either sign, for every order and realisation
(42_rotation.md R187 a). -/
def Obligations.RotationIsIdentityAtZero : Prop :=
  ∀ (p : Params) (yd pd rd : F32) (o i j : Nat), fMag yd = 0 → fMag pd = 0 → fMag rd = 0 →
    i < (o + 1) * (o + 1) → j < (o + 1) * (o + 1) →
    entryOf (rotMat p yd pd rd o) i j = if i = j then one32 else zero32

/-- `RotMat` mixes no degrees, has 1.0 at `(0, 0)`, and every entry is finite and at most 1 in magnitude
(42_rotation.md R187 c, e). -/
def Obligations.RotationIsBlockDiagonal : Prop :=
  ∀ (p : Params) (yd pd rd : F32) (o i j : Nat), i < (o + 1) * (o + 1) → j < (o + 1) * (o + 1) →
    (Nat.sqrt i ≠ Nat.sqrt j → entryOf (rotMat p yd pd rd o) i j = zero32) ∧
      (i = 0 → j = 0 → entryOf (rotMat p yd pd rd o) i j = one32) ∧
      fIsFinite (entryOf (rotMat p yd pd rd o) i j) = true ∧
      fMag (entryOf (rotMat p yd pd rd o) i j) ≤ fMag one32

/-- `RM.APPLY` with a ready matrix, in either mode: every output of the block is the sum, input channels ascending,
over the samples and the matrix as they stood before the command; nothing else changes (42_rotation.md R190). -/
def Obligations.ApplyMultipliesBlock : Prop :=
  ∀ s : State, StateInv s → s.status.prepared = true → s.status.matOk = true →
    ∃ t, exec .rmApply s = .next t ∧
      (∀ j n, j < s.nat .n → n < s.nat .nsamp → t.cb j n = matrixSumAt s n j) ∧
      t.status = s.status ∧ t.reg .cmdcnt = s.reg .cmdcnt + 1#32 ∧
      KeepsBut [.cmdcnt] nowhere (cbWords (· < s.nat .n) (s.nat .nsamp)) s t

/-- `RM.APPLY` in Rotate mode without a ready matrix is `RM.BUILD` and then `RM.APPLY`, but for one count in
`CMDCNT` (42_rotation.md R190). Both ways draw the same NaN results (log entry 4). -/
def Obligations.ApplyRebuildsInRotate : Prop :=
  ∀ s : State, s.status.prepared = true → s.ctrl.xmode = .rotate → s.status.matOk = false →
    ∃ b t u, exec .rmBuild s = .next b ∧ exec .rmApply b = .next u ∧ exec .rmApply s = .next t ∧
      t.reg .cmdcnt = s.reg .cmdcnt + 1#32 ∧ u = t.setReg .cmdcnt (t.reg .cmdcnt + 1#32)

/-- `RM.COMMIT` sets `MAT_OK`, in either mode, and changes nothing else (42_rotation.md R193). -/
def Obligations.CommitMarksMatrix : Prop :=
  ∀ s : State, s.status.prepared = true →
    ∃ t, exec .rmCommit s = .next t ∧ t.status = { s.status with matOk := true } ∧
      t.reg .cmdcnt = s.reg .cmdcnt + 1#32 ∧ KeepsBut [.cmdcnt] nowhere nowhere s t

/-! ## The filter bank -/

/-- `FB.SETCUT` stores the clamped cutoffs and the coefficient sets of both stages, and changes nothing else: the
filter states are kept (43_filter_bank.md R211, R212). -/
def Obligations.SetcutStoresCoefficients : Prop :=
  ∀ s : State, s.status.prepared = true →
    ∃ t, exec .fbSetcut s = .next t ∧
      t.reg .hphzc = fclamp (s.reg .hphz) twenty32 (fmul s.draw (s.reg .fs) half32) ∧
      t.reg .lphzc = fclamp (s.reg .lphz) twenty32 (fmul s.draw (s.reg .fs) half32) ∧
      t.hpCoefs = biquadCoef s.params .hp (t.reg .hphzc) (s.reg .fs) ∧
      t.lpCoefs = biquadCoef s.params .lp (t.reg .lphzc) (s.reg .fs) ∧
      t.status = s.status ∧ t.reg .cmdcnt = s.reg .cmdcnt + 1#32 ∧
      KeepsBut [.cmdcnt, .hphzc, .lphzc, .hpb0, .hpb1, .hpb2, .hpa1, .hpa2, .lpb0, .lpb1, .lpb2,
        .lpa1, .lpa2] nowhere nowhere s t

/-- The stored cutoffs lie in `[20, FS/2]`, whatever the requested ones hold (43_filter_bank.md R212). -/
def Obligations.CutoffIsClamped : Prop :=
  ∀ s : State, StateInv s → s.status.prepared = true →
    ∃ t, exec .fbSetcut s = .next t ∧
      fge (t.reg .hphzc) twenty32 = true ∧ fge (fmul s.draw (s.reg .fs) half32) (t.reg .hphzc) = true ∧
      fge (t.reg .lphzc) twenty32 = true ∧ fge (fmul s.draw (s.reg .fs) half32) (t.reg .lphzc) = true

/-- `FB.RUN c` runs the two stages over the block of channel `c`: for each sample the three expressions of
`BiquadStep`, written out, first with the high-pass set on the sample, then with the low-pass set on that output, each
from the state words the sample before left and with the coefficients as they stood at the start; it writes that block
and those four words alone (43_filter_bank.md R215 to R217). `filterAt s ch n` are the state words before
sample `n`. -/
def Obligations.FilterRunsRecurrence : Prop :=
  ∀ (s : State) (ch : Nat), StateInv s → s.status.prepared = true → ch < s.nat .nchl →
    ∃ t, exec (.fbRun ch) s = .next t ∧
      filterAt s ch 0 = ⟨s.fst ch 0, s.fst ch 1, s.fst ch 2, s.fst ch 3⟩ ∧
      (∀ n x y z f, n < s.nat .nsamp → x = s.cb ch n → f = filterAt s ch n →
        y = fadd s.draw (fmul s.draw (s.reg .hpb0) x) f.h1 →
        z = fadd s.draw (fmul s.draw (s.reg .lpb0) y) f.l1 →
        filterOutAt s ch n = z ∧
        filterAt s ch (n + 1) =
          ⟨fadd s.draw (fsub s.draw (fmul s.draw (s.reg .hpb1) x) (fmul s.draw (s.reg .hpa1) y)) f.h2,
            fsub s.draw (fmul s.draw (s.reg .hpb2) x) (fmul s.draw (s.reg .hpa2) y),
            fadd s.draw (fsub s.draw (fmul s.draw (s.reg .lpb1) y) (fmul s.draw (s.reg .lpa1) z)) f.l2,
            fsub s.draw (fmul s.draw (s.reg .lpb2) y) (fmul s.draw (s.reg .lpa2) z)⟩) ∧
      (∀ n, n < s.nat .nsamp → t.cb ch n = filterOutAt s ch n) ∧
      ⟨t.fst ch 0, t.fst ch 1, t.fst ch 2, t.fst ch 3⟩ = filterAt s ch (s.nat .nsamp) ∧
      t.status = s.status ∧ t.reg .cmdcnt = s.reg .cmdcnt + 1#32 ∧
      KeepsBut [.cmdcnt] nowhere
        (fun A => cbWords (· = ch) (s.nat .nsamp) A ∨ fstWords (· = ch) A) s t

/-- `FB.RUNALL` runs the recurrence of `FilterRunsRecurrence` over every working channel and leaves the channels `N`
and above alone (43_filter_bank.md R219). -/
def Obligations.RunallFiltersWorkingChannels : Prop :=
  ∀ s : State, StateInv s → s.status.prepared = true →
    ∃ t, exec .fbRunall s = .next t ∧
      (∀ c n, c < s.nat .n → n < s.nat .nsamp → t.cb c n = filterOutAt s c n) ∧
      (∀ c, c < s.nat .n → t.filterWords c = filterAt s c (s.nat .nsamp)) ∧
      t.status = s.status ∧ t.reg .cmdcnt = s.reg .cmdcnt + 1#32 ∧
      KeepsBut [.cmdcnt] nowhere
        (fun A => cbWords (· < s.nat .n) (s.nat .nsamp) A ∨ fstWords (· < s.nat .n) A) s t

/-- `FB.RUNALL` equals `FB.RUN 0`, …, `FB.RUN N-1`, except that `CMDCNT` advances by 1, not by `N`
(43_filter_bank.md R219). Both ways draw the same NaN results (log entry 4). -/
def Obligations.RunallIsEveryFilterRun : Prop :=
  ∀ s : State, StateInv s → s.status.prepared = true →
    ∃ t u, exec .fbRunall s = .next t ∧ filterEach (s.nat .n) s = .next u ∧
      u = t.setReg .cmdcnt (s.reg .cmdcnt + s.reg .n) ∧ t.reg .cmdcnt = s.reg .cmdcnt + 1#32

/-! ## The bus -/

/-- The address map: which word address names which element (20_memory.md R81). -/
def Obligations.AddressMapIsExact : Prop :=
  ∀ (s : State) (A : Nat), StateInv s →
    (∀ r, target s A = .reg r ↔ A = r ∧ r ≤ 0xFF) ∧
    (∀ i j, target s A = .mat i j ↔
      i < s.params.nchMax ∧ j < s.params.nchMax ∧ A = 0x1000 + 64 * i + j) ∧
    (∀ c i, target s A = .fst c i ↔ c < s.params.nchMax ∧ i < 4 ∧ A = 0x2000 + 4 * c + i) ∧
    (∀ c n, target s A = .cb c n ↔
      c < s.params.nchMax ∧ n < s.params.bmax ∧ A = 0x100000 + 0x4000 * c + n) ∧
    ∀ c k, target s A = .buf c k ↔ s.status.prepared = true ∧ c < s.nat .nchl ∧ k < s.nat .len ∧
      A = 0x4000000 + 0x100000 * c + k

/-- A read answers the element's stored word and changes no state but the bus port's own (20_memory.md R84). -/
def Obligations.ReadAnswersElement : Prop :=
  ∀ (s : State) (A : BitVec 27) (rest : List BusOp), s.pending = .read A :: rest →
    ∃ r, step s = .next ((s.taken rest).withReply (some r)) ∧
      match target s A.toNat with
      | .reg idx => r = .data (s.readIndex idx)
      | .mat i j => r = .data (s.mat i j)
      | .fst c i => r = .data (s.fst c i)
      | .cb c n => r = .data (s.cb c n)
      | .buf c k => r = .data (s.buf c k)
      | .unmapped => r = .busFault

/-- What each register index reads as: the stored registers at their indices, `ID` its constant, `CTRL` and
`STATUS` with zero reserved bits, the cursors, and 0 at every reserved index (10_state.md R37, R40 to R43, R58). -/
def Obligations.RegisterMapReads : Prop :=
  ∀ s : State, StateInv s →
    s.readIndex 0x00 = 0x4D444C01#32 ∧
    s.readIndex 0x01 = s.readIndex 0x01 &&& 0x00000007#32 ∧
    ((s.readIndex 0x01).getLsbD 0 = true ↔ s.ctrl.ie = true) ∧
    ((s.readIndex 0x01).getLsbD 1 = true ↔ s.ctrl.smode = .onePole) ∧
    ((s.readIndex 0x01).getLsbD 2 = true ↔ s.ctrl.xmode = .warp) ∧
    s.readIndex 0x02 = s.readIndex 0x02 &&& 0x000000F7#32 ∧
    ((s.readIndex 0x02).getLsbD 0 = true ↔ s.status.prepared = true) ∧
    ((s.readIndex 0x02).getLsbD 1 = true ↔ s.status.err = true) ∧
    ((s.readIndex 0x02).getLsbD 2 = true ↔ s.status.matOk = true) ∧
    (s.readIndex 0x02).extractLsb' 4 4 = s.status.errCode ∧
    (∀ r : Reg, s.readIndex r.index = s.reg r) ∧
    (∀ c, c < s.params.nchMax → s.readIndex (0x40 + c) = word (s.cursor c)) ∧
    ∀ idx, idx ∈ [0x17, 0x21, 0x22, 0x23, 0x32, 0x33, 0x37, 0x38, 0x39, 0x3A, 0x3B, 0x3C, 0x3D, 0x3E,
        0x3F] ∨ (0x40 + s.params.nchMax ≤ idx ∧ idx ≤ 0xFF) → s.readIndex idx = 0#32

/-- A bus write to a plain writable register stores the value and changes nothing else; to a read-only register or a
reserved index it changes nothing; neither is a bus fault (10_state.md R37, 20_memory.md R85). -/
def Obligations.RegisterWrites : Prop :=
  ∀ (s : State) (A : BitVec 27) (v : Word) (rest : List BusOp), StateInv s →
    s.pending = .write A v :: rest →
    (∀ r ∈ [Reg.srLo, .srHi, .maxd, .lfomax, .nch, .blk, .inch, .cfgorder, .dtgt, .dcur, .scoef,
        .lforate, .lfodepth, .lfoph, .dly, .din, .hphz, .lphz, .hpb0, .hpb1, .hpb2, .hpa1, .hpa2,
        .lpb0, .lpb1, .lpb2, .lpa1, .lpa2], A.toNat = r.index →
      step s = .next (((s.taken rest).setReg r v).withReply (some .done))) ∧
    (A.toNat ∈ [0x00, 0x02, 0x03, 0x05, 0x0C, 0x0D, 0x0E, 0x0F, 0x10, 0x11, 0x13, 0x14, 0x17, 0x20, 0x21,
        0x22, 0x23, 0x26, 0x27, 0x32, 0x33] ∨ (0x37 ≤ A.toNat ∧ A.toNat ≤ 0xFF) →
      step s = .next ((s.taken rest).withReply (some .done)))

/-- A bus write to `CTRL` stores its three fields; a change of `XMODE` clears `MAT_OK` (10_state.md R42, R64). -/
def Obligations.CtrlWrite : Prop :=
  ∀ (s : State) (v : Word) (rest : List BusOp), s.pending = .write 0x01#27 v :: rest →
    ∃ t, step s = .next t ∧ t.readIndex 0x01 = v &&& 7#32 ∧ t.reply = some .done ∧
      t.status.matOk = (if t.ctrl.xmode = s.ctrl.xmode then s.status.matOk else false) ∧
      t.status = { s.status with matOk := t.status.matOk } ∧
      KeepsBut [] nowhere nowhere { (s.taken rest).withReply (some .done) with ctrl := t.ctrl } t

/-- A bus write to `NSAMP` is legalised into `1..BLKL` while prepared and ignored otherwise (10_state.md R50). -/
def Obligations.NsampWrite : Prop :=
  ∀ (s : State) (v : Word) (rest : List BusOp), s.pending = .write 0x12#27 v :: rest →
    ∃ t, step s = .next t ∧ t.reply = some .done ∧ t.status = s.status ∧
      (s.status.prepared = false → t.reg .nsamp = s.reg .nsamp) ∧
      (s.status.prepared = true → v = 0#32 → t.reg .nsamp = 1#32) ∧
      (s.status.prepared = true → s.nat .blkl < v.toNat → t.reg .nsamp = s.reg .blkl) ∧
      (s.status.prepared = true → 1 ≤ v.toNat → v.toNat ≤ s.nat .blkl → t.reg .nsamp = v) ∧
      KeepsBut [.nsamp] nowhere nowhere ((s.taken rest).withReply (some .done)) t

/-- A bus write to `YAW`, `PITCH` or `ROLL` stores the value and, in Rotate mode, clears `MAT_OK` whether or not
the value changed; in Warp mode `MAT_OK` stays (10_state.md R57, R64). -/
def Obligations.AngleWrite : Prop :=
  ∀ (s : State) (A : BitVec 27) (v : Word) (r : Reg) (rest : List BusOp),
    s.params.wellFormed = true → s.pending = .write A v :: rest →
    r ∈ [Reg.yaw, .pitch, .roll] → A.toNat = r.index →
    ∃ t, step s = .next t ∧ t.reg r = v ∧ t.reply = some .done ∧
      t.status = { s.status with matOk := if s.ctrl.xmode = .rotate then false else s.status.matOk } ∧
      KeepsBut [r] nowhere nowhere ((s.taken rest).withReply (some .done)) t

/-- A bus write to an element of `MAT` stores the word and clears `MAT_OK`; to an element of `CB` it stores the
word; any bit pattern is stored unchanged, and no other byte changes (20_memory.md R85, R89). -/
def Obligations.ElementWrite : Prop :=
  ∀ (s : State) (A : BitVec 27) (v : Word) (rest : List BusOp), s.pending = .write A v :: rest →
    (∀ i j, target s A.toNat = .mat i j →
      ∃ t, step s = .next t ∧ t.mat i j = v ∧ t.status = { s.status with matOk := false } ∧
        t.reply = some .done ∧
        KeepsBut [] nowhere (· = A.toNat) ((s.taken rest).withReply (some .done)) t) ∧
    ∀ c n, target s A.toNat = .cb c n →
      ∃ t, step s = .next t ∧ t.cb c n = v ∧ t.status = s.status ∧ t.reply = some .done ∧
        KeepsBut [] nowhere (· = A.toNat) ((s.taken rest).withReply (some .done)) t

/-- A bus fault is an error reply that leaves every register and memory as it was, and exactly the transactions of
R84, R85 and R87 end in one: a read of an unmapped address, a write to an unmapped address or to `FST` or `BUF`, and
a mapped access that is not one aligned word (20_memory.md R88). -/
def Obligations.BusFaultChangesNothing : Prop :=
  ∀ (s : State) (op : BusOp) (rest : List BusOp), s.pending = op :: rest →
    ∃ t, step s = .next t ∧ (t.reply = some .busFault ↔ busFaults s op) ∧
      (busFaults s op → t = (s.taken rest).withReply (some .busFault))

/-- In a byte-addressed mapping, the whole aligned word at byte offset `4·A` is the word at address `A`
(20_memory.md R86, R87). -/
def Obligations.MappedWordIsWord : Prop :=
  ∀ (s : State) (A : BitVec 27) (o : BitVec 29) (v : Word) (rest : List BusOp),
    o.toNat = 4 * A.toNat →
    step { s with pending := .mappedRead o 4 :: rest } = step { s with pending := .read A :: rest } ∧
      step { s with pending := .mappedWrite o 4 v :: rest } =
        step { s with pending := .write A v :: rest }

/-! ## Reset, interrupt, invariants -/

/-- The state after reset: every register 0 but `ID`, every cursor 0, no flag set, `BUF` unmapped, `irq` low
(10_state.md R65, 70_reset_and_hazards.md R260). -/
def Obligations.ResetState : Prop :=
  State.reset.readIndex 0 = 0x4D444C01#32 ∧
    (∀ idx, 1 ≤ idx → idx ≤ 0xFF → State.reset.readIndex idx = 0#32) ∧
    State.reset.status.prepared = false ∧ State.reset.irq = false ∧
    (∀ A, 0x4000000 ≤ A → target State.reset A = .unmapped) ∧ StateInv State.reset

/-- A reset between two transactions leaves the device in its reset state, with nothing of the registers and
the memories before it kept; the implementation and the transactions still to come stay (70_reset_and_hazards.md
R260, R261; that they stay is the model's choice, log entries 2 and 10). -/
def Obligations.ResetTransaction : Prop :=
  ∀ (s : State) (rest : List BusOp), s.pending = .reset :: rest →
    ∃ t, step s = .next t ∧ t.readIndex 0 = 0x4D444C01#32 ∧ (∀ r, t.reg r = 0#32) ∧
      (∀ c, t.cursor c = 0) ∧ t.ctrl.word = 0#32 ∧ t.status.word = 0#32 ∧ t.irq = false ∧
      t.mem.cells = [] ∧ t.params = s.params ∧ t.pending = rest ∧ t.reply = none

/-- The interrupt line is the recorded-error flag gated by the enable, and an enabled fault raises it
(60_exceptions.md R238). -/
def Obligations.IrqMirrorsError : Prop :=
  (∀ s : State, s.irq = true ↔ s.status.err = true ∧ s.ctrl.ie = true) ∧
    ∀ (s : State) (k : Cause) (w : Word), s.ctrl.ie = true → (s.raise k w).irq = true

/-- Every step keeps the invariant: the prepared sizes, the canonical form of the memory, and the error record
(10_state.md R66, 60_exceptions.md R242). -/
def Obligations.StepKeepsInv : Prop :=
  ∀ s t : State, StateInv s → step s = .next t → StateInv t

/-- Every step keeps the memory within the map: no command and no bus write lists a byte of an element that does
not exist (20_memory.md R81). -/
def Obligations.StepKeepsMemoryInMap : Prop :=
  ∀ s t : State, StateInv s → MemoryInMap s → step s = .next t → MemoryInMap t

/-! ## Arithmetic -/

/-- Addition, subtraction, multiplication and division of finite numbers are correctly rounded, ties to even,
with the sign of the exact result, and an exact sum of zero is `+0` unless both operands are negative
(00_scope.md R19, R20). -/
def Obligations.ArithmeticIsCorrectlyRounded : Prop :=
  ∀ (k : Nat) (a b : F32), fIsFinite a = true → fIsFinite b = true →
    (fInt a + fInt b ≠ 0 → NearestEven (fInt a + fInt b).natAbs 1 (fMag (fadd k a b)) ∧
      fSign (fadd k a b) = decide (fInt a + fInt b < 0)) ∧
    (fInt a + fInt b = 0 → fMag (fadd k a b) = 0 ∧
      fSign (fadd k a b) = (fSign a && fSign b)) ∧
    (fInt a - fInt b ≠ 0 → NearestEven (fInt a - fInt b).natAbs 1 (fMag (fsub k a b)) ∧
      fSign (fsub k a b) = decide (fInt a - fInt b < 0)) ∧
    (fInt a - fInt b = 0 → fMag (fsub k a b) = 0 ∧
      fSign (fsub k a b) = (fSign a && !fSign b)) ∧
    (NearestEven (fUnits a * fUnits b) (2 ^ 149) (fMag (fmul k a b)) ∧
      fSign (fmul k a b) = (fSign a != fSign b)) ∧
    (fMag b ≠ 0 → NearestEven (fUnits a * 2 ^ 149) (fUnits b) (fMag (fdiv k a b)) ∧
      fSign (fdiv k a b) = (fSign a != fSign b))

/-- `Clamp` (00_scope.md R23): below the range, and for a NaN, the lower bound; above it the upper; within it the
operand itself. -/
def Obligations.ClampIsSpec : Prop :=
  ∀ x lo hi : F32, fge hi lo = true →
    (fIsNaN x = true → fclamp x lo hi = lo) ∧ (flt x lo = true → fclamp x lo hi = lo) ∧
      (fgt x hi = true → fclamp x lo hi = hi) ∧
      (fge x lo = true → fge hi x = true → fclamp x lo hi = x)
end

