-- ==== Sys2Proof/Laws/Loop.lean ====
section
/-! SUPPORT. The laws of `Mod`, `ISqrt` and the bounded loop (00_scope.md R13 to R15). -/

namespace Sys2Proof.Machine

/-! ## The loop -/

@[simp] theorem forUpTo_zero {σ : Type} (body : Nat → σ → σ) (s : σ) : forUpTo 0 body s = s := rfl

@[simp] theorem forUpTo_succ {σ : Type} (n : Nat) (body : Nat → σ → σ) (s : σ) :
    forUpTo (n + 1) body s = body n (forUpTo n body s) := rfl

/-- The induction over a loop: what holds before it and what each pass keeps holds after it. -/
theorem forUpTo_induct {σ : Type} (P : Nat → σ → Prop) {n : Nat} {body : Nat → σ → σ} {s : σ}
    (start : P 0 s) (pass : ∀ m t, m < n → P m t → P (m + 1) (body m t)) :
    P n (forUpTo n body s) := by
  induction n with
  | zero => exact start
  | succ n ih =>
    exact pass n _ (Nat.lt_succ_self n) (ih fun m t hm => pass m t (Nat.lt_succ_of_lt hm))

/-- What every pass leaves alone, the loop leaves alone. -/
theorem forUpTo_frame {σ α : Type} (f : σ → α) {n : Nat} {body : Nat → σ → σ} {s : σ}
    (pass : ∀ m t, m < n → f (body m t) = f t) : f (forUpTo n body s) = f s :=
  forUpTo_induct (fun _ t => f t = f s) rfl fun m t hm ht => (pass m t hm).trans ht

/-- An invariant that every pass keeps, the loop keeps. -/
theorem forUpTo_keeps {σ : Type} (P : σ → Prop) {n : Nat} {body : Nat → σ → σ} {s : σ} (start : P s)
    (pass : ∀ m t, m < n → P t → P (body m t)) : P (forUpTo n body s) :=
  forUpTo_induct (fun _ t => P t) start pass

/-- Two loops whose passes agree on every state agree. -/
theorem forUpTo_congr {σ : Type} {n : Nat} {f g : Nat → σ → σ} {s : σ}
    (h : ∀ m t, m < n → f m t = g m t) : forUpTo n f s = forUpTo n g s := by
  induction n with
  | zero => rfl
  | succ n ih =>
    rw [forUpTo_succ, forUpTo_succ, ih fun m t hm => h m t (Nat.lt_succ_of_lt hm),
      h n _ (Nat.lt_succ_self n)]

/-! ## Mod (00_scope.md R14) -/

/-- `Mod(a, m)` lies in `[0, m)`. -/
theorem modInt_lt (a : Int) {m : Nat} (h : 0 < m) : modInt a m < m := by
  have h1 := Int.emod_nonneg a (show (m : Int) ≠ 0 by omega)
  have h2 := Int.emod_lt_of_pos a (show (0 : Int) < m by omega)
  unfold modInt
  omega

/-- `Mod(a, m)` differs from `a` by a multiple of `m`. -/
theorem modInt_cast (a : Int) {m : Nat} (h : 0 < m) : (modInt a m : Int) = a % m :=
  Int.toNat_of_nonneg (Int.emod_nonneg a (by omega))

/-- `Mod` is the identity on `[0, m)`. -/
theorem modInt_of_lt {a m : Nat} (h : a < m) : modInt (a : Int) m = a := by
  have : ((a : Int) % (m : Int)) = ((a % m : Nat) : Int) := by norm_cast
  rw [modInt, this, Nat.mod_eq_of_lt h, Int.toNat_natCast]

/-- `Mod` of a natural number. -/
theorem modInt_natCast (a m : Nat) : modInt (a : Int) m = a % m := by
  have : ((a : Int) % (m : Int)) = ((a % m : Nat) : Int) := by norm_cast
  rw [modInt, this, Int.toNat_natCast]

/-! ## ISqrt (00_scope.md R15) -/

theorem iSqrtFrom_spec (b n r : Nat) (low : r * r ≤ n) (high : n < (r + 2 ^ b) * (r + 2 ^ b)) :
    iSqrtFrom b n r * iSqrtFrom b n r ≤ n ∧ n < (iSqrtFrom b n r + 1) * (iSqrtFrom b n r + 1) := by
  induction b generalizing r with
  | zero => exact ⟨low, by simpa [iSqrtFrom] using high⟩
  | succ b ih =>
    rw [iSqrtFrom]
    split
    · rename_i h
      exact ih _ h (by rw [pow_succ] at high; convert high using 2 <;> omega)
    · rename_i h
      exact ih _ low (by omega)

/-- `ISqrt(n)` is the largest `s` with `s × s ≤ n`. -/
theorem iSqrt_spec (n : Nat) : iSqrt n * iSqrt n ≤ n ∧ n < (iSqrt n + 1) * (iSqrt n + 1) := by
  refine iSqrtFrom_spec _ _ _ (by simp) ?_
  rw [Nat.zero_add, ← pow_add]
  calc n < 2 ^ (Nat.log2 n + 1) := Nat.lt_log2_self
    _ ≤ _ := Nat.pow_le_pow_right (by norm_num) (by omega)

/-- `ISqrt(n)` is at least every `s` with `s × s ≤ n`. -/
theorem le_iSqrt {s n : Nat} (h : s * s ≤ n) : s ≤ iSqrt n := by
  by_contra hc
  have h1 : iSqrt n + 1 ≤ s := by omega
  have h2 := Nat.mul_le_mul h1 h1
  have := (iSqrt_spec n).2
  omega

/-- `ISqrt` of a perfect square. -/
theorem iSqrt_mul_self (s : Nat) : iSqrt (s * s) = s := by
  have h1 := le_iSqrt (le_refl (s * s))
  have h2 := (iSqrt_spec (s * s)).1
  by_contra hc
  have h3 : s + 1 ≤ iSqrt (s * s) := by omega
  have := Nat.mul_le_mul h3 h3
  nlinarith

/-- `ISqrt` is monotone. -/
theorem iSqrt_mono {m n : Nat} (h : m ≤ n) : iSqrt m ≤ iSqrt n :=
  le_iSqrt ((iSqrt_spec m).1.trans h)

end Sys2Proof.Machine
end

