-- ==== Sys2Proof/Laws/State.lean ====
section
/-! SUPPORT. One lemma per field per update of State, true by rfl, and the register and cursor read
lemmas, so that no later proof unfolds a record update. -/

namespace Sys2Proof.Machine

/-! ## Fields an update leaves alone -/

@[simp] theorem State.setReg_params (s : State) (r : Reg) (v : Word) : (s.setReg r v).params = s.params := rfl
@[simp] theorem State.setReg_ctrl (s : State) (r : Reg) (v : Word) : (s.setReg r v).ctrl = s.ctrl := rfl
@[simp] theorem State.setReg_status (s : State) (r : Reg) (v : Word) : (s.setReg r v).status = s.status := rfl
@[simp] theorem State.setReg_wcur (s : State) (r : Reg) (v : Word) : (s.setReg r v).wcur = s.wcur := rfl
@[simp] theorem State.setReg_mem (s : State) (r : Reg) (v : Word) : (s.setReg r v).mem = s.mem := rfl
@[simp] theorem State.setReg_draw (s : State) (r : Reg) (v : Word) : (s.setReg r v).draw = s.draw := rfl
@[simp] theorem State.setReg_pending (s : State) (r : Reg) (v : Word) : (s.setReg r v).pending = s.pending := rfl
@[simp] theorem State.setReg_reply (s : State) (r : Reg) (v : Word) : (s.setReg r v).reply = s.reply := rfl

@[simp] theorem State.setCursor_params (s : State) (c v : Nat) : (s.setCursor c v).params = s.params := rfl
@[simp] theorem State.setCursor_ctrl (s : State) (c v : Nat) : (s.setCursor c v).ctrl = s.ctrl := rfl
@[simp] theorem State.setCursor_status (s : State) (c v : Nat) : (s.setCursor c v).status = s.status := rfl
@[simp] theorem State.setCursor_regs (s : State) (c v : Nat) : (s.setCursor c v).regs = s.regs := rfl
@[simp] theorem State.setCursor_mem (s : State) (c v : Nat) : (s.setCursor c v).mem = s.mem := rfl
@[simp] theorem State.setCursor_draw (s : State) (c v : Nat) : (s.setCursor c v).draw = s.draw := rfl
@[simp] theorem State.setCursor_pending (s : State) (c v : Nat) : (s.setCursor c v).pending = s.pending := rfl
@[simp] theorem State.setCursor_reply (s : State) (c v : Nat) : (s.setCursor c v).reply = s.reply := rfl

@[simp] theorem State.store_params (s : State) (A : Nat) (v : Word) : (s.store A v).params = s.params := rfl
@[simp] theorem State.store_ctrl (s : State) (A : Nat) (v : Word) : (s.store A v).ctrl = s.ctrl := rfl
@[simp] theorem State.store_status (s : State) (A : Nat) (v : Word) : (s.store A v).status = s.status := rfl
@[simp] theorem State.store_regs (s : State) (A : Nat) (v : Word) : (s.store A v).regs = s.regs := rfl
@[simp] theorem State.store_wcur (s : State) (A : Nat) (v : Word) : (s.store A v).wcur = s.wcur := rfl
@[simp] theorem State.store_draw (s : State) (A : Nat) (v : Word) : (s.store A v).draw = s.draw := rfl
@[simp] theorem State.store_pending (s : State) (A : Nat) (v : Word) : (s.store A v).pending = s.pending := rfl
@[simp] theorem State.store_reply (s : State) (A : Nat) (v : Word) : (s.store A v).reply = s.reply := rfl

@[simp] theorem State.setPrepared_params (s : State) (b : Bool) : (s.setPrepared b).params = s.params := rfl
@[simp] theorem State.setPrepared_ctrl (s : State) (b : Bool) : (s.setPrepared b).ctrl = s.ctrl := rfl
@[simp] theorem State.setPrepared_regs (s : State) (b : Bool) : (s.setPrepared b).regs = s.regs := rfl
@[simp] theorem State.setPrepared_wcur (s : State) (b : Bool) : (s.setPrepared b).wcur = s.wcur := rfl
@[simp] theorem State.setPrepared_mem (s : State) (b : Bool) : (s.setPrepared b).mem = s.mem := rfl
@[simp] theorem State.setPrepared_draw (s : State) (b : Bool) : (s.setPrepared b).draw = s.draw := rfl
@[simp] theorem State.setPrepared_pending (s : State) (b : Bool) : (s.setPrepared b).pending = s.pending := rfl
@[simp] theorem State.setPrepared_reply (s : State) (b : Bool) : (s.setPrepared b).reply = s.reply := rfl

@[simp] theorem State.setMatOk_params (s : State) (b : Bool) : (s.setMatOk b).params = s.params := rfl
@[simp] theorem State.setMatOk_ctrl (s : State) (b : Bool) : (s.setMatOk b).ctrl = s.ctrl := rfl
@[simp] theorem State.setMatOk_regs (s : State) (b : Bool) : (s.setMatOk b).regs = s.regs := rfl
@[simp] theorem State.setMatOk_wcur (s : State) (b : Bool) : (s.setMatOk b).wcur = s.wcur := rfl
@[simp] theorem State.setMatOk_mem (s : State) (b : Bool) : (s.setMatOk b).mem = s.mem := rfl
@[simp] theorem State.setMatOk_draw (s : State) (b : Bool) : (s.setMatOk b).draw = s.draw := rfl
@[simp] theorem State.setMatOk_pending (s : State) (b : Bool) : (s.setMatOk b).pending = s.pending := rfl
@[simp] theorem State.setMatOk_reply (s : State) (b : Bool) : (s.setMatOk b).reply = s.reply := rfl

@[simp] theorem State.setError_params (s : State) (k : Cause) : (s.setError k).params = s.params := rfl
@[simp] theorem State.setError_ctrl (s : State) (k : Cause) : (s.setError k).ctrl = s.ctrl := rfl
@[simp] theorem State.setError_regs (s : State) (k : Cause) : (s.setError k).regs = s.regs := rfl
@[simp] theorem State.setError_wcur (s : State) (k : Cause) : (s.setError k).wcur = s.wcur := rfl
@[simp] theorem State.setError_mem (s : State) (k : Cause) : (s.setError k).mem = s.mem := rfl
@[simp] theorem State.setError_draw (s : State) (k : Cause) : (s.setError k).draw = s.draw := rfl
@[simp] theorem State.setError_pending (s : State) (k : Cause) : (s.setError k).pending = s.pending := rfl
@[simp] theorem State.setError_reply (s : State) (k : Cause) : (s.setError k).reply = s.reply := rfl

@[simp] theorem State.clearErrorFlag_params (s : State) : (s.clearErrorFlag).params = s.params := rfl
@[simp] theorem State.clearErrorFlag_ctrl (s : State) : (s.clearErrorFlag).ctrl = s.ctrl := rfl
@[simp] theorem State.clearErrorFlag_regs (s : State) : (s.clearErrorFlag).regs = s.regs := rfl
@[simp] theorem State.clearErrorFlag_wcur (s : State) : (s.clearErrorFlag).wcur = s.wcur := rfl
@[simp] theorem State.clearErrorFlag_mem (s : State) : (s.clearErrorFlag).mem = s.mem := rfl
@[simp] theorem State.clearErrorFlag_draw (s : State) : (s.clearErrorFlag).draw = s.draw := rfl
@[simp] theorem State.clearErrorFlag_pending (s : State) : (s.clearErrorFlag).pending = s.pending := rfl
@[simp] theorem State.clearErrorFlag_reply (s : State) : (s.clearErrorFlag).reply = s.reply := rfl

@[simp] theorem State.acknowledge_params (s : State) : (s.acknowledge).params = s.params := rfl
@[simp] theorem State.acknowledge_ctrl (s : State) : (s.acknowledge).ctrl = s.ctrl := rfl
@[simp] theorem State.acknowledge_wcur (s : State) : (s.acknowledge).wcur = s.wcur := rfl
@[simp] theorem State.acknowledge_mem (s : State) : (s.acknowledge).mem = s.mem := rfl
@[simp] theorem State.acknowledge_draw (s : State) : (s.acknowledge).draw = s.draw := rfl
@[simp] theorem State.acknowledge_pending (s : State) : (s.acknowledge).pending = s.pending := rfl
@[simp] theorem State.acknowledge_reply (s : State) : (s.acknowledge).reply = s.reply := rfl

@[simp] theorem State.complete_params (s : State) : (s.complete).params = s.params := rfl
@[simp] theorem State.complete_ctrl (s : State) : (s.complete).ctrl = s.ctrl := rfl
@[simp] theorem State.complete_status (s : State) : (s.complete).status = s.status := rfl
@[simp] theorem State.complete_wcur (s : State) : (s.complete).wcur = s.wcur := rfl
@[simp] theorem State.complete_mem (s : State) : (s.complete).mem = s.mem := rfl
@[simp] theorem State.complete_draw (s : State) : (s.complete).draw = s.draw := rfl
@[simp] theorem State.complete_pending (s : State) : (s.complete).pending = s.pending := rfl
@[simp] theorem State.complete_reply (s : State) : (s.complete).reply = s.reply := rfl

@[simp] theorem State.withReply_params (s : State) (o : Option BusReply) : (s.withReply o).params = s.params := rfl
@[simp] theorem State.withReply_ctrl (s : State) (o : Option BusReply) : (s.withReply o).ctrl = s.ctrl := rfl
@[simp] theorem State.withReply_status (s : State) (o : Option BusReply) : (s.withReply o).status = s.status := rfl
@[simp] theorem State.withReply_regs (s : State) (o : Option BusReply) : (s.withReply o).regs = s.regs := rfl
@[simp] theorem State.withReply_wcur (s : State) (o : Option BusReply) : (s.withReply o).wcur = s.wcur := rfl
@[simp] theorem State.withReply_mem (s : State) (o : Option BusReply) : (s.withReply o).mem = s.mem := rfl
@[simp] theorem State.withReply_draw (s : State) (o : Option BusReply) : (s.withReply o).draw = s.draw := rfl
@[simp] theorem State.withReply_pending (s : State) (o : Option BusReply) : (s.withReply o).pending = s.pending := rfl

@[simp] theorem State.taken_params (s : State) (l : List BusOp) : (s.taken l).params = s.params := rfl
@[simp] theorem State.taken_ctrl (s : State) (l : List BusOp) : (s.taken l).ctrl = s.ctrl := rfl
@[simp] theorem State.taken_status (s : State) (l : List BusOp) : (s.taken l).status = s.status := rfl
@[simp] theorem State.taken_regs (s : State) (l : List BusOp) : (s.taken l).regs = s.regs := rfl
@[simp] theorem State.taken_wcur (s : State) (l : List BusOp) : (s.taken l).wcur = s.wcur := rfl
@[simp] theorem State.taken_mem (s : State) (l : List BusOp) : (s.taken l).mem = s.mem := rfl
@[simp] theorem State.taken_reply (s : State) (l : List BusOp) : (s.taken l).reply = s.reply := rfl

/-- The five codes (60_exceptions.md R242). -/
theorem Cause.code_range (k : Cause) : 1 ≤ k.code.toNat ∧ k.code.toNat ≤ 5 := by cases k <;> decide

/-! ## Fields an update writes -/

@[simp] theorem State.store_mem (s : State) (A : Nat) (v : Word) :
    (s.store A v).mem = s.mem.writeWord A v := rfl
@[simp] theorem State.withReply_reply (s : State) (o : Option BusReply) :
    (s.withReply o).reply = o := rfl
@[simp] theorem State.taken_pending (s : State) (l : List BusOp) : (s.taken l).pending = l := rfl
@[simp] theorem State.taken_draw (s : State) (l : List BusOp) : (s.taken l).draw = s.draw + 1 := rfl
@[simp] theorem State.setPrepared_prepared (s : State) (b : Bool) :
    (s.setPrepared b).status.prepared = b := rfl
@[simp] theorem State.setPrepared_err (s : State) (b : Bool) :
    (s.setPrepared b).status.err = s.status.err := rfl
@[simp] theorem State.setPrepared_matOk (s : State) (b : Bool) :
    (s.setPrepared b).status.matOk = s.status.matOk := rfl
@[simp] theorem State.setPrepared_errCode (s : State) (b : Bool) :
    (s.setPrepared b).status.errCode = s.status.errCode := rfl
@[simp] theorem State.setMatOk_prepared (s : State) (b : Bool) :
    (s.setMatOk b).status.prepared = s.status.prepared := rfl
@[simp] theorem State.setMatOk_err (s : State) (b : Bool) :
    (s.setMatOk b).status.err = s.status.err := rfl
@[simp] theorem State.setMatOk_matOk (s : State) (b : Bool) : (s.setMatOk b).status.matOk = b := rfl
@[simp] theorem State.setMatOk_errCode (s : State) (b : Bool) :
    (s.setMatOk b).status.errCode = s.status.errCode := rfl
@[simp] theorem State.setError_prepared (s : State) (k : Cause) :
    (s.setError k).status.prepared = s.status.prepared := rfl
@[simp] theorem State.setError_err (s : State) (k : Cause) : (s.setError k).status.err = true := rfl
@[simp] theorem State.setError_matOk (s : State) (k : Cause) :
    (s.setError k).status.matOk = s.status.matOk := rfl
@[simp] theorem State.setError_errCode (s : State) (k : Cause) :
    (s.setError k).status.errCode = k.code := rfl
@[simp] theorem State.clearErrorFlag_prepared (s : State) :
    s.clearErrorFlag.status.prepared = s.status.prepared := rfl
@[simp] theorem State.clearErrorFlag_err (s : State) : s.clearErrorFlag.status.err = false := rfl
@[simp] theorem State.clearErrorFlag_matOk (s : State) :
    s.clearErrorFlag.status.matOk = s.status.matOk := rfl
@[simp] theorem State.clearErrorFlag_errCode (s : State) :
    s.clearErrorFlag.status.errCode = 0#4 := rfl
@[simp] theorem State.acknowledge_prepared (s : State) :
    s.acknowledge.status.prepared = s.status.prepared := rfl
@[simp] theorem State.acknowledge_err (s : State) : s.acknowledge.status.err = false := rfl
@[simp] theorem State.acknowledge_matOk (s : State) :
    s.acknowledge.status.matOk = s.status.matOk := rfl
@[simp] theorem State.acknowledge_errCode (s : State) : s.acknowledge.status.errCode = 0#4 := rfl

/-! ## Registers (10_state.md R36) -/

theorem Reg.slot_injective {r r' : Reg} (h : r.slot = r'.slot) : r = r' := by
  have hc : r.ctorIdx = r'.ctorIdx := congrArg Fin.val h
  cases r <;> cases r' <;> first | rfl | (exact absurd hc (by decide))

@[simp] theorem State.reg_setReg (s : State) (r r' : Reg) (v : Word) :
    (s.setReg r v).reg r' = if r' = r then v else s.reg r' := by
  unfold State.reg State.setReg
  by_cases h : r' = r
  · subst h; simp
  · have : (r.slot : Nat) ≠ r'.slot := fun e => h (Reg.slot_injective (Fin.ext e)).symm
    simp [h, Vector.getElem_set_ne, this]

theorem State.reg_setReg_same (s : State) (r : Reg) (v : Word) : (s.setReg r v).reg r = v := by simp

theorem State.reg_setReg_ne (s : State) {r r' : Reg} (h : r' ≠ r) (v : Word) :
    (s.setReg r v).reg r' = s.reg r' := by simp [h]

@[simp] theorem State.reg_setCursor (s : State) (c v : Nat) (r : Reg) :
    (s.setCursor c v).reg r = s.reg r := rfl
@[simp] theorem State.reg_store (s : State) (A : Nat) (v : Word) (r : Reg) :
    (s.store A v).reg r = s.reg r := rfl
@[simp] theorem State.reg_setPrepared (s : State) (b : Bool) (r : Reg) :
    (s.setPrepared b).reg r = s.reg r := rfl
@[simp] theorem State.reg_setMatOk (s : State) (b : Bool) (r : Reg) :
    (s.setMatOk b).reg r = s.reg r := rfl
@[simp] theorem State.reg_setError (s : State) (k : Cause) (r : Reg) :
    (s.setError k).reg r = s.reg r := rfl
@[simp] theorem State.reg_clearErrorFlag (s : State) (r : Reg) :
    s.clearErrorFlag.reg r = s.reg r := rfl
@[simp] theorem State.reg_withReply (s : State) (o : Option BusReply) (r : Reg) :
    (s.withReply o).reg r = s.reg r := rfl
@[simp] theorem State.reg_taken (s : State) (l : List BusOp) (r : Reg) :
    (s.taken l).reg r = s.reg r := rfl
@[simp] theorem State.reg_acknowledge (s : State) (r : Reg) :
    s.acknowledge.reg r = if r = .errinfo then 0#32 else s.reg r := by
  simp [State.acknowledge]
@[simp] theorem State.reg_complete (s : State) (r : Reg) :
    s.complete.reg r = if r = .cmdcnt then s.reg .cmdcnt + 1#32 else s.reg r := by
  simp [State.complete]

/-! ## Cursors (10_state.md R58) -/

@[simp] theorem State.cursor_setReg (s : State) (r : Reg) (v : Word) (c : Nat) :
    (s.setReg r v).cursor c = s.cursor c := rfl
@[simp] theorem State.cursor_store (s : State) (A : Nat) (v : Word) (c : Nat) :
    (s.store A v).cursor c = s.cursor c := rfl
@[simp] theorem State.cursor_setPrepared (s : State) (b : Bool) (c : Nat) :
    (s.setPrepared b).cursor c = s.cursor c := rfl
@[simp] theorem State.cursor_setMatOk (s : State) (b : Bool) (c : Nat) :
    (s.setMatOk b).cursor c = s.cursor c := rfl
@[simp] theorem State.cursor_setError (s : State) (k : Cause) (c : Nat) :
    (s.setError k).cursor c = s.cursor c := rfl
@[simp] theorem State.cursor_withReply (s : State) (o : Option BusReply) (c : Nat) :
    (s.withReply o).cursor c = s.cursor c := rfl
@[simp] theorem State.cursor_taken (s : State) (l : List BusOp) (c : Nat) :
    (s.taken l).cursor c = s.cursor c := rfl
@[simp] theorem State.cursor_acknowledge (s : State) (c : Nat) :
    s.acknowledge.cursor c = s.cursor c := rfl
@[simp] theorem State.cursor_complete (s : State) (c : Nat) : s.complete.cursor c = s.cursor c := rfl

/-- A cursor write: the written cursor within the file, the others unchanged. -/
theorem State.cursor_setCursor (s : State) (c v c' : Nat) :
    (s.setCursor c v).cursor c' = if c' = c ∧ c < 64 then v % 2 ^ 32 else s.cursor c' := by
  unfold State.cursor State.setCursor word
  by_cases h : c' = c
  · subst h
    by_cases hc : c' < 64
    · simp [hc]
    · simp [hc]
  · have h' : c ≠ c' := fun e => h e.symm
    simp [h, h']

/-! ## Raising a fault (60_exceptions.md R237) -/

theorem State.raise_of_err (s : State) (k : Cause) (w : Word) (h : s.status.err = true) :
    s.raise k w = s := by simp [State.raise, h]

theorem State.raise_of_noErr (s : State) (k : Cause) (w : Word) (h : s.status.err = false) :
    s.raise k w = (s.setError k).setReg .errinfo w := by simp [State.raise, h]

@[simp] theorem State.raise_params (s : State) (k : Cause) (w : Word) :
    (s.raise k w).params = s.params := by unfold State.raise; split <;> rfl
@[simp] theorem State.raise_ctrl (s : State) (k : Cause) (w : Word) :
    (s.raise k w).ctrl = s.ctrl := by unfold State.raise; split <;> rfl
@[simp] theorem State.raise_wcur (s : State) (k : Cause) (w : Word) :
    (s.raise k w).wcur = s.wcur := by unfold State.raise; split <;> rfl
@[simp] theorem State.raise_mem (s : State) (k : Cause) (w : Word) :
    (s.raise k w).mem = s.mem := by unfold State.raise; split <;> rfl
@[simp] theorem State.raise_draw (s : State) (k : Cause) (w : Word) :
    (s.raise k w).draw = s.draw := by unfold State.raise; split <;> rfl
@[simp] theorem State.raise_pending (s : State) (k : Cause) (w : Word) :
    (s.raise k w).pending = s.pending := by unfold State.raise; split <;> rfl
@[simp] theorem State.raise_reply (s : State) (k : Cause) (w : Word) :
    (s.raise k w).reply = s.reply := by unfold State.raise; split <;> rfl
@[simp] theorem State.raise_prepared (s : State) (k : Cause) (w : Word) :
    (s.raise k w).status.prepared = s.status.prepared := by unfold State.raise; split <;> rfl
@[simp] theorem State.raise_matOk (s : State) (k : Cause) (w : Word) :
    (s.raise k w).status.matOk = s.status.matOk := by unfold State.raise; split <;> rfl
@[simp] theorem State.raise_err (s : State) (k : Cause) (w : Word) :
    (s.raise k w).status.err = true := by
  unfold State.raise
  split
  · assumption
  · rfl
@[simp] theorem State.cursor_raise (s : State) (k : Cause) (w : Word) (c : Nat) :
    (s.raise k w).cursor c = s.cursor c := by unfold State.raise; split <;> rfl

/-- What a fault entry can change of the registers: `ERRINFO` alone. -/
theorem State.reg_raise (s : State) (k : Cause) (w : Word) (r : Reg) (h : r ≠ .errinfo) :
    (s.raise k w).reg r = s.reg r := by
  unfold State.raise
  split
  · rfl
  · simp [h]

end Sys2Proof.Machine
end

