-- ==== Sys2Proof/Laws/Blind.lean ====
section
/-! SUPPORT. The error record and the command counter are nothing to the datapath units: changing them
commutes with every unit (60_exceptions.md R240). -/

namespace Sys2Proof.Machine

/-- `T` changes only what no datapath unit reads or writes: the error record, the command counter. -/
structure Blind (T : State → State) : Prop where
  store : ∀ s A v, (T s).store A v = T (s.store A v)
  setCursor : ∀ s c v, (T s).setCursor c v = T (s.setCursor c v)
  setReg : ∀ s r v, r ≠ .errinfo → r ≠ .cmdcnt → (T s).setReg r v = T (s.setReg r v)
  reg : ∀ s r, r ≠ .errinfo → r ≠ .cmdcnt → (T s).reg r = s.reg r
  mem : ∀ s, (T s).mem = s.mem
  wcur : ∀ s, (T s).wcur = s.wcur
  params : ∀ s, (T s).params = s.params
  draw : ∀ s, (T s).draw = s.draw
  ctrl : ∀ s, (T s).ctrl = s.ctrl
  setMatOk : ∀ s b, (T s).setMatOk b = T (s.setMatOk b)
  prepared : ∀ s, (T s).status.prepared = s.status.prepared
  matOk : ∀ s, (T s).status.matOk = s.status.matOk

/-- Writes to different registers commute. -/
theorem setReg_comm (s : State) {r r' : Reg} (h : r ≠ r') (v v' : Word) : (s.setReg r v).setReg r' v' = (s.setReg r' v').setReg r v := by
  unfold State.setReg
  congr 1
  apply Vector.set_comm
  intro e; exact h (Reg.slot_injective (Fin.ext e))

/-- The later of two writes to a register stands. -/
theorem setReg_setReg (s : State) (r : Reg) (v v' : Word) : (s.setReg r v).setReg r v' = s.setReg r v' := by
  unfold State.setReg
  simp

/-- Clearing the error record (60_exceptions.md R240). -/
theorem blind_ack : Blind State.acknowledge where
  store _ _ _ := by unfold State.acknowledge State.clearErrorFlag State.setReg State.store; rfl
  setCursor _ _ _ := by unfold State.acknowledge State.clearErrorFlag State.setReg State.setCursor; rfl
  setReg s r v h _ := by
    unfold State.acknowledge
    rw [setReg_comm _ h.symm]
    rfl
  reg s r h _ := by rw [State.reg_acknowledge, if_neg h]
  mem _ := by rw [State.acknowledge_mem]
  wcur _ := by rw [State.acknowledge_wcur]
  params _ := by rw [State.acknowledge_params]
  draw _ := by rw [State.acknowledge_draw]
  ctrl _ := by rw [State.acknowledge_ctrl]
  setMatOk _ _ := by unfold State.acknowledge State.clearErrorFlag State.setReg State.setMatOk; rfl
  prepared _ := by rw [State.acknowledge_prepared]
  matOk _ := by rw [State.acknowledge_matOk]

/-- Setting the command counter. -/
theorem blind_count (v : Word) : Blind (fun s => s.setReg .cmdcnt v) where
  store _ _ _ := by unfold State.setReg State.store; rfl
  setCursor _ _ _ := by unfold State.setReg State.setCursor; rfl
  setReg s r v h h' := setReg_comm _ h'.symm _ _
  reg s r h h' := State.reg_setReg_ne _ h' _
  mem _ := by rw [State.setReg_mem]
  wcur _ := by rw [State.setReg_wcur]
  params _ := by rw [State.setReg_params]
  draw _ := by rw [State.setReg_draw]
  ctrl _ := by rw [State.setReg_ctrl]
  setMatOk _ _ := by unfold State.setReg State.setMatOk; rfl
  prepared _ := by rw [State.setReg_status]
  matOk _ := by rw [State.setReg_status]

/-- What commutes with every pass commutes with the loop. -/
theorem loop_comm {σ : Type} {T : σ → σ} {n : Nat} {f : Nat → σ → σ} {s : σ} (h : ∀ m t, m < n → f m (T t) = T (f m t)) : forUpTo n f (T s) = T (forUpTo n f s) := by
  induction n with
  | zero => rfl
  | succ n ih => rw [forUpTo_succ, forUpTo_succ, ih (fun m t hm => h m t (by omega)), h n _ (by omega)]

section
variable {T : State → State} (b : Blind T) (s : State)
include b

theorem Blind.nat {r} (h : r ≠ .errinfo) (h' : r ≠ .cmdcnt) : (T s).nat r = s.nat r := by unfold State.nat; rw [b.reg s r h h']
theorem Blind.int {r} (h : r ≠ .errinfo) (h' : r ≠ .cmdcnt) : (T s).int r = s.int r := by unfold State.int; rw [b.reg s r h h']
theorem Blind.f32 {r} (h : r ≠ .errinfo) (h' : r ≠ .cmdcnt) : (T s).f32 r = s.f32 r := by unfold State.f32; rw [b.reg s r h h']
theorem Blind.cb (c n) : (T s).cb c n = s.cb c n := by unfold State.cb; rw [b.mem]
theorem Blind.fst (c n) : (T s).fst c n = s.fst c n := by unfold State.fst; rw [b.mem]
theorem Blind.mat (c n) : (T s).mat c n = s.mat c n := by unfold State.mat; rw [b.mem]
theorem Blind.buf (c n) : (T s).buf c n = s.buf c n := by unfold State.buf; rw [b.mem]
theorem Blind.cursor (c) : (T s).cursor c = s.cursor c := by unfold State.cursor; rw [b.wcur]

theorem Blind.push (c x) : push c x (T s) = T (push c x s) := by
  unfold Machine.push State.setBuf
  rw [b.cursor, b.nat s (by decide) (by decide), b.store, b.setCursor]

theorem Blind.clampDelay (d) : clampDelay (T s) d = clampDelay s d := by
  unfold Machine.clampDelay dHiTot
  rw [b.nat s (by decide) (by decide), b.nat s (by decide) (by decide)]

theorem Blind.popAt (c d) : popAt (T s) c d = popAt s c d := by
  have h : tap (T s) c = tap s c := by
    funext t
    unfold tap tapSlot
    rw [b.buf, b.cursor, b.nat s (by decide) (by decide)]
  unfold Machine.popAt
  rw [b.clampDelay, b.params, b.draw, h]

theorem Blind.pushPop (n d c) : pushPop n d c (T s) = T (pushPop n d c s) := by
  unfold Machine.pushPop State.setCb
  rw [b.cb, b.push, b.popAt, b.store]

theorem Blind.delayPlan : delayPlan (T s) = delayPlan s := by
  unfold Machine.delayPlan dHiBase
  simp only [b.draw, b.ctrl, b.f32 s (r := .dtgt) (by decide) (by decide), b.f32 s (r := .dcur) (by decide) (by decide), b.nat s (r := .dmaxl) (by decide) (by decide), b.nat s (r := .nsamp) (by decide) (by decide),
    b.f32 s (r := .scoef) (by decide) (by decide), b.f32 s (r := .lforate) (by decide) (by decide), b.f32 s (r := .fs) (by decide) (by decide), b.f32 s (r := .lfodepth) (by decide) (by decide), b.nat s (r := .lfomaxl) (by decide) (by decide)]

theorem Blind.startCtl : startCtl (T s) = startCtl s := by
  unfold Machine.startCtl startPhase
  rw [b.delayPlan, b.f32 s (by decide) (by decide)]

theorem Blind.delayBlock : delayBlock (T s) = { delayBlock s with st := T (delayBlock s).st } := by
  unfold Machine.delayBlock
  rw [b.delayPlan, b.startCtl, b.nat s (by decide) (by decide), b.nat s (by decide) (by decide)]
  generalize Machine.delayPlan s = p
  have h : ∀ m (r : DelayRun), m < s.nat .nsamp → delaySample p (s.nat .n) m { r with st := T r.st } = { delaySample p (s.nat .n) m r with st := T (delaySample p (s.nat .n) m r).st } := by
    intro m r _
    have e1 : effectiveDelay (T r.st) p m r.ctl = effectiveDelay r.st p m r.ctl := by
      unfold effectiveDelay; rw [b.clampDelay, b.draw, b.params]
    have e2 := loop_comm (T := T) (n := s.nat .n) (s := r.st) (f := Machine.pushPop m (effectiveDelay r.st p m r.ctl)) (fun c t _ => b.pushPop t _ _ _)
    unfold delaySample
    rw [e1, e2, b.draw]
  exact loop_comm (T := fun r : DelayRun => { r with st := T r.st }) (s := { st := s, ctl := Machine.startCtl s }) h

theorem Blind.runDelay : runDelay (T s) = T (runDelay s) := by
  unfold Machine.runDelay
  rw [b.delayPlan, b.delayBlock]
  simp only
  rw [b.setReg _ _ _ (by decide) (by decide), b.setReg _ _ _ (by decide) (by decide)]

theorem Blind.rotation : rotation (T s) = rotation s := by
  unfold Machine.rotation angle
  rw [b.params, b.f32 s (by decide) (by decide), b.f32 s (by decide) (by decide), b.f32 s (by decide) (by decide), b.nat s (by decide) (by decide)]

theorem Blind.build : buildRotation (T s) = T (buildRotation s) := by
  unfold buildRotation storeMatrix
  rw [b.rotation, b.nat s (by decide) (by decide), loop_comm (T := T), b.setMatOk]
  intro m t _
  refine loop_comm (T := T) ?_
  intro j u _
  exact b.store _ _ _

theorem Blind.apply : applyMatrix (T s) = T (applyMatrix s) := by
  unfold applyMatrix
  rw [b.nat s (by decide) (by decide), loop_comm (T := T)]
  intro m t _
  unfold applySample
  have h1 : scratch (T t) m = scratch t m := by
    unfold scratch; rw [b.nat t (by decide) (by decide)]; simp only [b.cb]
  have h2 : ∀ v j, matrixSum (T t) v j = matrixSum t v j := by
    intro v j
    unfold matrixSum
    simp only [b.draw, b.mat, b.nat t (r := .n) (by decide) (by decide)]
  rw [b.nat t (by decide) (by decide), h1]
  simp only [h2]
  refine loop_comm (T := T) ?_
  intro j u _
  exact b.store _ _ _

theorem Blind.runApply : runApply (T s) = T (runApply s) := by
  unfold Machine.runApply
  rw [b.ctrl, b.matOk, b.build, b.apply, b.apply]
  split <;> rfl

theorem Blind.hp : (T s).hpCoefs = s.hpCoefs := by
  unfold State.hpCoefs
  simp only [b.f32 s (r := .hpb0) (by decide) (by decide), b.f32 s (r := .hpb1) (by decide) (by decide), b.f32 s (r := .hpb2) (by decide) (by decide), b.f32 s (r := .hpa1) (by decide) (by decide), b.f32 s (r := .hpa2) (by decide) (by decide)]
theorem Blind.lp : (T s).lpCoefs = s.lpCoefs := by
  unfold State.lpCoefs
  simp only [b.f32 s (r := .lpb0) (by decide) (by decide), b.f32 s (r := .lpb1) (by decide) (by decide), b.f32 s (r := .lpb2) (by decide) (by decide), b.f32 s (r := .lpa1) (by decide) (by decide), b.f32 s (r := .lpa2) (by decide) (by decide)]

theorem Blind.filter (c) : filterChannel c (T s) = T (filterChannel c s) := by
  unfold filterChannel
  rw [b.hp, b.lp, b.nat s (by decide) (by decide)]
  refine loop_comm (T := T) ?_
  intro m t _
  unfold filterSample State.setFst State.setCb
  simp only [b.draw, b.fst, b.cb, b.store]

theorem Blind.filterAll : filterAll (T s) = T (filterAll s) := by
  unfold Machine.filterAll
  rw [b.nat s (by decide) (by decide)]
  exact loop_comm (T := T) (fun c t _ => b.filter t c)

theorem Blind.coefs : computeCoefficients (T s) = T (computeCoefficients s) := by
  unfold computeCoefficients
  have h1 : ∀ r, r ≠ .errinfo → r ≠ .cmdcnt → cutoff (T s) r = cutoff s r := by
    intro r h h'; unfold cutoff; rw [b.draw, b.f32 s h h', b.f32 s (by decide) (by decide)]
  have h2 : ∀ k r, r ≠ .errinfo → r ≠ .cmdcnt → stageCoefs (T s) k r = stageCoefs s k r := by
    intro k r h h'; unfold stageCoefs; rw [b.params, h1 r h h', b.f32 s (by decide) (by decide)]
  rw [h1 _ (by decide) (by decide), h1 _ (by decide) (by decide), h2 _ _ (by decide) (by decide), h2 _ _ (by decide) (by decide)]
  unfold State.setHp State.setLp
  iterate 12 rw [b.setReg _ _ _ (by decide) (by decide)]

theorem Blind.setOrder (o) : setOrder o (T s) = T (setOrder o s) := by
  unfold Machine.setOrder
  rw [b.ctrl, b.setReg _ _ _ (by decide) (by decide), b.setReg _ _ _ (by decide) (by decide), b.setMatOk]
  simp only [b.build]
  split <;> rfl

theorem Blind.working : workingOrder (T s) = workingOrder s := by
  unfold workingOrder configuredOrder
  rw [b.params]
  simp only [b.int s (r := .inch) (by decide) (by decide), b.int s (r := .cfgorder) (by decide) (by decide), b.nat s (r := .nchl) (by decide) (by decide)]

theorem Blind.resolve (f) : resolveOrder f (T s) = T (resolveOrder f s) := by
  unfold resolveOrder
  rw [b.working, b.nat s (by decide) (by decide), b.setOrder]
  split <;> rfl
end

end Sys2Proof.Machine
end

