-- ==== Sys2Proof/Laws/Memory.lean ====
section
/-! SUPPORT. The laws of the memory: a read after a write, the frame of a write, and that every
operation keeps the canonical form. -/

namespace Sys2Proof.Machine

/-! ## Cells -/

theorem cellAt_setCell (cells : List Host.Cell) (a : Nat) (b : Byte) (x : Nat) :
    cellAt (setCell cells a b) x = if x = a then some b else cellAt cells x := by
  induction cells with
  | nil => simp [setCell, cellAt]
  | cons c rest ih =>
    obtain ⟨y, v⟩ := c
    unfold setCell
    split
    · simp [cellAt]
    · split
      · subst_vars
        simp only [cellAt]
        split <;> simp_all
      · simp only [cellAt, ih]
        split
        · have : x ≠ a := by omega
          simp [this]
        · rfl

theorem cellAt_dropCell (cells : List Host.Cell) (a x : Nat) :
    cellAt (dropCell cells a) x = if x = a then none else cellAt cells x := by
  induction cells with
  | nil => simp [dropCell, cellAt]
  | cons c rest ih =>
    obtain ⟨y, v⟩ := c
    have hd : dropCell ((y, v) :: rest) a = if y ≠ a then (y, v) :: dropCell rest a
        else dropCell rest a := by
      by_cases h : y = a <;> simp [dropCell, h]
    rw [hd]
    split
    · simp only [cellAt, ih]
      split
      · have : x ≠ a := by omega
        simp [this]
      · rfl
    · rw [ih]
      simp only [cellAt]
      have : y = a := by omega
      subst this
      split <;> simp_all

theorem mem_setCell {cells : List Host.Cell} {a : Nat} {b : Byte} {c : Host.Cell}
    (h : c ∈ setCell cells a b) : c = (a, b) ∨ c ∈ cells := by
  induction cells with
  | nil => simpa [setCell] using h
  | cons d rest ih =>
    unfold setCell at h
    split at h
    · simpa using h
    · split at h
      · simp only [List.mem_cons] at h ⊢
        tauto
      · rcases List.mem_cons.1 h with rfl | h
        · simp
        · rcases ih h with h | h <;> simp [h]

theorem pairwise_setCell {cells : List Host.Cell} (a : Nat) (b : Byte)
    (h : cells.Pairwise fun c d => c.1 < d.1) :
    (setCell cells a b).Pairwise fun c d => c.1 < d.1 := by
  induction cells with
  | nil => simp [setCell]
  | cons d rest ih =>
    obtain ⟨x, y⟩ := d
    obtain ⟨hd, hr⟩ := List.pairwise_cons.1 h
    unfold setCell
    split
    · rename_i hx
      refine List.pairwise_cons.2 ⟨?_, h⟩
      intro c hc
      rcases List.mem_cons.1 hc with rfl | hc
      · exact hx
      · exact lt_trans hx (hd c hc)
    · split
      · rename_i hx
        subst hx
        exact List.pairwise_cons.2 ⟨hd, hr⟩
      · refine List.pairwise_cons.2 ⟨?_, ih hr⟩
        intro c hc
        rcases mem_setCell hc with rfl | hc
        · show x < a
          omega
        · exact hd c hc

/-! ## Bytes -/

@[simp] theorem Memory.writeByte_seed (m : Memory) (a : Nat) (b : Byte) :
    (m.writeByte a b).seed = m.seed := rfl
@[simp] theorem Memory.writeByte_fstCleared (m : Memory) (a : Nat) (b : Byte) :
    (m.writeByte a b).fstCleared = m.fstCleared := rfl
@[simp] theorem Memory.writeByte_knownByte (m : Memory) (a : Nat) (b : Byte) (x : Nat) :
    (m.writeByte a b).knownByte x = m.knownByte x := rfl
@[simp] theorem Memory.writeByte_unlisted (m : Memory) (a : Nat) (b : Byte) (x : Nat) :
    (m.writeByte a b).unlisted x = m.unlisted x := rfl

/-- Reading a byte after a byte write: the written byte there, every other byte as before. -/
theorem Memory.readByte_writeByte (m : Memory) (a : Nat) (b : Byte) (x : Nat) :
    (m.writeByte a b).readByte x = if x = a then b else m.readByte x := by
  have hcells : (m.writeByte a b).cells =
      if m.knownByte a = some b then dropCell m.cells a else setCell m.cells a b := rfl
  unfold Memory.readByte
  rw [hcells, Memory.writeByte_unlisted]
  by_cases hk : m.knownByte a = some b
  · rw [if_pos hk, cellAt_dropCell]
    by_cases hx : x = a
    · subst hx
      simp [Memory.unlisted, hk]
    · simp [hx]
  · rw [if_neg hk, cellAt_setCell]
    by_cases hx : x = a <;> simp [hx]

@[simp] theorem Memory.readByte_writeByte_same (m : Memory) (a : Nat) (b : Byte) :
    (m.writeByte a b).readByte a = b := by simp [Memory.readByte_writeByte]

theorem Memory.readByte_writeByte_ne (m : Memory) {a x : Nat} (b : Byte) (h : x ≠ a) :
    (m.writeByte a b).readByte x = m.readByte x := by simp [Memory.readByte_writeByte, h]

/-- A byte write keeps the canonical form. -/
theorem Memory.writeByte_wf {m : Memory} (h : m.wf) (a : Nat) (b : Byte) : (m.writeByte a b).wf := by
  obtain ⟨hp, hk⟩ := h
  have hcells : (m.writeByte a b).cells =
      if m.knownByte a = some b then dropCell m.cells a else setCell m.cells a b := rfl
  refine ⟨?_, ?_⟩
  · rw [hcells]
    split
    · exact hp.filter _
    · exact pairwise_setCell a b hp
  · intro c hc
    rw [Memory.writeByte_knownByte]
    rw [hcells] at hc
    split at hc
    · exact hk c (List.mem_of_mem_filter hc)
    · rcases mem_setCell hc with rfl | hc
      · assumption
      · exact hk c hc

/-! ## Words -/

/-- The four bytes of a word, put together, are the word. -/
theorem word_of_bytes (v : Word) :
    v.extractLsb' 24 8 ++ (v.extractLsb' 16 8 ++ (v.extractLsb' 8 8 ++ v.extractLsb' 0 8 :
      BitVec 16) : BitVec 24) = v := by
  apply BitVec.eq_of_getLsbD_eq
  intro i hi
  simp only [BitVec.getLsbD_append, BitVec.getLsbD_extractLsb']
  have : i < 8 ∨ (8 ≤ i ∧ i < 16) ∨ (16 ≤ i ∧ i < 24) ∨ (24 ≤ i ∧ i < 32) := by omega
  rcases this with h | h | h | h
  · have h1 : i < 16 := by omega
    have h2 : i < 24 := by omega
    simp [h, h1, h2]
  · have h1 : ¬ i < 8 := by omega
    have h2 : i < 24 := by omega
    have h3 : i - 8 < 8 := by omega
    have h4 : 8 + (i - 8) = i := by omega
    simp [h.2, h1, h2, h3, h4]
  · have h1 : ¬ i < 16 := by omega
    have h2 : i - 16 < 8 := by omega
    have h3 : 16 + (i - 16) = i := by omega
    simp [h.2, h1, h2, h3]
  · have h1 : ¬ i < 24 := by omega
    have h2 : i - 24 < 8 := by omega
    have h3 : 24 + (i - 24) = i := by omega
    simp [h1, h2, h3]

/-- Reading a byte after a word write: the word's own four bytes apart, as before. -/
theorem Memory.readByte_writeWord_outside (m : Memory) (A : Nat) (v : Word) (x : Nat)
    (h : x / 4 ≠ A) : (m.writeWord A v).readByte x = m.readByte x := by
  unfold Memory.writeWord
  rw [Memory.readByte_writeByte_ne _ _ (by omega), Memory.readByte_writeByte_ne _ _ (by omega),
    Memory.readByte_writeByte_ne _ _ (by omega), Memory.readByte_writeByte_ne _ _ (by omega)]

/-- Reading the written word gives it back (20_memory.md R89). -/
theorem Memory.readWord_writeWord_same (m : Memory) (A : Nat) (v : Word) :
    (m.writeWord A v).readWord A = v := by
  have h : ∀ j, j < 4 → (m.writeWord A v).readByte (4 * A + j) = v.extractLsb' (8 * j) 8 := by
    intro j hj
    unfold Memory.writeWord
    simp only [Memory.readByte_writeByte]
    have : j = 0 ∨ j = 1 ∨ j = 2 ∨ j = 3 := by omega
    rcases this with rfl | rfl | rfl | rfl <;> simp
  have h0 := h 0 (by omega)
  rw [Nat.add_zero] at h0
  rw [Memory.readWord, h0, h 1 (by omega), h 2 (by omega), h 3 (by omega)]
  exact word_of_bytes v

/-- A word write leaves every other word alone. -/
theorem Memory.readWord_writeWord_ne (m : Memory) {A B : Nat} (v : Word) (h : B ≠ A) :
    (m.writeWord A v).readWord B = m.readWord B := by
  unfold Memory.readWord
  rw [Memory.readByte_writeWord_outside _ _ _ _ (by omega),
    Memory.readByte_writeWord_outside _ _ _ _ (by omega),
    Memory.readByte_writeWord_outside _ _ _ _ (by omega),
    Memory.readByte_writeWord_outside _ _ _ _ (by omega)]

/-- Reading a word after a word write. -/
theorem Memory.readWord_writeWord (m : Memory) (A B : Nat) (v : Word) :
    (m.writeWord A v).readWord B = if B = A then v else m.readWord B := by
  split
  · subst_vars
    exact Memory.readWord_writeWord_same m _ v
  · exact Memory.readWord_writeWord_ne m v ‹_›

/-- Two memories that agree on every byte of a word agree on the word. -/
theorem Memory.readWord_congr {m m' : Memory} {A : Nat}
    (h : ∀ x, x / 4 = A → m'.readByte x = m.readByte x) : m'.readWord A = m.readWord A := by
  unfold Memory.readWord
  rw [h (4 * A + 3) (by omega), h (4 * A + 2) (by omega), h (4 * A + 1) (by omega),
    h (4 * A) (by omega)]

/-- A word write keeps the canonical form. -/
theorem Memory.writeWord_wf {m : Memory} (h : m.wf) (A : Nat) (v : Word) : (m.writeWord A v).wf :=
  Memory.writeByte_wf (Memory.writeByte_wf (Memory.writeByte_wf (Memory.writeByte_wf h _ _) _ _) _ _)
    _ _

/-! ## Clearing (40_system.md R134) -/

/-- After `PREPARE`'s clearing, every byte of `BUF` and `FST` is 0 and every other byte as before. -/
theorem Memory.readByte_clearSignal (m : Memory) (x : Nat) :
    m.clearSignal.readByte x = if inBuf x || inFst x then 0#8 else m.readByte x := by
  have hcell : ∀ cells : List Host.Cell,
      cellAt (cells.filter fun c => !inBuf c.1 && !inFst c.1) x =
        if inBuf x || inFst x then none else cellAt cells x := by
    intro cells
    induction cells with
    | nil => simp [cellAt]
    | cons c rest ih =>
      obtain ⟨y, v⟩ := c
      by_cases hy : (!inBuf y && !inFst y) = true
      · rw [List.filter_cons_of_pos (by simpa using hy)]
        simp only [cellAt, ih]
        by_cases hx : x = y
        · subst hx
          have : (inBuf x || inFst x) = false := by
            cases hb : inBuf x <;> cases hf : inFst x <;> simp_all
          simp [this]
        · simp [hx]
      · rw [List.filter_cons_of_neg (by simpa using hy), ih]
        simp only [cellAt]
        by_cases hx : x = y
        · subst hx
          have : (inBuf x || inFst x) = true := by
            cases hb : inBuf x <;> cases hf : inFst x <;> simp_all
          simp [this]
        · simp [hx]
  have hc : m.clearSignal.cells = m.cells.filter fun c => !inBuf c.1 && !inFst c.1 := rfl
  unfold Memory.readByte
  rw [hc, hcell]
  by_cases h : (inBuf x || inFst x) = true
  · have hk : m.clearSignal.knownByte x = some 0#8 := by
      unfold Memory.knownByte
      rw [if_pos]
      simpa [Memory.clearSignal] using h
    simp [h, Memory.unlisted, hk]
  · have h' : (inBuf x || inFst x) = false := by simpa using h
    have hb : inBuf x = false := by cases hb : inBuf x <;> simp_all
    have hf : inFst x = false := by cases hf : inFst x <;> simp_all
    have hk : m.clearSignal.unlisted x = m.unlisted x := by
      simp [Memory.unlisted, Memory.knownByte, hb, hf, Memory.clearSignal]
    simp [hb, hf, hk]

/-- Clearing keeps the canonical form. -/
theorem Memory.clearSignal_wf {m : Memory} (h : m.wf) : m.clearSignal.wf := by
  obtain ⟨hp, hk⟩ := h
  refine ⟨hp.filter _, ?_⟩
  intro c hc
  have hc' : c ∈ m.cells.filter fun c => !inBuf c.1 && !inFst c.1 := hc
  obtain ⟨hmem, hout⟩ := List.mem_filter.1 hc'
  have hb : inBuf c.1 = false := by cases hb : inBuf c.1 <;> simp_all
  have hf : inFst c.1 = false := by cases hf : inFst c.1 <;> simp_all
  simp [Memory.knownByte, hb, hf]

/-- The memories after reset are in canonical form. -/
theorem Memory.powerOn_wf (seed : Nat) : (Memory.powerOn seed).wf := by
  simp [Memory.wf, Memory.powerOn]

end Sys2Proof.Machine
end

