-- ==== Sys2Proof/Laws/Frame.lean ====
section
/-! SUPPORT. How a change of memory is bounded by a set of words, where the elements lie, and the part
of the state that the datapath units leave alone. -/

namespace Sys2Proof.Machine

/-! ## A memory that differs only at some words -/

/-- `m'` comes from `m` by changes at words of `A` alone, in canonical form. -/
structure Memory.Touches (A : Nat → Prop) (m m' : Memory) : Prop where
  outside : ∀ a, ¬ A (a / 4) → m'.readByte a = m.readByte a
  wf : m.wf → m'.wf
  listed : ∀ cell ∈ m'.cells, A (cell.1 / 4) ∨ cell ∈ m.cells
  seed : m'.seed = m.seed
  fstCleared : m'.fstCleared = m.fstCleared

theorem Memory.Touches.refl (A : Nat → Prop) (m : Memory) : Memory.Touches A m m :=
  ⟨fun _ _ => rfl, id, fun _ h => .inr h, rfl, rfl⟩

theorem Memory.Touches.trans {A : Nat → Prop} {m m' m'' : Memory} (h : Memory.Touches A m m')
    (h' : Memory.Touches A m' m'') : Memory.Touches A m m'' where
  outside a ha := (h'.outside a ha).trans (h.outside a ha)
  wf hw := h'.wf (h.wf hw)
  listed cell hc := by
    rcases h'.listed cell hc with ha | hm
    · exact .inl ha
    · exact h.listed cell hm
  seed := h'.seed.trans h.seed
  fstCleared := h'.fstCleared.trans h.fstCleared

theorem Memory.Touches.mono {A B : Nat → Prop} {m m' : Memory} (h : Memory.Touches A m m')
    (hab : ∀ a, A a → B a) : Memory.Touches B m m' where
  outside a ha := h.outside a fun hA => ha (hab _ hA)
  wf := h.wf
  listed cell hc := (h.listed cell hc).imp_left (hab _)
  seed := h.seed
  fstCleared := h.fstCleared

/-- A word outside the set reads as before. -/
theorem Memory.Touches.readWord {A : Nat → Prop} {m m' : Memory} (h : Memory.Touches A m m') {B : Nat}
    (hb : ¬ A B) : m'.readWord B = m.readWord B :=
  Memory.readWord_congr fun x hx => h.outside x (by rwa [hx])

theorem Memory.mem_writeByte {m : Memory} {a : Nat} {b : Byte} {cell : Host.Cell}
    (h : cell ∈ (m.writeByte a b).cells) : cell.1 = a ∨ cell ∈ m.cells := by
  have hcells : (m.writeByte a b).cells =
      if m.knownByte a = some b then dropCell m.cells a else setCell m.cells a b := rfl
  rw [hcells] at h
  split at h
  · exact .inr (List.mem_of_mem_filter h)
  · rcases mem_setCell h with rfl | h
    · exact .inl rfl
    · exact .inr h

/-- A word write touches its word. -/
theorem Memory.touches_writeWord (m : Memory) (A : Nat) (v : Word) :
    Memory.Touches (· = A) m (m.writeWord A v) where
  outside a ha := Memory.readByte_writeWord_outside m A v a ha
  wf hw := Memory.writeWord_wf hw A v
  listed cell hc := by
    unfold Memory.writeWord at hc
    rcases Memory.mem_writeByte hc with h | hc
    · left; show _ / 4 = A; omega
    rcases Memory.mem_writeByte hc with h | hc
    · left; show _ / 4 = A; omega
    rcases Memory.mem_writeByte hc with h | hc
    · left; show _ / 4 = A; omega
    rcases Memory.mem_writeByte hc with h | hc
    · left; show _ / 4 = A; omega
    · exact .inr hc
  seed := rfl
  fstCleared := rfl

/-- A loop whose passes touch words of a set touches words of it. -/
theorem Memory.touches_forUpTo {A : Nat → Prop} {n : Nat} {body : Nat → State → State} {s : State}
    (pass : ∀ m t, m < n → Memory.Touches A t.mem (body m t).mem) :
    Memory.Touches A s.mem (forUpTo n body s).mem :=
  forUpTo_keeps (fun t => Memory.Touches A s.mem t.mem) (Memory.Touches.refl A _)
    fun m t hm ht => ht.trans (pass m t hm)

/-! ## Where the elements lie (20_memory.md R81) -/

theorem matAddr_inj {i j i' j' : Nat} (hj : j < 64) (hj' : j' < 64) :
    matAddr i j = matAddr i' j' ↔ i = i' ∧ j = j' := by
  unfold matAddr matBase; omega

theorem fstAddr_inj {c t c' t' : Nat} (ht : t < 4) (ht' : t' < 4) :
    fstAddr c t = fstAddr c' t' ↔ c = c' ∧ t = t' := by
  unfold fstAddr fstBase; omega

theorem cbAddr_inj {c n c' n' : Nat} (hn : n < 0x4000) (hn' : n' < 0x4000) :
    cbAddr c n = cbAddr c' n' ↔ c = c' ∧ n = n' := by
  unfold cbAddr cbBase; omega

theorem bufAddr_inj {c k c' k' : Nat} (hk : k < 0x100000) (hk' : k' < 0x100000) :
    bufAddr c k = bufAddr c' k' ↔ c = c' ∧ k = k' := by
  unfold bufAddr bufBase; omega

theorem cbAddr_lt_bufAddr {c n c' k : Nat} (hc : c < 64) (hn : n < 0x4000) :
    cbAddr c n < bufAddr c' k := by
  unfold cbAddr cbBase bufAddr bufBase; omega

theorem matAddr_lt_cbAddr {i j c n : Nat} (hi : i < 64) (hj : j < 64) : matAddr i j < cbAddr c n := by
  unfold matAddr matBase cbAddr cbBase; omega

theorem matAddr_lt_fstAddr {i j c t : Nat} (hi : i < 64) (hj : j < 64) : matAddr i j < fstAddr c t := by
  unfold matAddr matBase fstAddr fstBase; omega

theorem fstAddr_lt_cbAddr {c t c' n : Nat} (hc : c < 64) (ht : t < 4) : fstAddr c t < cbAddr c' n := by
  unfold fstAddr fstBase cbAddr cbBase; omega

theorem matAddr_lt_bufAddr {i j c k : Nat} (hi : i < 64) (hj : j < 64) :
    matAddr i j < bufAddr c k := by
  unfold matAddr matBase bufAddr bufBase; omega

theorem fstAddr_lt_bufAddr {c t c' k : Nat} (hc : c < 64) (ht : t < 4) :
    fstAddr c t < bufAddr c' k := by
  unfold fstAddr fstBase bufAddr bufBase; omega

/-! ## What the datapath units leave alone -/

/-- The state without its memory and cursors. -/
def State.skeleton (s : State) : State :=
  { s with wcur := Vector.replicate 64 0#32, mem := Memory.powerOn 0 }

@[simp] theorem State.skeleton_store (s : State) (A : Nat) (v : Word) :
    (s.store A v).skeleton = s.skeleton := by unfold State.skeleton; rfl
@[simp] theorem State.skeleton_setMat (s : State) (i j : Nat) (v : F32) :
    (s.setMat i j v).skeleton = s.skeleton := by unfold State.skeleton; rfl
@[simp] theorem State.skeleton_setFst (s : State) (c t : Nat) (v : F32) :
    (s.setFst c t v).skeleton = s.skeleton := by unfold State.skeleton; rfl
@[simp] theorem State.skeleton_setCb (s : State) (c n : Nat) (v : F32) :
    (s.setCb c n v).skeleton = s.skeleton := by unfold State.skeleton; rfl
@[simp] theorem State.skeleton_setBuf (s : State) (c k : Nat) (v : F32) :
    (s.setBuf c k v).skeleton = s.skeleton := by unfold State.skeleton; rfl
@[simp] theorem State.skeleton_setCursor (s : State) (c v : Nat) :
    (s.setCursor c v).skeleton = s.skeleton := by unfold State.skeleton; rfl

section
variable {s t : State} (h : t.skeleton = s.skeleton)
include h

theorem State.params_of_skeleton : t.params = s.params := congrArg (·.params) h
theorem State.ctrl_of_skeleton : t.ctrl = s.ctrl := congrArg (·.ctrl) h
theorem State.status_of_skeleton : t.status = s.status := congrArg (·.status) h
theorem State.regs_of_skeleton : t.regs = s.regs := congrArg (·.regs) h
theorem State.draw_of_skeleton : t.draw = s.draw := congrArg (·.draw) h
theorem State.pending_of_skeleton : t.pending = s.pending := congrArg (·.pending) h
theorem State.reply_of_skeleton : t.reply = s.reply := congrArg (·.reply) h
theorem State.reg_of_skeleton (r : Reg) : t.reg r = s.reg r := by
  unfold State.reg; rw [State.regs_of_skeleton h]
theorem State.nat_of_skeleton (r : Reg) : t.nat r = s.nat r := by
  unfold State.nat; rw [State.reg_of_skeleton h]

end

end Sys2Proof.Machine
end

