-- ==== Sys2Proof/Laws/Commands.lean ====
section
/-! SUPPORT. The checks every command shares, and how frames and the invariant pass through the small
updates that surround a unit's work. -/

namespace Sys2Proof.Machine

/-! ## The shared checks (30_encoding.md R112) -/

theorem runPrepared_of_prepared {s : State} (h : s.status.prepared = true) (w : Word)
    (run : State → State) : runPrepared w s run = .next (run s).complete := by simp [runPrepared, h]

theorem runPrepared_of_unprepared {s : State} (h : s.status.prepared = false) (w : Word)
    (run : State → State) : runPrepared w s run = .next (s.raise .notPrepared w) := by
  simp [runPrepared, h]

theorem runChannel_of_inside {s : State} (h : s.status.prepared = true) {ch : Nat}
    (hc : ch < s.nat .nchl) (w : Word) (run : State → State) :
    runChannel w ch s run = .next (run s).complete := by
  simp [runChannel, h, State.channelOutside, hc]

theorem runChannel_of_outside {s : State} (h : s.status.prepared = true) {ch : Nat}
    (hc : s.nat .nchl ≤ ch) (w : Word) (run : State → State) :
    runChannel w ch s run = .next (s.raise .channelOutOfRange w) := by
  simp [runChannel, h, State.channelOutside, hc]

theorem runChannel_of_unprepared {s : State} (h : s.status.prepared = false) (w : Word) (ch : Nat)
    (run : State → State) : runChannel w ch s run = .next (s.raise .notPrepared w) := by
  simp [runChannel, h]

/-! ## Frames -/

theorem KeepsBut.refl (rs : List Reg) (cs A : Nat → Prop) (s : State) : KeepsBut rs cs A s s :=
  ⟨rfl, rfl, fun _ _ => rfl, fun _ _ => rfl, fun _ _ => rfl, rfl, rfl, rfl⟩

theorem KeepsBut.trans {rs : List Reg} {cs A : Nat → Prop} {s t u : State}
    (h : KeepsBut rs cs A s t) (h' : KeepsBut rs cs A t u) : KeepsBut rs cs A s u where
  params := h'.params.trans h.params
  ctrl := h'.ctrl.trans h.ctrl
  reg r hr := (h'.reg r hr).trans (h.reg r hr)
  cursor c hc := (h'.cursor c hc).trans (h.cursor c hc)
  byte a ha := (h'.byte a ha).trans (h.byte a ha)
  draw := h'.draw.trans h.draw
  pending := h'.pending.trans h.pending
  reply := h'.reply.trans h.reply

theorem KeepsBut.mono {rs rs' : List Reg} {cs cs' A A' : Nat → Prop} {s t : State}
    (h : KeepsBut rs cs A s t) (hr : ∀ r, r ∈ rs → r ∈ rs') (hc : ∀ c, cs c → cs' c)
    (hA : ∀ a, A a → A' a) : KeepsBut rs' cs' A' s t :=
  ⟨h.params, h.ctrl, fun r hr' => h.reg r fun hm => hr' (hr r hm),
    fun c hc' => h.cursor c fun hm => hc' (hc c hm),
    fun a ha' => h.byte a fun hm => ha' (hA _ hm), h.draw, h.pending, h.reply⟩

/-- The frame of a datapath unit. -/
theorem KeepsBut.of_unit {cs A : Nat → Prop} {s t : State} (hs : t.skeleton = s.skeleton)
    (hm : Memory.Touches A s.mem t.mem) (hc : ∀ c, ¬ cs c → t.cursor c = s.cursor c) :
    KeepsBut [] cs A s t :=
  ⟨State.params_of_skeleton hs, State.ctrl_of_skeleton hs, fun r _ => State.reg_of_skeleton hs r, hc,
    hm.outside, State.draw_of_skeleton hs, State.pending_of_skeleton hs, State.reply_of_skeleton hs⟩

/-- A register write adds its register to the frame. -/
theorem KeepsBut.setReg {rs : List Reg} {cs A : Nat → Prop} {s t : State} (h : KeepsBut rs cs A s t)
    (r : Reg) (v : Word) : KeepsBut (r :: rs) cs A s (t.setReg r v) where
  params := h.params
  ctrl := h.ctrl
  reg r' hr := by
    simp only [List.mem_cons, not_or] at hr
    rw [State.reg_setReg_ne _ hr.1]
    exact h.reg r' hr.2
  cursor := h.cursor
  byte := h.byte
  draw := h.draw
  pending := h.pending
  reply := h.reply

/-- Completion adds `CMDCNT` to the frame. -/
theorem KeepsBut.complete {rs : List Reg} {cs A : Nat → Prop} {s t : State} (h : KeepsBut rs cs A s t) :
    KeepsBut (.cmdcnt :: rs) cs A s t.complete := h.setReg _ _

theorem KeepsBut.setMatOk {rs : List Reg} {cs A : Nat → Prop} {s t : State} (h : KeepsBut rs cs A s t)
    (b : Bool) : KeepsBut rs cs A s (t.setMatOk b) :=
  ⟨h.params, h.ctrl, h.reg, h.cursor, h.byte, h.draw, h.pending, h.reply⟩

/-- A fault entry as the statements describe it (60_exceptions.md R237). -/
theorem faultEntry_raise (s : State) (k : Cause) (w : Word) :
    FaultEntry k.code w s.status.prepared s (s.raise k w) where
  err := State.raise_err s k w
  first h := by
    rw [State.raise_of_noErr s k w h]
    exact ⟨rfl, State.reg_setReg_same _ _ _⟩
  kept h := by
    rw [State.raise_of_err s k w h]
    exact ⟨rfl, rfl⟩
  prepared := State.raise_prepared s k w
  matOk := State.raise_matOk s k w
  rest :=
    ⟨State.raise_params s k w, State.raise_ctrl s k w,
      fun r hr => State.reg_raise s k w r (by simpa using hr), fun c _ => State.cursor_raise s k w c,
      fun a _ => by rw [State.raise_mem], State.raise_draw s k w, State.raise_pending s k w,
      State.raise_reply s k w⟩

/-! ## The invariant -/

/-- The registers that `StateInv` speaks of. -/
def invRegs : List Reg :=
  [.errinfo, .dmaxl, .nchl, .blkl, .len, .lfomaxl, .nsamp, .order, .n, .fs]

/-- The invariant depends on the parameters, the memory's form, the flags but `MAT_OK`, the registers of
`invRegs`, and the cursors staying below `LEN`. -/
theorem StateInv.transport {s t : State} (h : StateInv s) (hp : t.params = s.params) (hm : t.mem.wf)
    (hprep : t.status.prepared = s.status.prepared) (herr : t.status.err = s.status.err)
    (hcode : t.status.errCode = s.status.errCode) (hreg : ∀ r, r ∈ invRegs → t.reg r = s.reg r)
    (hcur : s.status.prepared = true → ∀ c, c < 64 → t.cursor c < s.nat .len) : StateInv t := by
  have hn : ∀ r, r ∈ invRegs → t.nat r = s.nat r := fun r hr => by
    unfold State.nat
    rw [hreg r hr]
  refine ⟨by rw [hp]; exact h.params_ok, hm, ⟨?_, ?_⟩, ?_⟩
  · rw [herr, hcode, hreg _ (by simp [invRegs])]
    exact h.record.clear
  · rw [herr, hcode]
    exact h.record.coded
  · intro hpr
    rw [hprep] at hpr
    have z := h.sizes hpr
    have e := fun r hr => hn r hr
    have efs : t.f32 .fs = s.f32 .fs := hreg _ (by simp [invRegs])
    have e1 := e .dmaxl (by simp [invRegs])
    have e2 := e .nchl (by simp [invRegs])
    have e3 := e .blkl (by simp [invRegs])
    have e4 := e .len (by simp [invRegs])
    have e5 := e .lfomaxl (by simp [invRegs])
    have e6 := e .nsamp (by simp [invRegs])
    have e7 := e .order (by simp [invRegs])
    have e8 := e .n (by simp [invRegs])
    constructor <;> simp only [e1, e2, e3, e4, e5, e6, e7, e8, efs, hp]
    · exact z.dmaxl_pos
    · exact z.nchl_pos
    · exact z.nchl_le
    · exact z.blkl_pos
    · exact z.blkl_le
    · exact z.len_eq
    · exact z.len_le
    · exact hcur hpr
    · exact z.nsamp_pos
    · exact z.nsamp_le
    · exact z.order_le
    · exact z.n_eq
    · exact z.n_le
    · exact z.fs_finite
    · exact z.fs_ge

/-- The bounds of the implementation (00_scope.md R8). -/
theorem StateInv.params_le {s : State} (h : StateInv s) :
    s.params.nchMax ≤ 64 ∧ 1 ≤ s.params.nchMax ∧ s.params.bmax ≤ 0x4000 ∧ s.params.lmax ≤ 0x100000 := by
  have hp := h.params_ok
  simp only [Params.wellFormed, Params.squares, Bool.and_eq_true, decide_eq_true_eq,
    List.contains_iff_mem, List.mem_cons, List.not_mem_nil, or_false] at hp
  omega

/-- The block bounds that the laws of the units ask for. -/
theorem StateInv.block_le {s : State} (h : StateInv s) (hp : s.status.prepared = true) :
    1 ≤ s.nat .n ∧ s.nat .n ≤ s.nat .nchl ∧ s.nat .nchl ≤ 64 ∧ s.nat .nsamp ≤ 0x4000 := by
  have z := h.sizes hp
  have := h.params_le
  have h1 := z.n_eq
  have h2 := z.n_le
  have h3 := z.nchl_le
  have h4 := z.nsamp_le
  have h5 := z.blkl_le
  have h6 : 1 ≤ (s.nat .order + 1) * (s.nat .order + 1) := Nat.mul_pos (Nat.succ_pos _) (Nat.succ_pos _)
  omega

/-- A cursor beyond the file reads 0. -/
theorem State.cursor_of_ge (s : State) {c : Nat} (h : 64 ≤ c) : s.cursor c = 0 := by
  unfold State.cursor
  rw [Vector.getElem?_eq_none (by simpa using h)]
  rfl

end Sys2Proof.Machine
end

