-- ==== Sys2Proof/Laws/Float.lean ====
section
/-! SUPPORT. The laws of the binary32 layer (00_scope.md R16, R19, R23): magnitudes in units, rounding,
comparison, Clamp, F32ofInt and Floor. -/

namespace Sys2Proof.Machine

/-! ## Magnitudes in units of 2^-149 -/

/-- A significand `q` at exponent `e` packs into the pattern `e · 2^23 + q`. -/
theorem magUnits_pack {e q : Nat} (h : (e = 0 ∧ q ≤ 2 ^ 24) ∨ (2 ^ 23 ≤ q ∧ q ≤ 2 ^ 24)) :
    magUnits (e * 2 ^ 23 + q) = q * 2 ^ e := by
  unfold magUnits
  by_cases hq : q < 2 ^ 23
  · obtain ⟨rfl, -⟩ : e = 0 ∧ q ≤ 2 ^ 24 := by omega
    rw [if_pos (by omega)]
    simp
  · by_cases hq' : q = 2 ^ 24
    · subst hq'
      have h1 : (e * 2 ^ 23 + 2 ^ 24) / 2 ^ 23 = e + 2 := by omega
      have h2 : (e * 2 ^ 23 + 2 ^ 24) % 2 ^ 23 = 0 := by omega
      rw [h1, h2, if_neg (by omega), show e + 2 - 1 = e + 1 by omega, pow_succ]
      ring
    · have h1 : (e * 2 ^ 23 + q) / 2 ^ 23 = e + 1 := by omega
      have h2 : (e * 2 ^ 23 + q) % 2 ^ 23 = q - 2 ^ 23 := by omega
      rw [h1, h2, if_neg (by omega), show e + 1 - 1 = e by omega, Nat.add_sub_cancel' (by omega)]

/-- The significand and exponent of a pattern. -/
theorem magUnits_parts (mag : Nat) : ∃ e q, mag = e * 2 ^ 23 + q ∧ q < 2 ^ 24 ∧ (e = 0 ∨ 2 ^ 23 ≤ q) ∧
    magUnits mag = q * 2 ^ e := by
  by_cases h : mag < 2 ^ 24
  · exact ⟨0, mag, by simp, h, .inl rfl, by
      have := magUnits_pack (e := 0) (q := mag) (.inl ⟨rfl, h.le⟩)
      simpa using this⟩
  · refine ⟨mag / 2 ^ 23 - 1, 2 ^ 23 + mag % 2 ^ 23, by omega, by omega, .inr (by omega), ?_⟩
    have := magUnits_pack (e := mag / 2 ^ 23 - 1) (q := 2 ^ 23 + mag % 2 ^ 23)
      (.inr ⟨by omega, by omega⟩)
    rwa [show (mag / 2 ^ 23 - 1) * 2 ^ 23 + (2 ^ 23 + mag % 2 ^ 23) = mag by omega] at this

/-- The next pattern is one unit in the last place further. -/
theorem magUnits_succ_pack {e q : Nat} (hq : q < 2 ^ 24) (h : e = 0 ∨ 2 ^ 23 ≤ q) :
    magUnits (e * 2 ^ 23 + q + 1) = (q + 1) * 2 ^ e := by
  have := magUnits_pack (e := e) (q := q + 1) (by omega)
  rwa [← Nat.add_assoc] at this

/-- Patterns order as their magnitudes do. -/
theorem magUnits_strictMono : StrictMono magUnits := by
  refine strictMono_nat_of_lt_succ fun mag => ?_
  obtain ⟨e, q, rfl, hq, h, hu⟩ := magUnits_parts mag
  rw [hu, magUnits_succ_pack hq h]
  exact Nat.mul_lt_mul_of_pos_right (Nat.lt_succ_self q) (by positivity)

theorem magUnits_le_iff {m m' : Nat} : magUnits m ≤ magUnits m' ↔ m ≤ m' :=
  magUnits_strictMono.le_iff_le

theorem magUnits_lt_iff {m m' : Nat} : magUnits m < magUnits m' ↔ m < m' :=
  magUnits_strictMono.lt_iff_lt

@[simp] theorem magUnits_zero : magUnits 0 = 0 := by decide

/-! ## Rounding -/

/-- The parts `roundUnits` cuts `num / den` into: the exponent `e`, the significand `q` and the
remainder `r` below one unit in the last place. -/
theorem roundUnits_parts (num : Nat) {den : Nat} (hd : 0 < den) :
    ∃ e q r, num = q * (den * 2 ^ e) + r ∧ r < den * 2 ^ e ∧ q < 2 ^ 24 ∧ (e = 0 ∨ 2 ^ 23 ≤ q) ∧
      roundUnits num den =
        min (e * 2 ^ 23 + (if den * 2 ^ e < 2 * r ∨ (2 * r = den * 2 ^ e ∧ q % 2 = 1) then q + 1 else q))
          infMag := by
  set e := Nat.log2 (num / den) - 23 with he
  have hpos : 0 < den * 2 ^ e := by positivity
  have hqq : num / (den * 2 ^ e) = num / den / 2 ^ e := (Nat.div_div_eq_div_mul _ _ _).symm
  have hlow : num / den < 2 ^ (Nat.log2 (num / den) + 1) := Nat.lt_log2_self
  refine ⟨e, num / (den * 2 ^ e), num % (den * 2 ^ e), ?_, Nat.mod_lt _ hpos, ?_, ?_, rfl⟩
  · rw [Nat.mul_comm]
    exact (Nat.div_add_mod num (den * 2 ^ e)).symm
  · rw [hqq, Nat.div_lt_iff_lt_mul (by positivity), ← pow_add]
    exact lt_of_lt_of_le hlow (Nat.pow_le_pow_right (by norm_num) (by omega))
  · by_cases h0 : e = 0
    · exact .inl h0
    · right
      have hne : num / den ≠ 0 := by
        intro h
        rw [h] at he
        have : Nat.log2 0 = 0 := by decide
        omega
      rw [hqq, Nat.le_div_iff_mul_le (by positivity), ← pow_add]
      calc 2 ^ (23 + e) ≤ 2 ^ Nat.log2 (num / den) := Nat.pow_le_pow_right (by norm_num) (by omega)
        _ ≤ num / den := Nat.log2_self_le hne

theorem roundUnits_le_inf (num den : Nat) : roundUnits num den ≤ infMag := Nat.min_le_right _ _

/-- A number at least a representable one rounds to at least it. -/
theorem le_roundUnits {num den mag : Nat} (hd : 0 < den) (hm : mag ≤ infMag)
    (h : magUnits mag * den ≤ num) : mag ≤ roundUnits num den := by
  obtain ⟨e, q, r, hnum, hr, hq, hs, hround⟩ := roundUnits_parts num hd
  rw [hround]
  refine le_min ?_ hm
  have key : mag ≤ e * 2 ^ 23 + q := by
    by_contra hc
    have h1 : magUnits (e * 2 ^ 23 + q + 1) ≤ magUnits mag := magUnits_le_iff.2 (by omega)
    rw [magUnits_succ_pack hq hs] at h1
    have h2 := Nat.mul_le_mul_right den h1
    have h3 : (q + 1) * 2 ^ e * den = q * (den * 2 ^ e) + den * 2 ^ e := by ring
    omega
  split <;> omega

/-- A number at most a representable one rounds to at most it. -/
theorem roundUnits_le {num den mag : Nat} (hd : 0 < den) (h : num ≤ magUnits mag * den) :
    roundUnits num den ≤ mag := by
  obtain ⟨e, q, r, hnum, hr, hq, hs, hround⟩ := roundUnits_parts num hd
  rw [hround]
  refine le_trans (Nat.min_le_left _ _) ?_
  have hu : magUnits (e * 2 ^ 23 + q) = q * 2 ^ e := magUnits_pack (by omega)
  have h3 : q * 2 ^ e * den = q * (den * 2 ^ e) := by ring
  have key : e * 2 ^ 23 + q ≤ mag := by
    rw [← magUnits_le_iff, hu]
    by_contra hc
    have := Nat.mul_lt_mul_of_pos_right (Nat.lt_of_not_le hc) hd
    omega
  split
  · rename_i hup
    have hrpos : 0 < r := by
      rcases hup with hup | hup
      · omega
      · have : 0 < den * 2 ^ e := by positivity
        omega
    by_contra hc
    have : mag = e * 2 ^ 23 + q := by omega
    subst this
    rw [hu] at h
    omega
  · exact key

/-- A representable number rounds to itself. -/
theorem roundUnits_exact {den mag : Nat} (hd : 0 < den) (hm : mag ≤ infMag) :
    roundUnits (magUnits mag * den) den = mag :=
  le_antisymm (roundUnits_le hd le_rfl) (le_roundUnits hd hm le_rfl)

@[simp] theorem roundUnits_zero {den : Nat} (hd : 0 < den) : roundUnits 0 den = 0 := by
  have := roundUnits_exact (den := den) (mag := 0) hd (by decide)
  simpa using this

/-- Rounding is monotone. -/
theorem roundUnits_mono {num num' den den' : Nat} (hd : 0 < den) (hd' : 0 < den')
    (h : num * den' ≤ num' * den) : roundUnits num den ≤ roundUnits num' den' := by
  obtain ⟨e, q, r, hnum, hr, hq, hs, hround⟩ := roundUnits_parts num hd
  obtain ⟨e', q', r', hnum', hr', hq', hs', hround'⟩ := roundUnits_parts num' hd'
  have hu : magUnits (e * 2 ^ 23 + q) = q * 2 ^ e := magUnits_pack (by omega)
  have hu' : magUnits (e' * 2 ^ 23 + q') = q' * 2 ^ e' := magUnits_pack (by omega)
  have hle : e * 2 ^ 23 + q ≤ e' * 2 ^ 23 + q' := by
    by_contra hc
    have h1 : magUnits (e' * 2 ^ 23 + q' + 1) ≤ magUnits (e * 2 ^ 23 + q) :=
      magUnits_le_iff.2 (by omega)
    rw [magUnits_succ_pack hq' hs', hu] at h1
    -- (q'+1) 2^e' ≤ q 2^e, but num/den ≥ q 2^e and num'/den' < (q'+1) 2^e'
    have h2 : q * 2 ^ e * den ≤ num := by
      have : q * 2 ^ e * den = q * (den * 2 ^ e) := by ring
      omega
    have h3 : num' < (q' + 1) * 2 ^ e' * den' := by
      have : (q' + 1) * 2 ^ e' * den' = q' * (den' * 2 ^ e') + den' * 2 ^ e' := by ring
      omega
    have h4 : q * 2 ^ e * den * den' ≤ num * den' := Nat.mul_le_mul_right _ h2
    have h5 : num' * den < (q' + 1) * 2 ^ e' * den' * den := Nat.mul_lt_mul_of_pos_right h3 hd
    have h6 : (q' + 1) * 2 ^ e' * den' * den ≤ q * 2 ^ e * den * den' := by
      calc (q' + 1) * 2 ^ e' * den' * den ≤ q * 2 ^ e * den' * den :=
            Nat.mul_le_mul_right _ (Nat.mul_le_mul_right _ h1)
        _ = q * 2 ^ e * den * den' := by ring
    omega
  rw [hround, hround']
  refine min_le_min_right _ ?_
  by_cases hlt : e * 2 ^ 23 + q < e' * 2 ^ 23 + q'
  · split <;> split <;> omega
  · have heq : e * 2 ^ 23 + q = e' * 2 ^ 23 + q' := by omega
    have hue : q * 2 ^ e = q' * 2 ^ e' := by rw [← hu, ← hu', heq]
    have hee : e = e' ∧ q = q' := by omega
    obtain ⟨rfl, rfl⟩ := hee
    -- same binade and significand: compare the remainders
    have hrr : r * den' ≤ r' * den := by
      rw [hnum, hnum'] at h
      have e1 : (q * (den * 2 ^ e) + r) * den' = q * 2 ^ e * den * den' + r * den' := by ring
      have e2 : (q * (den' * 2 ^ e) + r') * den = q * 2 ^ e * den * den' + r' * den := by ring
      omega
    split
    · rename_i hup
      rw [if_pos]
      have hscale : den * 2 ^ e * den' = den' * 2 ^ e * den := by ring
      rcases hup with hup | ⟨hup, hodd⟩
      · left
        by_contra hc
        have h1 : 2 * r' * den ≤ den' * 2 ^ e * den := Nat.mul_le_mul_right _ (Nat.le_of_not_lt hc)
        have h2 : den * 2 ^ e * den' < 2 * r * den' := Nat.mul_lt_mul_of_pos_right hup hd'
        have h3 : 2 * r * den' = 2 * (r * den') := by ring
        have h4 : 2 * r' * den = 2 * (r' * den) := by ring
        omega
      · by_cases hc : den' * 2 ^ e < 2 * r'
        · exact .inl hc
        · refine .inr ⟨?_, hodd⟩
          have h1 : 2 * r' * den ≤ den' * 2 ^ e * den := Nat.mul_le_mul_right _ (Nat.le_of_not_lt hc)
          have h2 : 2 * r * den' = den * 2 ^ e * den' := by rw [hup]
          have h3 : 2 * r * den' = 2 * (r * den') := by ring
          have h4 : 2 * r' * den = 2 * (r' * den) := by ring
          exact Nat.eq_of_mul_eq_mul_right hd (by omega)
    · split <;> omega

/-! ## Patterns -/

theorem fMag_lt (x : F32) : fMag x < 2 ^ 31 := Nat.mod_lt _ (by norm_num)

/-- A pattern is its sign and magnitude. -/
theorem toNat_eq_sign_mag (x : F32) : x.toNat = (if fSign x then 2 ^ 31 else 0) + fMag x := by
  have hlt : x.toNat < 2 ^ 32 := x.isLt
  unfold fMag fSign
  rw [BitVec.msb_eq_decide]
  by_cases h : 2 ^ 31 ≤ x.toNat
  · simp only [Nat.add_one_sub_one, h, decide_true, if_true]
    omega
  · simp only [Nat.add_one_sub_one, h, decide_false]
    simp
    omega

/-- Two patterns with one sign and magnitude are one. -/
theorem eq_of_sign_mag {x y : F32} (hs : fSign x = fSign y) (hm : fMag x = fMag y) : x = y := by
  apply BitVec.eq_of_toNat_eq
  rw [toNat_eq_sign_mag x, toNat_eq_sign_mag y, hs, hm]

@[simp] theorem fMag_packF32 (neg : Bool) {mag : Nat} (h : mag < 2 ^ 31) : fMag (packF32 neg mag) = mag := by
  unfold fMag packF32
  rw [BitVec.toNat_ofNat]
  cases neg <;> simp <;> omega

@[simp] theorem fSign_packF32 (neg : Bool) {mag : Nat} (h : mag < 2 ^ 31) :
    fSign (packF32 neg mag) = neg := by
  unfold fSign packF32
  rw [BitVec.msb_eq_decide, BitVec.toNat_ofNat]
  cases neg <;> simp <;> omega

theorem roundUnits_lt_sign (num den : Nat) : roundUnits num den < 2 ^ 31 :=
  lt_of_le_of_lt (roundUnits_le_inf num den) (by decide)

/-! ## Comparison (00_scope.md R23) -/

/-- Two finite numbers order as their exact values do. -/
theorem fInt_le_iff_fKey (x y : F32) : fInt x ≤ fInt y ↔ fKey x ≤ fKey y := by
  have hx : ∀ z : F32, (fUnits z = 0 ↔ fMag z = 0) := by
    intro z
    constructor
    · intro h
      have := magUnits_lt_iff (m := 0) (m' := fMag z)
      rw [magUnits_zero] at this
      unfold fUnits at h
      omega
    · intro h
      simp [fUnits, h]
  have hle : ∀ a b : F32, fUnits a ≤ fUnits b ↔ fMag a ≤ fMag b := fun a b => magUnits_le_iff
  have h1 := hx x
  have h2 := hx y
  have h3 := hle x y
  have h4 := hle y x
  unfold fInt fKey
  cases fSign x <;> cases fSign y <;> simp only [Bool.false_eq_true, if_true, if_false] <;> omega

/-- The comparison `x >= y` of two numbers is the comparison of their exact values. -/
theorem fge_iff {x y : F32} : fge x y = true ↔
    fIsNaN x = false ∧ fIsNaN y = false ∧ fInt y ≤ fInt x := by
  unfold fge
  rw [fInt_le_iff_fKey]
  cases fIsNaN x <;> cases fIsNaN y <;> simp

/-- The comparison `x > y` of two numbers is the comparison of their exact values. -/
theorem fgt_iff {x y : F32} : fgt x y = true ↔
    fIsNaN x = false ∧ fIsNaN y = false ∧ fInt y < fInt x := by
  unfold fgt
  have := fInt_le_iff_fKey x y
  cases fIsNaN x <;> cases fIsNaN y <;> simp
  omega

/-- What `Clamp` can answer (00_scope.md R23): a number between its bounds, whatever `x` is. -/
theorem fclamp_spec {lo hi : F32} (x : F32) (h : fge hi lo = true) :
    fIsNaN (fclamp x lo hi) = false ∧ fInt lo ≤ fInt (fclamp x lo hi) ∧
      fInt (fclamp x lo hi) ≤ fInt hi := by
  obtain ⟨hh, hl, hle⟩ := fge_iff.1 h
  unfold fclamp
  by_cases h1 : fge x lo = true
  · obtain ⟨hx, -, hxlo⟩ := fge_iff.1 h1
    simp only [h1, Bool.not_true, Bool.false_eq_true, if_false]
    by_cases h2 : fgt x hi = true
    · simp [h2, hh, hle]
    · simp only [h2, Bool.false_eq_true, if_false]
      refine ⟨hx, hxlo, ?_⟩
      by_contra hc
      exact h2 (fgt_iff.2 ⟨hx, hh, by omega⟩)
  · simp [h1, hl, hle]

/-- A number already between the bounds is unchanged. -/
theorem fclamp_of_mem {x lo hi : F32} (hlo : fge x lo = true) (hhi : fgt x hi = false) :
    fclamp x lo hi = x := by simp [fclamp, hlo, hhi]

/-- `Clamp` sends a NaN to the lower bound. -/
theorem fclamp_nan {x : F32} (lo hi : F32) (h : fIsNaN x = true) : fclamp x lo hi = lo := by
  simp [fclamp, fge, h]

/-! ## Integers and Floor (00_scope.md R16) -/

/-- `F32ofInt` is exact up to 2^24. -/
theorem magUnits_ofInt {n : Nat} (h : n ≤ 2 ^ 24) :
    ∃ mag, mag < infMag ∧ magUnits mag = n * 2 ^ 149 := by
  rcases Nat.eq_zero_or_pos n with rfl | hpos
  · exact ⟨0, by decide, by simp⟩
  · set k := Nat.log2 n with hk
    have hlo : 2 ^ k ≤ n := Nat.log2_self_le (by omega)
    have hhi : n < 2 ^ (k + 1) := Nat.lt_log2_self
    have hk24 : k ≤ 24 := by
      by_contra hc
      have : 2 ^ 25 ≤ 2 ^ k := Nat.pow_le_pow_right (by norm_num) (by omega)
      omega
    rcases Nat.lt_or_ge k 24 with hk' | hk'
    · refine ⟨(126 + k) * 2 ^ 23 + n * 2 ^ (23 - k), ?_, ?_⟩
      · have : n * 2 ^ (23 - k) < 2 ^ 24 := by
          calc n * 2 ^ (23 - k) < 2 ^ (k + 1) * 2 ^ (23 - k) :=
                Nat.mul_lt_mul_of_pos_right hhi (by positivity)
            _ = 2 ^ 24 := by rw [← pow_add]; congr 1; omega
        unfold infMag
        omega
      · rw [magUnits_pack]
        · rw [Nat.mul_assoc, ← pow_add]
          congr 2
          omega
        · right
          constructor
          · calc 2 ^ 23 = 2 ^ k * 2 ^ (23 - k) := by rw [← pow_add]; congr 1; omega
              _ ≤ _ := Nat.mul_le_mul_right _ hlo
          · calc n * 2 ^ (23 - k) ≤ 2 ^ (k + 1) * 2 ^ (23 - k) := Nat.mul_le_mul_right _ hhi.le
              _ = 2 ^ 24 := by rw [← pow_add]; congr 1; omega
    · have hk24' : k = 24 := by omega
      have hn : n = 2 ^ 24 := by
        rw [hk24'] at hlo
        omega
      subst hn
      refine ⟨150 * 2 ^ 23 + 2 ^ 23, by decide, ?_⟩
      rw [magUnits_pack (.inr ⟨le_rfl, by norm_num⟩)]
      norm_num

/-- The pattern of a small natural number: positive, finite, and exactly the number. -/
theorem f32OfInt_spec {n : Nat} (h : n ≤ 2 ^ 24) :
    fSign (f32OfInt n) = false ∧ fMag (f32OfInt n) < infMag ∧ fInt (f32OfInt n) = n * 2 ^ 149 := by
  obtain ⟨mag, hm, hu⟩ := magUnits_ofInt h
  have hround : roundUnits (n * 2 ^ 149) 1 = mag := by
    rw [← hu]
    have := roundUnits_exact (den := 1) (mag := mag) (by norm_num) hm.le
    simpa using this
  have hpack : f32OfInt n = packF32 false mag := by
    unfold f32OfInt
    rw [Int.natAbs_natCast, hround, decide_eq_false (by omega)]
  have hlt : mag < 2 ^ 31 := lt_trans hm (by decide)
  have hs : fSign (f32OfInt n) = false := by rw [hpack, fSign_packF32 _ hlt]
  have hmag : fMag (f32OfInt n) = mag := by rw [hpack, fMag_packF32 _ hlt]
  refine ⟨hs, by rw [hmag]; exact hm, ?_⟩
  unfold fInt fUnits
  rw [hs, hmag, hu]
  simp

theorem f32OfInt_not_nan {n : Nat} (h : n ≤ 2 ^ 24) : fIsNaN (f32OfInt n) = false := by
  have := (f32OfInt_spec h).2.1
  unfold fIsNaN
  simpa using this.le

/-- The floor of a number between two integers lies between them. -/
theorem fFloor_bounds {x : F32} {lo hi : Int} (h1 : lo * 2 ^ 149 ≤ fInt x) (h2 : fInt x ≤ hi * 2 ^ 149) :
    lo ≤ fFloor x ∧ fFloor x ≤ hi := by
  unfold fFloor
  constructor
  · exact Int.le_ediv_of_mul_le (by norm_num) h1
  · calc fInt x / 2 ^ 149 ≤ hi * 2 ^ 149 / 2 ^ 149 := Int.ediv_le_ediv (by norm_num) h2
      _ = hi := Int.mul_ediv_cancel _ (by norm_num)

theorem fInt_two32 : fInt two32 = 2 * 2 ^ 149 := by decide

end Sys2Proof.Machine
end

