-- ==== Sys2Proof/Laws/DelayLine.lean ====
section
/-! SUPPORT. What the delay-line unit does: where the taps lie, what a push and a block run leave, and
the output of a block as the interpolation of the channel's history. -/

namespace Sys2Proof.Machine

/-- What the laws of the delay line need of a state: the facts of `SizesOk` about the buffer. -/
structure BufferOk (s : State) : Prop where
  dmaxl_pos : 1 ≤ s.nat .dmaxl
  len_eq : s.nat .len = s.nat .dmaxl + s.nat .lfomaxl + 4
  len_le : s.nat .len ≤ 0x100000
  cursor_lt : ∀ c, c < 64 → s.cursor c < s.nat .len

theorem BufferOk.len_pos {s : State} (h : BufferOk s) : 0 < s.nat .len := by
  have := h.len_eq; omega

/-- The buffer facts hold in every prepared state with the invariant. -/
theorem StateInv.bufferOk {s : State} (h : StateInv s) (hp : s.status.prepared = true) : BufferOk s := by
  have z := h.sizes hp
  have hl : s.params.lmax ≤ 1048576 := by
    have := h.params_ok
    simp only [Params.wellFormed, Bool.and_eq_true, decide_eq_true_eq] at this
    omega
  exact ⟨z.dmaxl_pos, z.len_eq, z.len_le.trans hl, z.cursor_lt⟩

/-! ## The clamp and the taps (41_delay_line.md R152, R154) -/

/-- The bound of the delay is an exact integer. -/
theorem fInt_dHiTot {s : State} (h : s.nat .dmaxl + s.nat .lfomaxl ≤ 2 ^ 20) :
    fInt (dHiTot s) = (max 2 (s.nat .dmaxl + s.nat .lfomaxl) : Nat) * 2 ^ 149 :=
  (f32OfInt_spec (show max 2 (s.nat .dmaxl + s.nat .lfomaxl) ≤ 2 ^ 24 by omega)).2.2

theorem dHiTot_ge {s : State} (h : s.nat .dmaxl + s.nat .lfomaxl ≤ 2 ^ 20) :
    fge (dHiTot s) two32 = true := by
  refine fge_iff.2 ⟨f32OfInt_not_nan (by omega), by decide, ?_⟩
  rw [fInt_dHiTot h, fInt_two32]
  have : (2 : Int) ≤ (max 2 (s.nat .dmaxl + s.nat .lfomaxl) : Nat) := by omega
  exact Int.mul_le_mul_of_nonneg_right this (by positivity)

/-- The integer part of a clamped delay lies between 2 and the bound of the delay. -/
theorem clampDelay_floor {s : State} (h : s.nat .dmaxl + s.nat .lfomaxl ≤ 2 ^ 20) (d : F32) :
    2 ≤ fFloor (clampDelay s d) ∧
      fFloor (clampDelay s d) ≤ (max 2 (s.nat .dmaxl + s.nat .lfomaxl) : Nat) := by
  obtain ⟨-, h1, h2⟩ := fclamp_spec d (dHiTot_ge h)
  have h3 : fInt (clampDelay s d) ≤ fInt (dHiTot s) := h2
  have h4 : fInt two32 ≤ fInt (clampDelay s d) := h1
  rw [fInt_dHiTot h] at h3
  rw [fInt_two32] at h4
  exact fFloor_bounds (by exact_mod_cast h4) h3

/-- A tap delay that the interpolated read uses lies between 1 and `LEN - 1`. -/
theorem tapDelay_bounds {s : State} (h : BufferOk s) (d : F32) {t : Int}
    (h1 : fFloor (clampDelay s d) - 1 ≤ t) (h2 : t ≤ fFloor (clampDelay s d) + 2) :
    1 ≤ t ∧ t < s.nat .len := by
  have hl := h.len_eq
  have hle := h.len_le
  have hd := h.dmaxl_pos
  obtain ⟨ha, hb⟩ := clampDelay_floor (s := s) (by omega) d
  omega

/-- `Mod` of a difference: equal slots mean equal tap delays within one trip round the buffer. -/
theorem modInt_sub_inj {a : Int} {m : Nat} (hm : 0 < m) {t t' : Int}
    (h : modInt (a - t) m = modInt (a - t') m) (h1 : t - t' < m) (h2 : t' - t < m) : t = t' := by
  have hc := modInt_cast (a - t) hm
  have hc' := modInt_cast (a - t') hm
  rw [h, hc'] at hc
  have hd : (m : Int) ∣ (a - t) - (a - t') := Int.ModEq.dvd hc
  obtain ⟨q, hq⟩ := hd
  have : (a - t) - (a - t') = t' - t := by ring
  rw [this] at hq
  have hq0 : q = 0 := by
    by_contra hne
    rcases lt_or_gt_of_ne hne with hlt | hgt
    · have : (m : Int) * q ≤ -m := by nlinarith
      omega
    · have : (m : Int) ≤ m * q := by nlinarith
      omega
  subst hq0
  omega

/-- The interpolated read depends on the four samples at its taps alone. -/
theorem interpolate_congr {p : Params} {k : Nat} {dc : F32} {x y : Int → F32}
    (h : ∀ t, fFloor dc - 1 ≤ t → t ≤ fFloor dc + 2 → x t = y t) :
    interpolate p k dc x = interpolate p k dc y := by
  unfold interpolate
  simp only [h (fFloor dc - 1) (by omega) (by omega), h (fFloor dc) (by omega) (by omega),
    h (fFloor dc + 1) (by omega) (by omega), h (fFloor dc + 2) (by omega) (by omega)]

/-! ## Push (41_delay_line.md R151) -/

@[simp] theorem push_skeleton (c : Nat) (x : F32) (s : State) : (push c x s).skeleton = s.skeleton := by
  unfold push
  rw [State.skeleton_setCursor, State.skeleton_setBuf]

@[simp] theorem pushPop_skeleton (n : Nat) (d : F32) (c : Nat) (s : State) :
    (pushPop n d c s).skeleton = s.skeleton := by
  unfold pushPop
  rw [State.skeleton_setCb, push_skeleton]

theorem push_cursor {s : State} (h : BufferOk s) {c : Nat} (hc : c < 64) (x : F32) (c' : Nat) :
    (push c x s).cursor c' = if c' = c then (s.cursor c + 1) % s.nat .len else s.cursor c' := by
  have hlt : (s.cursor c + 1) % s.nat .len < 2 ^ 32 :=
    lt_of_lt_of_le (Nat.mod_lt _ h.len_pos) (h.len_le.trans (by norm_num))
  unfold push
  rw [State.cursor_setCursor]
  have hm : modInt ((s.cursor c : Int) + 1) (s.nat .len) = (s.cursor c + 1) % s.nat .len := by
    exact_mod_cast modInt_natCast (s.cursor c + 1) (s.nat .len)
  simp only [hc, and_true, hm, Nat.mod_eq_of_lt hlt]
  rfl

theorem push_mem (c : Nat) (x : F32) (s : State) :
    (push c x s).mem = s.mem.writeWord (bufAddr c (s.cursor c)) x := rfl

theorem push_buf {s : State} (h : BufferOk s) {c : Nat} (hc : c < 64) (x : F32) {c' k : Nat}
    (hk : k < 0x100000) :
    (push c x s).buf c' k = if c' = c ∧ k = s.cursor c then x else s.buf c' k := by
  have hcur := (h.cursor_lt c hc).trans_le h.len_le
  unfold State.buf
  rw [push_mem, Memory.readWord_writeWord]
  simp only [bufAddr_inj hk hcur]

theorem push_cb (c : Nat) (x : F32) (s : State) {c' n : Nat} (hc' : c' < 64) (hn : n < 0x4000) :
    (push c x s).cb c' n = s.cb c' n := by
  unfold State.cb
  rw [push_mem, Memory.readWord_writeWord_ne]
  exact (cbAddr_lt_bufAddr hc' hn).ne

theorem push_touches (c : Nat) (x : F32) (s : State) :
    Memory.Touches (· = bufAddr c (s.cursor c)) s.mem (push c x s).mem :=
  Memory.touches_writeWord _ _ _

theorem BufferOk.push {s : State} (h : BufferOk s) {c : Nat} (hc : c < 64) (x : F32) :
    BufferOk (push c x s) where
  dmaxl_pos := h.dmaxl_pos
  len_eq := h.len_eq
  len_le := h.len_le
  cursor_lt c' hc' := by
    rw [push_cursor h hc]
    split
    · exact Nat.mod_lt _ h.len_pos
    · exact h.cursor_lt c' hc'

/-! ## One sample of one channel (41_delay_line.md R162) -/

/-- Channel `c` stands in `t` as it stands in `s`. -/
structure SameChannel (c : Nat) (s t : State) : Prop where
  cursor : t.cursor c = s.cursor c
  buf : ∀ k, k < 0x100000 → t.buf c k = s.buf c k
  cb : ∀ n, n < 0x4000 → t.cb c n = s.cb c n

theorem SameChannel.refl (c : Nat) (s : State) : SameChannel c s s :=
  ⟨rfl, fun _ _ => rfl, fun _ _ => rfl⟩

theorem SameChannel.trans {c : Nat} {s t u : State} (h : SameChannel c s t) (h' : SameChannel c t u) :
    SameChannel c s u :=
  ⟨h'.cursor.trans h.cursor, fun k hk => (h'.buf k hk).trans (h.buf k hk),
    fun n hn => (h'.cb n hn).trans (h.cb n hn)⟩

/-- What one sample does to its channel. -/
structure SampleDone (c n : Nat) (d : F32) (s t : State) : Prop where
  cursor : t.cursor c = (s.cursor c + 1) % s.nat .len
  buf : ∀ k, k < 0x100000 → t.buf c k = if k = s.cursor c then s.cb c n else s.buf c k
  cb : ∀ m, m < 0x4000 → t.cb c m =
    if m = n then
      interpolate s.params s.draw (clampDelay s d) fun τ =>
        let k := modInt (((s.cursor c + 1) % s.nat .len : Nat) - τ) (s.nat .len)
        if k = s.cursor c then s.cb c n else s.buf c k
    else s.cb c m

theorem setCb_cb (s : State) {c n c' n' : Nat} (v : F32) (hn : n < 0x4000) (hn' : n' < 0x4000) :
    (s.setCb c n v).cb c' n' = if c' = c ∧ n' = n then v else s.cb c' n' := by
  show (s.mem.writeWord (cbAddr c n) v).readWord (cbAddr c' n') = _
  rw [Memory.readWord_writeWord]
  simp only [cbAddr_inj hn' hn]
  rfl

theorem setCb_buf (s : State) {c n c' k : Nat} (v : F32) (hc : c < 64) (hn : n < 0x4000) :
    (s.setCb c n v).buf c' k = s.buf c' k := by
  show (s.mem.writeWord (cbAddr c n) v).readWord (bufAddr c' k) = _
  rw [Memory.readWord_writeWord_ne]
  · rfl
  · exact (cbAddr_lt_bufAddr hc hn).ne'

theorem pushPop_done {s : State} (h : BufferOk s) {c n : Nat} (hc : c < 64) (hn : n < 0x4000) (d : F32) :
    SampleDone c n d s (pushPop n d c s) where
  cursor := by
    show (push c (s.cb c n) s).cursor c = _
    rw [push_cursor h hc, if_pos rfl]
  buf k hk := by
    unfold pushPop
    rw [setCb_buf _ _ hc hn, push_buf h hc _ hk]
    simp
  cb m hm := by
    unfold pushPop
    rw [setCb_cb _ _ hn hm]
    simp only [true_and]
    split
    · show interpolate s.params s.draw (clampDelay s d) _ = _
      refine interpolate_congr fun t _ _ => ?_
      show (push c (s.cb c n) s).buf c (modInt (((push c (s.cb c n) s).cursor c : Int) - t) (s.nat .len)) = _
      rw [push_cursor h hc, if_pos rfl,
        push_buf h hc _ ((modInt_lt _ h.len_pos).trans_le h.len_le)]
      simp
    · exact push_cb c _ s hc hm

theorem pushPop_other {s : State} (h : BufferOk s) {c c' n : Nat} (hc : c < 64) (hc' : c' < 64)
    (hne : c' ≠ c) (hn : n < 0x4000) (d : F32) : SameChannel c' s (pushPop n d c s) where
  cursor := by
    show (push c (s.cb c n) s).cursor c' = _
    rw [push_cursor h hc, if_neg hne]
  buf k hk := by
    unfold pushPop
    rw [setCb_buf _ _ hc hn, push_buf h hc _ hk]
    simp [hne]
  cb m hm := by
    unfold pushPop
    rw [setCb_cb _ _ hn hm, if_neg (by simp [hne])]
    exact push_cb c _ s hc' hm

theorem pushPop_touches {s : State} (h : BufferOk s) {c n : Nat} (hc : c < 64) (d : F32) {N B : Nat}
    (hN : c < N) (hB : n < B) :
    Memory.Touches (fun A => cbWords (· < N) B A ∨ bufWords (· < N) (s.nat .len) A) s.mem
      (pushPop n d c s).mem := by
  refine ((push_touches c (s.cb c n) s).mono ?_).trans ((Memory.touches_writeWord _ _ _).mono ?_)
  · rintro a rfl
    exact .inr ⟨c, _, hN, h.cursor_lt c hc, rfl⟩
  · rintro a rfl
    exact .inl ⟨c, n, hN, hB, rfl⟩

theorem BufferOk.pushPop {s : State} (h : BufferOk s) {c : Nat} (hc : c < 64) (n : Nat) (d : F32) :
    BufferOk (pushPop n d c s) :=
  have hp := h.push hc (s.cb c n)
  ⟨hp.dmaxl_pos, hp.len_eq, hp.len_le, hp.cursor_lt⟩

/-- A sample's result depends on its channel and the skeleton alone. -/
theorem SampleDone.congr {c n : Nat} {d : F32} {s s' t : State} (hs : SameChannel c s s')
    (hk : s'.skeleton = s.skeleton) (hb : BufferOk s) (hn : n < 0x4000)
    (h : SampleDone c n d s' t) : SampleDone c n d s t := by
  have hlen := State.nat_of_skeleton hk .len
  have hclamp : clampDelay s' d = clampDelay s d := by
    unfold clampDelay dHiTot
    rw [State.nat_of_skeleton hk, State.nat_of_skeleton hk]
  refine ⟨?_, ?_, ?_⟩
  · rw [h.cursor, hs.cursor, hlen]
  · intro k hk'
    rw [h.buf k hk', hs.cursor, hs.cb n hn, hs.buf k hk']
  · intro m hm
    rw [h.cb m hm, State.params_of_skeleton hk, State.draw_of_skeleton hk, hclamp, hs.cursor, hlen,
      hs.cb n hn, hs.cb m hm]
    split
    · refine interpolate_congr fun t _ _ => ?_
      simp only [hs.buf _ ((modInt_lt _ hb.len_pos).trans_le hb.len_le)]
    · rfl

/-! ## One sample of every channel -/

theorem pushPop_loop {s : State} (h : BufferOk s) {n : Nat} (hn : n < 0x4000) (d : F32) {N : Nat}
    (hN : N ≤ 64) :
    BufferOk (forUpTo N (pushPop n d) s) ∧ (forUpTo N (pushPop n d) s).skeleton = s.skeleton ∧
      (∀ c, c < N → SampleDone c n d s (forUpTo N (pushPop n d) s)) ∧
      (∀ c, c < 64 → N ≤ c → SameChannel c s (forUpTo N (pushPop n d) s)) ∧
      ∀ {B}, n < B → Memory.Touches (fun A => cbWords (· < N) B A ∨ bufWords (· < N) (s.nat .len) A)
        s.mem (forUpTo N (pushPop n d) s).mem := by
  induction N with
  | zero =>
    exact ⟨h, rfl, fun c hc => absurd hc (Nat.not_lt_zero c), fun c _ _ => SameChannel.refl c s,
      fun _ => Memory.Touches.refl _ _⟩
  | succ N ih =>
    obtain ⟨hb, hsk, hdone, hsame, htouch⟩ := ih (by omega)
    have hN' : N < 64 := by omega
    have hlen := State.nat_of_skeleton hsk .len
    rw [forUpTo_succ]
    refine ⟨hb.pushPop hN' n d, by rw [pushPop_skeleton, hsk], ?_, ?_, ?_⟩
    · intro c hc
      by_cases hcN : c = N
      · subst hcN
        exact (pushPop_done hb hN' hn d).congr (hsame c hN' le_rfl) hsk h hn
      · have hlt : c < N := by omega
        have ho := pushPop_other hb hN' (show c < 64 by omega) hcN hn d
        have hd := hdone c hlt
        exact ⟨ho.cursor.trans hd.cursor, fun k hk => (ho.buf k hk).trans (hd.buf k hk),
          fun m hm => (ho.cb m hm).trans (hd.cb m hm)⟩
    · intro c hc hle
      exact (hsame c hc (by omega)).trans (pushPop_other hb hN' hc (by omega) hn d)
    · intro B hB
      refine ((htouch hB).mono ?_).trans ?_
      · rintro A (⟨c, m, hc, hm, rfl⟩ | ⟨c, k, hc, hk, rfl⟩)
        · exact .inl ⟨c, m, by omega, hm, rfl⟩
        · exact .inr ⟨c, k, by omega, hk, rfl⟩
      · have := pushPop_touches hb (c := N) (n := n) hN' d (N := N + 1) (by omega) hB
        rwa [hlen] at this

/-! ## The block (41_delay_line.md R162) -/

/-- What `DL.RUN` has done to a working channel after `m` samples: the cursor moved by `m`, the `LEN` latest
samples of the channel's time line in the buffer, and the first `m` outputs in `CB`. -/
structure ChannelRun (s : State) (c m : Nat) (t : State) : Prop where
  cursor : t.cursor c = (s.cursor c + m) % s.nat .len
  buf : ∀ τ : Nat, 1 ≤ τ → τ ≤ s.nat .len →
    t.buf c (modInt ((s.cursor c : Int) + m - τ) (s.nat .len)) = history s c ((m : Int) - τ)
  cb : ∀ n, n < 0x4000 → t.cb c n =
    if n < m then
      interpolate s.params s.draw (delayAt s n) fun τ => history s c ((n : Int) + 1 - τ)
    else s.cb c n

theorem ChannelRun.start {s : State} (h : BufferOk s) {c : Nat} (hc : c < 64) : ChannelRun s c 0 s where
  cursor := by
    have := h.cursor_lt c hc
    rw [Nat.add_zero, Nat.mod_eq_of_lt this]
  buf τ h1 _ := by
    unfold history
    rw [if_neg (by omega)]
    congr 2
    push_cast
    ring
  cb n _ := by simp

theorem delayAt_eq (s : State) (n : Nat) : delayAt s n = clampDelay s (fadd s.draw
    (baseDelay s.draw (delayPlan s) n (ctlAt s n).cur)
    (lfoOffset s.params s.draw (delayPlan s).dep (ctlAt s n).ph)) := rfl

/-- The delay clamp leaves a clamped delay alone. -/
theorem clampDelay_idem {s : State} (h : BufferOk s) (d : F32) :
    clampDelay s (clampDelay s d) = clampDelay s d := by
  have hl := h.len_eq
  have hle := h.len_le
  obtain ⟨hnan, h1, h2⟩ := fclamp_spec d (dHiTot_ge (s := s) (by omega))
  unfold clampDelay
  refine fclamp_of_mem (fge_iff.2 ⟨hnan, by decide, h1⟩) ?_
  rw [Bool.eq_false_iff]
  intro hgt
  exact absurd (fgt_iff.1 hgt).2.2 (by omega)

theorem clampDelay_delayAt {s : State} (h : BufferOk s) (n : Nat) :
    clampDelay s (delayAt s n) = delayAt s n := by
  rw [delayAt_eq, clampDelay_idem h]

/-- One more sample: the push lands at the head of the time line, and the read sees the history. -/
theorem ChannelRun.next {s t t' : State} (h : BufferOk s) {c m : Nat} (hm : m < 0x4000)
    (hsk : t.skeleton = s.skeleton) (hr : ChannelRun s c m t)
    (hd : SampleDone c m (delayAt s m) t t') : ChannelRun s c (m + 1) t' := by
  have hlen := State.nat_of_skeleton hsk .len
  have hpos := h.len_pos
  have hcb : t.cb c m = s.cb c m := by rw [hr.cb m hm, if_neg (lt_irrefl m)]
  have hcurMod : t.cursor c = modInt ((s.cursor c : Int) + m) (s.nat .len) := by
    rw [hr.cursor]
    exact_mod_cast (modInt_natCast (s.cursor c + m) (s.nat .len)).symm
  have hslot : ∀ τ : Int, 1 ≤ τ → τ ≤ s.nat .len →
      (if modInt ((s.cursor c : Int) + (m + 1) - τ) (s.nat .len) = t.cursor c then t.cb c m
        else t.buf c (modInt ((s.cursor c : Int) + (m + 1) - τ) (s.nat .len))) =
      history s c ((m : Int) + 1 - τ) := by
    intro τ h1 h2
    by_cases hτ : τ = 1
    · subst hτ
      have : (s.cursor c : Int) + (m + 1) - 1 = s.cursor c + m := by ring
      rw [this, ← hcurMod, if_pos rfl, hcb]
      unfold history
      have : (m : Int) + 1 - 1 = m := by ring
      rw [this, if_pos (by omega), Int.toNat_natCast]
    · have hne : modInt ((s.cursor c : Int) + (m + 1) - τ) (s.nat .len) ≠ t.cursor c := by
        rw [hcurMod]
        intro he
        have h0 : (s.cursor c : Int) + m = (s.cursor c : Int) + (m + 1) - 1 := by ring
        rw [h0] at he
        exact hτ (modInt_sub_inj hpos he (by omega) (by omega))
      rw [if_neg hne]
      have hb := hr.buf (τ - 1).toNat (by omega) (by omega)
      have hcast : ((τ - 1).toNat : Int) = τ - 1 := by omega
      rw [hcast] at hb
      have e1 : (s.cursor c : Int) + m - (τ - 1) = s.cursor c + (m + 1) - τ := by ring
      have e2 : (m : Int) - (τ - 1) = m + 1 - τ := by ring
      rw [e1, e2] at hb
      exact hb
  refine ⟨?_, ?_, ?_⟩
  · rw [hd.cursor, hr.cursor, hlen, Nat.mod_add_mod, Nat.add_assoc]
  · intro τ h1 h2
    have hs := hslot τ (by omega) (by omega)
    push_cast
    rw [hd.buf _ ((modInt_lt _ hpos).trans_le h.len_le), hs]
  · intro n hn
    rw [hd.cb n hn]
    by_cases hnm : n = m
    · subst hnm
      rw [if_pos rfl, if_pos (Nat.lt_succ_self n), State.params_of_skeleton hsk,
        State.draw_of_skeleton hsk]
      have hclamp : ∀ d, clampDelay t d = clampDelay s d := by
        intro d
        unfold clampDelay dHiTot
        rw [State.nat_of_skeleton hsk, State.nat_of_skeleton hsk]
      have hda : clampDelay t (delayAt s n) = delayAt s n := by
        rw [hclamp, clampDelay_delayAt h]
      rw [hda]
      refine interpolate_congr fun τ h1 h2 => ?_
      rw [delayAt_eq] at h1 h2
      have hτ := tapDelay_bounds h _ h1 h2
      have hs := hslot τ hτ.1 hτ.2.le
      rw [← hs]
      have e : modInt ((((t.cursor c + 1) % s.nat .len : Nat) : Int) - τ) (s.nat .len) =
          modInt ((s.cursor c : Int) + (n + 1) - τ) (s.nat .len) := by
        rw [hr.cursor, Nat.mod_add_mod]
        unfold modInt
        push_cast
        rw [Int.emod_sub_emod, Int.add_assoc]
      rw [hlen, e]
    · rw [if_neg hnm, hr.cb n hn]
      by_cases hlt : n < m
      · rw [if_pos hlt, if_pos (by omega)]
      · rw [if_neg hlt, if_neg (by omega)]

theorem effectiveDelay_of_skeleton {s t : State} (h : t.skeleton = s.skeleton) (p : DelayPlan) (n : Nat)
    (c : DelayCtl) : effectiveDelay t p n c = effectiveDelay s p n c := by
  unfold effectiveDelay clampDelay dHiTot
  rw [State.nat_of_skeleton h, State.nat_of_skeleton h, State.params_of_skeleton h,
    State.draw_of_skeleton h]

/-- Everything a block run does, after `m` samples. -/
structure BlockRun (s : State) (m : Nat) (r : DelayRun) : Prop where
  bufferOk : BufferOk r.st
  skeleton : r.st.skeleton = s.skeleton
  ctl : r.ctl = ctlAt s m
  working : ∀ c, c < s.nat .n → ChannelRun s c m r.st
  others : ∀ c, c < 64 → s.nat .n ≤ c → SameChannel c s r.st
  touches : ∀ {B}, m ≤ B → Memory.Touches
    (fun A => cbWords (· < s.nat .n) B A ∨ bufWords (· < s.nat .n) (s.nat .len) A) s.mem r.st.mem

theorem delayBlock_run {s : State} (h : BufferOk s) (hN : s.nat .n ≤ 64) (hB : s.nat .nsamp ≤ 0x4000) :
    BlockRun s (s.nat .nsamp) (delayBlock s) := by
  unfold delayBlock
  refine forUpTo_induct (BlockRun s) ?_ ?_
  · exact ⟨h, rfl, rfl, fun c hc => ChannelRun.start h (by omega), fun c _ _ => SameChannel.refl c s,
      fun _ => Memory.Touches.refl _ _⟩
  · intro m r hm hr
    have hd : effectiveDelay r.st (delayPlan s) m r.ctl = delayAt s m := by
      rw [effectiveDelay_of_skeleton hr.skeleton, hr.ctl, delayAt]
    obtain ⟨hb, hsk, hdone, hsame, htouch⟩ :=
      pushPop_loop hr.bufferOk (n := m) (by omega) (delayAt s m) hN
    have hlen := State.nat_of_skeleton hr.skeleton .len
    unfold delaySample
    rw [hd]
    refine ⟨hb, hsk.trans hr.skeleton, ?_, ?_, ?_, ?_⟩
    · show nextCtl r.st.draw (delayPlan s) m r.ctl = _
      rw [hr.ctl, State.draw_of_skeleton hr.skeleton, ctlAt]
    · intro c hc
      exact (hr.working c hc).next h (by omega) hr.skeleton (hdone c hc)
    · intro c hc hle
      exact (hr.others c hc hle).trans (hsame c hc hle)
    · intro B hB'
      have := htouch (B := B) (by omega)
      rw [hlen] at this
      exact (hr.touches (by omega)).trans this

end Sys2Proof.Machine
end

