-- ==== Sys2Proof/Laws/FilterBank.lean ====
section
/-! SUPPORT. What the filter bank does to a channel: the recurrence of the two stages, and that channels
are independent. -/

namespace Sys2Proof.Machine

/-- Channel `c` stands in `t` as in `s` for the filter bank. -/
structure SameFilter (c : Nat) (s t : State) : Prop where
  words : t.filterWords c = s.filterWords c
  cb : ∀ n, n < 0x4000 → t.cb c n = s.cb c n

/-- What a filter run has done to its channel after `m` samples. -/
structure FilterRun (s : State) (c m : Nat) (t : State) : Prop where
  words : t.filterWords c = filterAt s c m
  cb : ∀ n, n < 0x4000 → t.cb c n = if n < m then filterOutAt s c n else s.cb c n

theorem hpCoefs_of_skeleton {s t : State} (h : t.skeleton = s.skeleton) : t.hpCoefs = s.hpCoefs := by
  simp only [State.hpCoefs, State.f32, State.reg_of_skeleton h]

theorem lpCoefs_of_skeleton {s t : State} (h : t.skeleton = s.skeleton) : t.lpCoefs = s.lpCoefs := by
  simp only [State.lpCoefs, State.f32, State.reg_of_skeleton h]

theorem filterAt_congr {s t : State} {c : Nat} (hk : t.skeleton = s.skeleton) (h : SameFilter c s t)
    (n : Nat) (hn : n ≤ 0x4000) : filterAt t c n = filterAt s c n := by
  induction n with
  | zero => exact h.words
  | succ n ih =>
    simp only [filterAt, lowPassAt, highPassAt, ih (by omega), State.draw_of_skeleton hk,
      hpCoefs_of_skeleton hk, lpCoefs_of_skeleton hk, h.cb n (by omega)]

theorem filterOutAt_congr {s t : State} {c : Nat} (hk : t.skeleton = s.skeleton) (h : SameFilter c s t)
    (n : Nat) (hn : n < 0x4000) : filterOutAt t c n = filterOutAt s c n := by
  simp only [filterOutAt, lowPassAt, highPassAt, filterAt_congr hk h n hn.le, State.draw_of_skeleton hk,
    hpCoefs_of_skeleton hk, lpCoefs_of_skeleton hk, h.cb n hn]

theorem setFst_fst (s : State) {c i c' j : Nat} (v : F32) (hi : i < 4) (hj : j < 4) :
    (s.setFst c i v).fst c' j = if c' = c ∧ j = i then v else s.fst c' j := by
  show (s.mem.writeWord (fstAddr c i) v).readWord (fstAddr c' j) = _
  rw [Memory.readWord_writeWord]
  simp only [fstAddr_inj hj hi]
  rfl

theorem setFst_cb (s : State) {c i c' n : Nat} (v : F32) (hc : c < 64) (hi : i < 4) :
    (s.setFst c i v).cb c' n = s.cb c' n := by
  show (s.mem.writeWord (fstAddr c i) v).readWord (cbAddr c' n) = _
  rw [Memory.readWord_writeWord_ne]
  · rfl
  · exact (fstAddr_lt_cbAddr hc hi).ne'

theorem setCb_fst (s : State) {c n c' j : Nat} (v : F32) (hc' : c' < 64) (hj : j < 4) :
    (s.setCb c n v).fst c' j = s.fst c' j := by
  show (s.mem.writeWord (cbAddr c n) v).readWord (fstAddr c' j) = _
  rw [Memory.readWord_writeWord_ne]
  · rfl
  · exact (fstAddr_lt_cbAddr hc' hj).ne

theorem setCb_cb' (s : State) {c n c' n' : Nat} (v : F32) (hn : n < 0x4000) (hn' : n' < 0x4000) :
    (s.setCb c n v).cb c' n' = if c' = c ∧ n' = n then v else s.cb c' n' := by
  show (s.mem.writeWord (cbAddr c n) v).readWord (cbAddr c' n') = _
  rw [Memory.readWord_writeWord]
  simp only [cbAddr_inj hn' hn]
  rfl

section
variable (h l : Coefs) (c n : Nat) (s : State)

@[simp] theorem filterSample_skeleton : (filterSample h l c n s).skeleton = s.skeleton := by
  unfold filterSample
  simp only [State.skeleton_setCb, State.skeleton_setFst]

@[simp] theorem filterSample_wcur : (filterSample h l c n s).wcur = s.wcur := by
  unfold filterSample State.setCb State.setFst
  simp only [State.store_wcur]

theorem filterSample_touches {C : Nat → Prop} {B : Nat} (hC : C c) (hB : n < B) :
    Memory.Touches (fun A => cbWords C B A ∨ fstWords C A) s.mem (filterSample h l c n s).mem := by
  unfold filterSample
  have hf : ∀ (t : State) (i : Nat) (v : F32), i < 4 →
      Memory.Touches (fun A => cbWords C B A ∨ fstWords C A) t.mem (t.setFst c i v).mem :=
    fun t i v hi => (Memory.touches_writeWord _ _ _).mono (by
      rintro A rfl
      exact .inr ⟨c, i, hC, hi, rfl⟩)
  refine (((((hf _ 0 _ (by omega)).trans (hf _ 1 _ (by omega))).trans (hf _ 2 _ (by omega))).trans
    (hf _ 3 _ (by omega)))).trans ((Memory.touches_writeWord _ _ _).mono ?_)
  rintro A rfl
  exact .inl ⟨c, n, hC, hB, rfl⟩

end

/-- One sample of a channel: its state words and its place in `CB`. -/
theorem filterSample_spec {s : State} {c n : Nat} (h l : Coefs) (hc : c < 64) (hn : n < 0x4000) :
    let p := biquadStep s.draw h (s.fst c 0) (s.fst c 1) (s.cb c n)
    let q := biquadStep s.draw l (s.fst c 2) (s.fst c 3) p.y
    (filterSample h l c n s).filterWords c = ⟨p.s1, p.s2, q.s1, q.s2⟩ ∧
      ∀ m, m < 0x4000 → (filterSample h l c n s).cb c m = if m = n then q.y else s.cb c m := by
  intro p q
  unfold filterSample
  refine ⟨?_, fun m hm => ?_⟩
  · unfold State.filterWords
    simp only [setCb_fst _ _ hc, setFst_fst, show (0:Nat) < 4 by omega, show (1:Nat) < 4 by omega,
      show (2:Nat) < 4 by omega, show (3:Nat) < 4 by omega]
    simp [p, q]
  · rw [setCb_cb' _ _ hn hm]
    simp only [setFst_cb _ _ hc (show (0:Nat) < 4 by omega),
      setFst_cb _ _ hc (show (1:Nat) < 4 by omega), setFst_cb _ _ hc (show (2:Nat) < 4 by omega),
      setFst_cb _ _ hc (show (3:Nat) < 4 by omega), true_and]
    rfl

theorem filterSample_other {s : State} {c c' n : Nat} (h l : Coefs) (hc : c < 64) (hc' : c' < 64)
    (hne : c' ≠ c) (hn : n < 0x4000) : SameFilter c' s (filterSample h l c n s) where
  words := by
    unfold filterSample State.filterWords
    simp only [setCb_fst _ _ hc', setFst_fst, show (0:Nat) < 4 by omega, show (1:Nat) < 4 by omega,
      show (2:Nat) < 4 by omega, show (3:Nat) < 4 by omega]
    simp [hne]
  cb m hm := by
    unfold filterSample
    rw [setCb_cb' _ _ hn hm, if_neg (by simp [hne])]
    simp only [setFst_cb _ _ hc (show (0:Nat) < 4 by omega),
      setFst_cb _ _ hc (show (1:Nat) < 4 by omega), setFst_cb _ _ hc (show (2:Nat) < 4 by omega),
      setFst_cb _ _ hc (show (3:Nat) < 4 by omega)]

/-- `FilterChannel` (43_filter_bank.md R215): its channel by the recurrence, the others untouched. -/
structure ChannelFiltered (s : State) (c : Nat) (t : State) : Prop where
  run : FilterRun s c (s.nat .nsamp) t
  others : ∀ c', c' < 64 → c' ≠ c → SameFilter c' s t
  skeleton : t.skeleton = s.skeleton
  wcur : t.wcur = s.wcur
  touches : ∀ {C : Nat → Prop}, C c → Memory.Touches
    (fun A => cbWords C (s.nat .nsamp) A ∨ fstWords C A) s.mem t.mem

theorem filterChannel_filtered {s : State} {c : Nat} (hc : c < 64) (hB : s.nat .nsamp ≤ 0x4000) :
    ChannelFiltered s c (filterChannel c s) := by
  unfold filterChannel
  have key := forUpTo_induct (n := s.nat .nsamp) (body := filterSample s.hpCoefs s.lpCoefs c) (s := s)
    (fun m t => FilterRun s c m t ∧ (∀ c', c' < 64 → c' ≠ c → SameFilter c' s t) ∧
      t.skeleton = s.skeleton ∧ t.wcur = s.wcur ∧
      ∀ {C : Nat → Prop}, C c → Memory.Touches
        (fun A => cbWords C (s.nat .nsamp) A ∨ fstWords C A) s.mem t.mem)
    ⟨⟨rfl, fun n _ => by simp⟩, fun _ _ _ => ⟨rfl, fun _ _ => rfl⟩, rfl, rfl,
      fun _ => Memory.Touches.refl _ _⟩ ?_
  · obtain ⟨h1, h2, h3, h4, h5⟩ := key
    exact ⟨h1, h2, h3, h4, h5⟩
  · rintro m t hm ⟨hr, ho, hs, hw, ht⟩
    obtain ⟨hwords, hcb⟩ := filterSample_spec (s := t) (c := c) s.hpCoefs s.lpCoefs hc
      (show m < 0x4000 by omega)
    have hx : t.cb c m = s.cb c m := by rw [hr.cb m (by omega), if_neg (lt_irrefl m)]
    have hf : ∀ f : FilterWords, t.filterWords c = f →
        t.fst c 0 = f.h1 ∧ t.fst c 1 = f.h2 ∧ t.fst c 2 = f.l1 ∧ t.fst c 3 = f.l2 := by
      rintro f rfl
      exact ⟨rfl, rfl, rfl, rfl⟩
    obtain ⟨e0, e1, e2, e3⟩ := hf _ hr.words
    rw [e0, e1, e2, e3, hx, State.draw_of_skeleton hs] at hwords hcb
    refine ⟨⟨?_, ?_⟩, ?_, by rw [filterSample_skeleton, hs], by rw [filterSample_wcur, hw], ?_⟩
    · rw [hwords, filterAt]
      rfl
    · intro n hn
      rw [hcb n hn]
      by_cases hnm : n = m
      · subst hnm
        rw [if_pos rfl, if_pos (Nat.lt_succ_self n)]
        rfl
      · rw [if_neg hnm, hr.cb n hn]
        by_cases hlt : n < m
        · rw [if_pos hlt, if_pos (by omega)]
        · rw [if_neg hlt, if_neg (by omega)]
    · intro c' hc' hne
      have h1 := ho c' hc' hne
      have h2 := filterSample_other (s := t) (n := m) s.hpCoefs s.lpCoefs hc hc' hne (by omega)
      exact ⟨h2.words.trans h1.words, fun n hn => (h2.cb n hn).trans (h1.cb n hn)⟩
    · intro C hC
      exact (ht hC).trans (filterSample_touches _ _ _ _ _ hC hm)

/-- `FB.RUNALL` (43_filter_bank.md R219): every working channel by its own recurrence. -/
structure AllFiltered (s : State) (N : Nat) (t : State) : Prop where
  run : ∀ c, c < N → FilterRun s c (s.nat .nsamp) t
  others : ∀ c, c < 64 → N ≤ c → SameFilter c s t
  skeleton : t.skeleton = s.skeleton
  wcur : t.wcur = s.wcur
  touches : Memory.Touches
    (fun A => cbWords (· < N) (s.nat .nsamp) A ∨ fstWords (· < N) A) s.mem t.mem

theorem filterChannels_filtered {s : State} {N : Nat} (hN : N ≤ 64) (hB : s.nat .nsamp ≤ 0x4000) :
    AllFiltered s N (forUpTo N filterChannel s) := by
  induction N with
  | zero =>
    exact ⟨fun c hc => absurd hc (Nat.not_lt_zero c), fun _ _ _ => ⟨rfl, fun _ _ => rfl⟩, rfl, rfl,
      Memory.Touches.refl _ _⟩
  | succ N ih =>
    have hi := ih (by omega)
    rw [forUpTo_succ]
    generalize forUpTo N filterChannel s = t at hi
    have hns : t.nat .nsamp = s.nat .nsamp := State.nat_of_skeleton hi.skeleton _
    have hf := filterChannel_filtered (s := t) (c := N) (by omega) (by omega)
    have hsame := hi.others N (by omega) le_rfl
    refine ⟨?_, ?_, hf.skeleton.trans hi.skeleton, hf.wcur.trans hi.wcur, ?_⟩
    · intro c hc
      by_cases hcN : c = N
      · subst hcN
        refine ⟨?_, fun n hn => ?_⟩
        · rw [hf.run.words, hns, filterAt_congr hi.skeleton hsame _ hB]
        · rw [hf.run.cb n hn, hns, hsame.cb n hn]
          split
          · rw [filterOutAt_congr hi.skeleton hsame n hn]
          · rfl
      · have ho := hf.others c (by omega) hcN
        have hr := hi.run c (by omega)
        exact ⟨ho.words.trans hr.words, fun n hn => (ho.cb n hn).trans (hr.cb n hn)⟩
    · intro c hc hle
      have ho := hf.others c hc (by omega)
      have hs := hi.others c hc (by omega)
      exact ⟨ho.words.trans hs.words, fun n hn => (ho.cb n hn).trans (hs.cb n hn)⟩
    · refine (hi.touches.mono ?_).trans ?_
      · rintro A (⟨c, n, hc, hn, rfl⟩ | ⟨c, i, hc, hi, rfl⟩)
        · exact .inl ⟨c, n, by omega, hn, rfl⟩
        · exact .inr ⟨c, i, by omega, hi, rfl⟩
      · have := hf.touches (C := (· < N + 1)) (Nat.lt_succ_self N)
        rwa [hns] at this

end Sys2Proof.Machine
end

