-- ==== Sys2Proof/Laws/Matrix.lean ====
section
/-! SUPPORT. What the rotation-matrix unit does: the square a build stores, and the block a matrix is
applied to. -/

namespace Sys2Proof.Machine

/-! ## A loop of stores -/

/-- A loop that stores one word a pass, to different words. -/
theorem storeLoop {n : Nat} {addr : Nat → Nat} {val : Nat → Word} (s : State)
    (inj : ∀ i j, i < n → j < n → addr i = addr j → i = j) :
    (∀ i, i < n →
        (forUpTo n (fun i t => t.store (addr i) (val i)) s).mem.readWord (addr i) = val i) ∧
      Memory.Touches (fun A => ∃ i, i < n ∧ A = addr i) s.mem
        (forUpTo n (fun i t => t.store (addr i) (val i)) s).mem ∧
      (forUpTo n (fun i t => t.store (addr i) (val i)) s).skeleton = s.skeleton ∧
      (forUpTo n (fun i t => t.store (addr i) (val i)) s).wcur = s.wcur := by
  induction n with
  | zero =>
    exact ⟨fun i hi => absurd hi (Nat.not_lt_zero i), Memory.Touches.refl _ _, rfl, rfl⟩
  | succ n ih =>
    obtain ⟨hv, ht, hs, hw⟩ := ih fun i j hi hj => inj i j (by omega) (by omega)
    rw [forUpTo_succ]
    refine ⟨?_, ?_, by rw [State.skeleton_store, hs], by rw [State.store_wcur, hw]⟩
    · intro i hi
      rw [State.store_mem, Memory.readWord_writeWord]
      by_cases h : i = n
      · subst h
        rw [if_pos rfl]
      · rw [if_neg fun he => h (inj i n hi (by omega) he)]
        exact hv i (by omega)
    · refine (ht.mono ?_).trans ((Memory.touches_writeWord _ _ _).mono ?_)
      · rintro A ⟨i, hi, rfl⟩
        exact ⟨i, by omega, rfl⟩
      · rintro A rfl
        exact ⟨n, by omega, rfl⟩

/-- A loop over a list of numbers is the bounded loop. -/
theorem foldl_range_eq {α : Type} (f : α → Nat → α) (a : α) (n : Nat) :
    (List.range n).foldl f a = forUpTo n (fun i x => f x i) a := by
  induction n with
  | zero => rfl
  | succ n ih => rw [List.range_succ, List.foldl_append, ih, forUpTo_succ, List.foldl_cons, List.foldl_nil]

/-! ## Building (42_rotation.md R182) -/

/-- What storing a matrix does: the top-left `n × n` square of `MAT` is the transpose of `d`. -/
structure MatrixStored (d : List (List F32)) (n : Nat) (s t : State) : Prop where
  mat : ∀ i j, i < n → j < n → t.mat i j = entryOf d j i
  touches : Memory.Touches (matWords n) s.mem t.mem
  skeleton : t.skeleton = s.skeleton
  wcur : t.wcur = s.wcur

theorem storeMatrix_stored (d : List (List F32)) {n : Nat} (hn : n ≤ 64) (s : State) :
    MatrixStored d n s (storeMatrix d n s) := by
  unfold storeMatrix
  have key : ∀ m, m ≤ n →
      (∀ i j, i < m → j < n → (forUpTo m (fun i s =>
        forUpTo n (fun j s => s.setMat i j (entryOf d j i)) s) s).mat i j = entryOf d j i) ∧
      Memory.Touches (matWords n) s.mem (forUpTo m (fun i s =>
        forUpTo n (fun j s => s.setMat i j (entryOf d j i)) s) s).mem ∧
      (forUpTo m (fun i s =>
        forUpTo n (fun j s => s.setMat i j (entryOf d j i)) s) s).skeleton = s.skeleton ∧
      (forUpTo m (fun i s =>
        forUpTo n (fun j s => s.setMat i j (entryOf d j i)) s) s).wcur = s.wcur := by
    intro m
    induction m with
    | zero =>
      exact fun _ => ⟨fun i j hi => absurd hi (Nat.not_lt_zero i), Memory.Touches.refl _ _, rfl, rfl⟩
    | succ m ih =>
      intro hm
      obtain ⟨hv, ht, hs, hw⟩ := ih (by omega)
      rw [forUpTo_succ]
      generalize forUpTo m (fun i s =>
        forUpTo n (fun j s => s.setMat i j (entryOf d j i)) s) s = t at hv ht hs hw
      have hrow := storeLoop (n := n) (addr := fun j => matAddr m j) (val := fun j => entryOf d j m) t
        (fun i j hi hj he => ((matAddr_inj (by omega) (by omega)).1 he).2)
      have hbody : (fun (j : Nat) (s : State) => s.setMat m j (entryOf d j m)) =
          fun j t => t.store (matAddr m j) (entryOf d j m) := rfl
      rw [hbody]
      obtain ⟨hv', ht', hs', hw'⟩ := hrow
      refine ⟨?_, ?_, hs'.trans hs, hw'.trans hw⟩
      · intro i j hi hj
        by_cases him : i = m
        · subst him
          exact hv' j hj
        · rw [← hv i j (by omega) hj]
          refine ht'.readWord ?_
          rintro ⟨j', hj', he⟩
          exact him ((matAddr_inj (by omega) (by omega)).1 he).1
      · refine ht.trans (ht'.mono ?_)
        rintro A ⟨j, hj, rfl⟩
        exact ⟨m, j, by omega, hj, rfl⟩
  obtain ⟨hv, ht, hs, hw⟩ := key n le_rfl
  exact ⟨hv, ht, hs, hw⟩

/-! ## Applying (42_rotation.md R190) -/

theorem scratch_getD (s : State) (n : Nat) {i : Nat} (hi : i < s.nat .n) :
    (scratch s n).getD i zero32 = s.cb i n := by
  simp [scratch, List.getD, hi]

theorem matrixSum_eq {s : State} (hN : 1 ≤ s.nat .n) (n j : Nat) :
    matrixSum s (scratch s n) j = matrixSumAt s n j := by
  unfold matrixSum matrixSumAt
  rw [foldl_range_eq, scratch_getD s n hN]
  generalize fmul s.draw (s.cb 0 n) (s.mat 0 j) = a
  have : ∀ m, m ≤ s.nat .n - 1 →
      forUpTo m (fun i acc => fadd s.draw acc (fmul s.draw ((scratch s n).getD (i + 1) zero32)
        (s.mat (i + 1) j))) a =
      forUpTo m (fun i acc => fadd s.draw acc (fmul s.draw (s.cb (i + 1) n) (s.mat (i + 1) j))) a :=
    fun m hm => forUpTo_congr fun i x hi => by rw [scratch_getD s n (by omega)]
  exact this _ le_rfl

/-- The sum depends on the sample's column of `CB`, the matrix and the skeleton alone. -/
theorem matrixSumAt_congr {s t : State} (hsk : t.skeleton = s.skeleton) {n j : Nat}
    (hcb : ∀ i, i < s.nat .n → t.cb i n = s.cb i n)
    (hmat : ∀ i, i < s.nat .n → t.mat i j = s.mat i j) (hN : 1 ≤ s.nat .n) :
    matrixSumAt t n j = matrixSumAt s n j := by
  unfold matrixSumAt
  rw [foldl_range_eq, foldl_range_eq, State.nat_of_skeleton hsk, State.draw_of_skeleton hsk, hcb 0 hN,
    hmat 0 hN]
  exact forUpTo_congr fun i x hi => by rw [hcb _ (by omega), hmat _ (by omega)]

/-- What applying the matrix has done after `m` samples. -/
structure MatrixRun (s : State) (m : Nat) (t : State) : Prop where
  cb : ∀ j n, j < s.nat .n → n < m → t.cb j n = matrixSumAt s n j
  touches : Memory.Touches (cbWords (· < s.nat .n) m) s.mem t.mem
  skeleton : t.skeleton = s.skeleton
  wcur : t.wcur = s.wcur

theorem applyMatrix_run {s : State} (hN1 : 1 ≤ s.nat .n) (hN : s.nat .n ≤ 64)
    (hB : s.nat .nsamp ≤ 0x4000) : MatrixRun s (s.nat .nsamp) (applyMatrix s) := by
  unfold applyMatrix
  refine forUpTo_induct (MatrixRun s) ?_ ?_
  · exact ⟨fun _ n _ hn => absurd hn (Nat.not_lt_zero n), Memory.Touches.refl _ _, rfl, rfl⟩
  · intro m t hm ht
    have hn : t.nat .n = s.nat .n := State.nat_of_skeleton ht.skeleton _
    obtain ⟨hv, htt, hs, hw⟩ := storeLoop (n := t.nat .n) (addr := fun j => cbAddr j m)
      (val := fun j => matrixSum t (scratch t m) j) t
      (fun i j hi hj he => ((cbAddr_inj (by omega) (by omega)).1 he).1)
    have hold : ∀ {A}, ¬ cbWords (· < s.nat .n) m A → t.mem.readWord A = s.mem.readWord A :=
      fun hA => ht.touches.readWord hA
    have hsum : ∀ j, j < s.nat .n → matrixSum t (scratch t m) j = matrixSumAt s m j := by
      intro j hj
      rw [matrixSum_eq (by omega)]
      refine matrixSumAt_congr ht.skeleton ?_ ?_ hN1
      · intro i hi
        refine hold ?_
        rintro ⟨c, n, hc, hn', he⟩
        have := ((cbAddr_inj (by omega) (by omega)).1 he).2
        omega
      · intro i hi
        refine hold ?_
        rintro ⟨c, n, hc, hn', he⟩
        have := matAddr_lt_cbAddr (i := i) (j := j) (c := c) (n := n) (by omega) (by omega)
        omega
    have hbody : applySample m t = forUpTo (t.nat .n) (fun j u => u.store (cbAddr j m)
        (matrixSum t (scratch t m) j)) t := rfl
    rw [hbody]
    refine ⟨?_, ?_, hs.trans ht.skeleton, hw.trans ht.wcur⟩
    · intro j n hj hnm
      by_cases hnm' : n = m
      · subst hnm'
        rw [← hsum j hj]
        exact hv j (by omega)
      · rw [← ht.cb j n hj (by omega)]
        refine htt.readWord ?_
        rintro ⟨j', hj', he⟩
        exact hnm' ((cbAddr_inj (by omega) (by omega)).1 he).2
    · refine (ht.touches.mono ?_).trans (htt.mono ?_)
      · rintro A ⟨c, n, hc, hn', rfl⟩
        exact ⟨c, n, hc, by omega, rfl⟩
      · rintro A ⟨j, hj, rfl⟩
        exact ⟨j, m, by omega, by omega, rfl⟩

end Sys2Proof.Machine
end

