-- ==== Sys2Proof/Laws/Invariant.lean ====
section
/-! SUPPORT. The small updates and the datapath units keep the invariant of Sys2Proof/Safety.lean. -/

namespace Sys2Proof.Machine

/-- Equal cursor files, equal cursors. -/
theorem cur_of_wcur {s t : State} (h : t.wcur = s.wcur) (c : Nat) : t.cursor c = s.cursor c := by
  unfold State.cursor; rw [h]

theorem StateInv.curs {s : State} (h : StateInv s) : s.status.prepared = true → ∀ c, c < 64 → s.cursor c < s.nat .len :=
  fun hp => (h.sizes hp).cursor_lt

theorem StateInv.raise {s : State} (h : StateInv s) (k : Cause) (w : Word) : StateInv (s.raise k w) := by
  refine ⟨by simpa using h.params_ok, by simpa using h.mem_wf, ⟨?_, ?_⟩, ?_⟩
  · intro he; simp at he
  · intro _
    cases hs : s.status.err
    · rw [State.raise_of_noErr _ _ _ hs]; exact k.code_range
    · rw [State.raise_of_err _ _ _ hs]; exact h.record.coded hs
  · intro hp
    have z := h.sizes (by simpa using hp)
    have e : ∀ r, r ≠ .errinfo → (s.raise k w).nat r = s.nat r := fun r hr => by
      unfold State.nat; rw [State.reg_raise s k w r hr]
    have efs : (s.raise k w).f32 .fs = s.f32 .fs := State.reg_raise s k w _ (by decide)
    constructor <;> simp only [efs, State.raise_params, State.cursor_raise, e .dmaxl (by decide), e .nchl (by decide), e .blkl (by decide), e .len (by decide), e .lfomaxl (by decide), e .nsamp (by decide), e .order (by decide), e .n (by decide)]
    · exact z.dmaxl_pos
    · exact z.nchl_pos
    · exact z.nchl_le
    · exact z.blkl_pos
    · exact z.blkl_le
    · exact z.len_eq
    · exact z.len_le
    · exact z.cursor_lt
    · exact z.nsamp_pos
    · exact z.nsamp_le
    · exact z.order_le
    · exact z.n_eq
    · exact z.n_le
    · exact z.fs_finite
    · exact z.fs_ge

theorem StateInv.setReg {s : State} (h : StateInv s) (r : Reg) (v : Word) (hr : r ∉ invRegs) : StateInv (s.setReg r v) :=
  h.transport rfl h.mem_wf rfl rfl rfl (fun r' hr' => State.reg_setReg_ne _ (fun e => hr (by rw [← e]; exact hr')) _) h.curs

theorem StateInv.complete {s : State} (h : StateInv s) : StateInv s.complete := h.setReg _ _ (by decide)
theorem StateInv.setMatOk {s : State} (h : StateInv s) (b : Bool) : StateInv (s.setMatOk b) :=
  h.transport rfl h.mem_wf rfl rfl rfl (fun _ _ => rfl) h.curs
theorem StateInv.store {s : State} (h : StateInv s) (A : Nat) (v : Word) : StateInv (s.store A v) :=
  h.transport rfl (Memory.writeWord_wf h.mem_wf _ _) rfl rfl rfl (fun _ _ => rfl) h.curs
theorem StateInv.withReply {s : State} (h : StateInv s) (o) : StateInv (s.withReply o) :=
  h.transport rfl h.mem_wf rfl rfl rfl (fun _ _ => rfl) h.curs
theorem StateInv.taken {s : State} (h : StateInv s) (o) : StateInv (s.taken o) :=
  h.transport rfl h.mem_wf rfl rfl rfl (fun _ _ => rfl) h.curs
/-- A datapath unit that keeps the cursors in range keeps the invariant. -/
theorem StateInv.unit {s t : State} {A} (h : StateInv s) (hs : t.skeleton = s.skeleton) (hm : Memory.Touches A s.mem t.mem)
   (hc : s.status.prepared = true → ∀ c, c < 64 → t.cursor c < s.nat .len) : StateInv t :=
  h.transport (State.params_of_skeleton hs) (hm.wf h.mem_wf) (by rw [State.status_of_skeleton hs]) (by rw [State.status_of_skeleton hs])
    (by rw [State.status_of_skeleton hs]) (fun r _ => State.reg_of_skeleton hs r) hc

theorem StateInv.acknowledge {s : State} (h : StateInv s) : StateInv s.acknowledge := by
  refine ⟨h.params_ok, h.mem_wf, ⟨fun _ => ⟨rfl, by simp⟩, fun he => by simp at he⟩, ?_⟩
  intro hp
  have z := h.sizes (by simpa using hp)
  have e : ∀ r, r ≠ .errinfo → (s.acknowledge).nat r = s.nat r := fun r hr => by
      unfold State.nat; rw [State.reg_acknowledge, if_neg hr]
  have efs : (s.acknowledge).f32 .fs = s.f32 .fs := by unfold State.f32; simp
  constructor <;> simp only [efs, State.acknowledge_params, State.cursor_acknowledge, e .dmaxl (by decide), e .nchl (by decide), e .blkl (by decide), e .len (by decide), e .lfomaxl (by decide), e .nsamp (by decide), e .order (by decide), e .n (by decide)]
  · exact z.dmaxl_pos
  · exact z.nchl_pos
  · exact z.nchl_le
  · exact z.blkl_pos
  · exact z.blkl_le
  · exact z.len_eq
  · exact z.len_le
  · exact z.cursor_lt
  · exact z.nsamp_pos
  · exact z.nsamp_le
  · exact z.order_le
  · exact z.n_eq
  · exact z.n_le
  · exact z.fs_finite
  · exact z.fs_ge

/-! ## The units keep the invariant -/

theorem inv_push {s : State} (h : StateInv s) (hp : s.status.prepared = true) {ch} (hc : ch < s.nat .nchl) (x) : StateInv (push ch x s) := by
  have hb := h.bufferOk hp
  have := h.block_le hp
  exact h.unit (push_skeleton _ _ _) (push_touches _ _ _) (fun _ => (hb.push (by omega) x).cursor_lt)

theorem storeMatrix_inv {s : State} (h : StateInv s) (d) {n} (hn : n ≤ 64) : StateInv (storeMatrix d n s) := by
  have hm := storeMatrix_stored d hn s
  exact h.unit hm.skeleton hm.touches (fun hp c hc => by rw [cur_of_wcur hm.wcur]; exact h.curs hp c hc)

theorem inv_build {s : State} (h : StateInv s) (hn : s.nat .n ≤ 64) : StateInv (buildRotation s) :=
  (storeMatrix_inv h _ hn).setMatOk _

theorem inv_applyM {s : State} (h : StateInv s) (hp : s.status.prepared = true) : StateInv (applyMatrix s) := by
  have hb := h.block_le hp
  have hm := applyMatrix_run (s := s) hb.1 (by omega) hb.2.2.2
  exact h.unit hm.skeleton hm.touches (fun hp c hc => by rw [cur_of_wcur hm.wcur]; exact h.curs hp c hc)

theorem build_prepared (s : State) (hn : s.nat .n ≤ 64) : (buildRotation s).status.prepared = s.status.prepared := by
  unfold buildRotation
  simp [State.status_of_skeleton (storeMatrix_stored (rotation s) hn s).skeleton]

theorem inv_runApply {s : State} (h : StateInv s) (hp : s.status.prepared = true) : StateInv (runApply s) := by
  have hb := h.block_le hp
  unfold runApply
  split
  · exact inv_applyM (inv_build h (by omega)) (by rw [build_prepared _ (by omega), hp])
  · exact inv_applyM h hp

theorem inv_filter {s : State} (h : StateInv s) (hp : s.status.prepared = true) {ch} (hc : ch < s.nat .nchl) : StateInv (filterChannel ch s) := by
  have hb := h.block_le hp
  have hm := filterChannel_filtered (s := s) (c := ch) (by omega) hb.2.2.2
  exact h.unit hm.skeleton (hm.touches (C := (· = ch)) rfl) (fun hp c hc => by rw [cur_of_wcur hm.wcur]; exact h.curs hp c hc)

theorem inv_filterAll {s : State} (h : StateInv s) (hp : s.status.prepared = true) : StateInv (filterAll s) := by
  have hb := h.block_le hp
  have hm := filterChannels_filtered (s := s) (N := s.nat .n) (by omega) hb.2.2.2
  exact h.unit hm.skeleton hm.touches (fun hp c hc => by rw [show (filterAll s) = forUpTo (s.nat .n) filterChannel s from rfl, cur_of_wcur hm.wcur]; exact h.curs hp c hc)

theorem inv_runDelay {s : State} (h : StateInv s) (hp : s.status.prepared = true) : StateInv (runDelay s) := by
  have hb := h.block_le hp
  have hr := delayBlock_run (h.bufferOk hp) (by omega) hb.2.2.2
  have : StateInv (delayBlock s).st := by
    refine h.unit hr.skeleton (hr.touches le_rfl) (fun _ c hc => ?_)
    have := hr.bufferOk.cursor_lt c hc
    rwa [State.nat_of_skeleton hr.skeleton] at this
  unfold runDelay
  exact (this.setReg _ _ (by decide)).setReg _ _ (by decide)

theorem inv_coefs {s : State} (h : StateInv s) : StateInv (computeCoefficients s) := by
  unfold computeCoefficients State.setHp State.setLp
  iterate 12 refine StateInv.setReg ?_ _ _ (by decide)
  exact h

end Sys2Proof.Machine
end

