-- ==== Sys2Proof/Laws/PerInstr.lean ====
section
/-! SUPPORT. Statements made per command: the shape of the command word (30_encoding.md R111). -/

namespace Sys2Proof.Laws.CommandWord

/-- The command word carries the opcode in bits 7:0 and zero in bits 31:16, and, for a well-formed
command, its channel in bits 15:8 (30_encoding.md R111). -/
def Statement (i : Instr) : Prop :=
  (encode i).extractLsb' 16 16 = 0#16 ∧ opcodeField (encode i) = i.opcode ∧
    (i.wellFormed = true → channelField (encode i) = i.channel)

theorem of_fields (i : Instr) (ho : i.opcode < 256) (hc : i.wellFormed = true → i.channel < 256) :
    Statement i := by
  have hw : (encode i).toNat = i.channel % 256 * 256 + i.opcode := by
    simp only [encode, BitVec.toNat_append, BitVec.toNat_ofNat]
    rw [Nat.zero_shiftLeft, Nat.zero_or, Nat.mod_eq_of_lt (a := i.opcode) (by omega),
      ← Nat.shiftLeft_add_eq_or_of_lt (by omega), Nat.shiftLeft_eq]
  refine ⟨?_, ?_, fun h => ?_⟩
  · apply BitVec.eq_of_toNat_eq
    rw [BitVec.extractLsb'_toNat, hw, Nat.shiftRight_eq_div_pow, BitVec.toNat_ofNat]
    omega
  · rw [opcodeField, BitVec.extractLsb'_toNat, hw, Nat.shiftRight_eq_div_pow]
    omega
  · have := hc h
    rw [channelField, BitVec.extractLsb'_toNat, hw, Nat.shiftRight_eq_div_pow]
    omega

theorem nop : Statement .nop := of_fields _ (by decide) (by decide)
theorem prepare : Statement .prepare := of_fields _ (by decide) (by decide)
theorem setorder : Statement .setorder := of_fields _ (by decide) (by decide)
theorem clrerr : Statement .clrerr := of_fields _ (by decide) (by decide)
theorem dlPush (ch : Nat) : Statement (.dlPush ch) :=
  of_fields _ (by simp [Instr.opcode]) (by simp [Instr.wellFormed, Instr.channel])
theorem dlPop (ch : Nat) : Statement (.dlPop ch) :=
  of_fields _ (by simp [Instr.opcode]) (by simp [Instr.wellFormed, Instr.channel])
theorem dlRun : Statement .dlRun := of_fields _ (by decide) (by decide)
theorem rmBuild : Statement .rmBuild := of_fields _ (by decide) (by decide)
theorem rmApply : Statement .rmApply := of_fields _ (by decide) (by decide)
theorem rmCommit : Statement .rmCommit := of_fields _ (by decide) (by decide)
theorem fbSetcut : Statement .fbSetcut := of_fields _ (by decide) (by decide)
theorem fbRun (ch : Nat) : Statement (.fbRun ch) :=
  of_fields _ (by simp [Instr.opcode]) (by simp [Instr.wellFormed, Instr.channel])
theorem fbRunall : Statement .fbRunall := of_fields _ (by decide) (by decide)

end Sys2Proof.Laws.CommandWord
end

