-- ==== Sys2Proof/Laws/System.lean ====
section
/-! SUPPORT. What the steps of `PREPARE` and `SETORDER` do: the latched registers, the resolved order, the sample
rate. -/

namespace Sys2Proof.Machine

/-- A register that is not negative as `i32` reads the same as `u32`. -/
theorem int_nat {s : State} {r : Reg} (h : 0 ≤ s.int r) : (s.nat r : Int) = s.int r := by
  unfold State.int State.nat asI32 at *
  rw [BitVec.toInt_eq_toNat_cond] at *
  split at h <;> simp_all
  have := (s.reg r).isLt
  omega

/-- `ISqrt` is the floor of the square root. -/
theorem iSqrt_eq (n : Nat) : iSqrt n = Nat.sqrt n := by
  apply Nat.le_antisymm
  · exact Nat.le_sqrt.2 (iSqrt_spec n).1
  · exact le_iSqrt (Nat.sqrt_le n)

theorem iSqrt_pos {n : Nat} (h : 1 ≤ n) : 1 ≤ iSqrt n := le_iSqrt (by omega)

/-- The resolved order as a natural number. -/
theorem workingOrder_eq {s : State} (hi : 1 ≤ s.int .inch) (hn : 1 ≤ s.nat .nchl) (hm : 1 ≤ s.params.nchMax) :
    workingOrder s = resolvedOrder s.params (s.int .inch) (s.int .cfgorder) (s.nat .nchl) := by
  unfold workingOrder resolvedOrder configuredOrder orderMax
  simp only [← iSqrt_eq]
  have h1 := iSqrt_pos (n := (s.int .inch).toNat) (by omega)
  have h2 := iSqrt_pos hn
  have h3 := iSqrt_pos hm
  split
  · have : (s.int .cfgorder).toNat = 0 := by omega
    simp only [this]; omega
  · split <;> omega

theorem resolved_le (p : Params) (i c n) : resolvedOrder p i c n ≤ Nat.sqrt p.nchMax - 1 ∧ resolvedOrder p i c n ≤ Nat.sqrt n - 1 ∧ resolvedOrder p i c n ≤ Nat.sqrt i.toNat - 1 ∧ resolvedOrder p i c n ≤ c.toNat := by
  unfold resolvedOrder; omega

/-- The channel count of an order within `ISqrt(n) - 1` is within `n`. -/
theorem sq_le {o n : Nat} (hn : 1 ≤ n) (h : o ≤ Nat.sqrt n - 1) : (o + 1) * (o + 1) ≤ n := by
  have h1 : 1 ≤ Nat.sqrt n := by rw [← iSqrt_eq]; exact iSqrt_pos hn
  have h2 : o + 1 ≤ Nat.sqrt n := by omega
  exact (Nat.mul_le_mul h2 h2).trans (Nat.sqrt_le n)

/-- What making `o` the working order does (40_system.md R138). -/
structure OrderSet (o : Nat) (s t : State) : Prop where
  order : t.nat .order = o
  n : t.nat .n = (o + 1) * (o + 1)
  matOk : t.status = { s.status with matOk := decide (s.ctrl.xmode = .rotate) }
  mat : s.ctrl.xmode = .rotate → ∀ i j, i < (o+1)*(o+1) → j < (o+1)*(o+1) → t.mat i j = entryOf (rotationAt s o) j i
  touches : Memory.Touches (fun A => s.ctrl.xmode = .rotate ∧ matWords ((o+1)*(o+1)) A) s.mem t.mem
  wcur : t.wcur = s.wcur
  reg : ∀ r, r ≠ .order → r ≠ .n → t.reg r = s.reg r
  params : t.params = s.params
  ctrl : t.ctrl = s.ctrl
  draw : t.draw = s.draw
  pending : t.pending = s.pending
  reply : t.reply = s.reply

theorem setOrder_set {o : Nat} (ho : (o+1)*(o+1) ≤ 64) (s : State) : OrderSet o s (setOrder o s) := by
  have ho8 : o < 8 := by nlinarith
  have e1 : (BitVec.ofInt 32 (o : Int)).toNat = o := by
    interval_cases o <;> decide
  have e2 : (BitVec.ofInt 32 (((o:Int)+1)*((o:Int)+1))).toNat = (o+1)*(o+1) := by
    interval_cases o <;> decide
  unfold setOrder
  generalize ht : ((s.setReg .order (BitVec.ofInt 32 (o:Int))).setReg .n (BitVec.ofInt 32 (((o:Int) + 1) * ((o:Int) + 1)))).setMatOk false = t
  have hto : t.nat .order = o := by subst ht; unfold State.nat; simp; omega
  have htn : t.nat .n = (o+1)*(o+1) := by subst ht; unfold State.nat; simp [e2]
  have htr : ∀ r, r ≠ .order → r ≠ .n → t.reg r = s.reg r := by intro r h1 h2; subst ht; simp [h1, h2]
  have htm : t.mem = s.mem := by subst ht; rfl
  have htw : t.wcur = s.wcur := by subst ht; rfl
  have htc : t.ctrl = s.ctrl := by subst ht; rfl
  have htp : t.params = s.params := by subst ht; rfl
  have htd : t.draw = s.draw := by subst ht; rfl
  have htpe : t.pending = s.pending := by subst ht; rfl
  have htre : t.reply = s.reply := by subst ht; rfl
  have hts : t.status = { s.status with matOk := false } := by subst ht; rfl
  clear ht
  cases hx : s.ctrl.xmode
  · show OrderSet o s (buildRotation t)
    have hm := storeMatrix_stored (rotation t) (n := t.nat .n) (by omega) t
    have hrot : rotation t = rotationAt s o := by
      unfold rotation rotationAt angle State.f32
      rw [htp, hto, htr _ (by decide) (by decide), htr _ (by decide) (by decide), htr _ (by decide) (by decide)]
    unfold buildRotation
    rw [hrot] at hm ⊢
    rw [htn] at hm ⊢
    generalize storeMatrix (rotationAt s o) ((o+1)*(o+1)) t = u at hm
    constructor
    · show u.nat .order = o
      rw [State.nat_of_skeleton hm.skeleton, hto]
    · show u.nat .n = _
      rw [State.nat_of_skeleton hm.skeleton, htn]
    · show { u.status with matOk := true } = _
      rw [State.status_of_skeleton hm.skeleton, hts, hx]; rfl
    · intro _ i j hi hj
      exact hm.mat i j hi hj
    · show Memory.Touches _ s.mem u.mem
      rw [← htm]
      exact hm.touches.mono fun a ha => ⟨hx, ha⟩
    · show u.wcur = _
      rw [hm.wcur, htw]
    · intro r h1 h2
      show u.reg r = _
      rw [State.reg_of_skeleton hm.skeleton, htr r h1 h2]
    · show u.params = _
      rw [State.params_of_skeleton hm.skeleton, htp]
    · show u.ctrl = _
      rw [State.ctrl_of_skeleton hm.skeleton, htc]
    · show u.draw = _
      rw [State.draw_of_skeleton hm.skeleton, htd]
    · show u.pending = _
      rw [State.pending_of_skeleton hm.skeleton, htpe]
    · show u.reply = _
      rw [State.reply_of_skeleton hm.skeleton, htre]
  · show OrderSet o s t
    refine ⟨hto, htn, by rw [hts, hx]; rfl, ?_, by rw [htm]; exact Memory.Touches.refl _ _, htw, htr, htp, htc, htd, htpe, htre⟩
    intro h; rw [hx] at h; cases h

/-- A forced resolution always sets the order. -/
theorem resolveOrder_true (s : State) : resolveOrder true s = setOrder (workingOrder s) s := by
  unfold resolveOrder; simp

/-- The registers `LatchAndClear` leaves (40_system.md R134). -/
theorem latch_reg (s : State) (r : Reg) :
    ((latchAndClear s).setPrepared true).reg r =
      match r with
      | .fs => rn32ofF64 s.draw s.sampleRate
      | .dmaxl => s.reg .maxd
      | .lfomaxl => s.reg .lfomax
      | .nchl => s.reg .nch
      | .blkl => s.reg .blk
      | .nsamp => s.reg .blk
      | .len => BitVec.ofInt 32 (s.int .maxd + s.int .lfomax + 4)
      | .dcur => fclamp (s.reg .dtgt) two32 (f32OfInt (max 2 (s.int .maxd)))
      | .lfoph => zero32
      | .dout => zero32
      | r => s.reg r := by
  rw [State.reg_setPrepared]
  unfold latchAndClear
  have hc : ∀ t : State, (clearSignal t).reg r = t.reg r := fun t => rfl
  have hc' : ∀ t : State, (clearSignal t).f32 .dtgt = t.reg .dtgt := fun t => rfl
  have hc'' : ∀ t : State, (clearSignal t).int .maxd = t.int .maxd := fun t => rfl
  simp only [State.reg_setReg, hc, State.f32, State.int]
  unfold latchSizes
  simp only [State.reg_setReg]
  cases r <;> rfl

/-- A sample rate of at least 40 that is finite in binary32 gives an `FS` of at least 40
(40_system.md R133 h, 10_state.md R66). -/
theorem fs_ge_forty {k : Nat} {d : F64} (h : dGeForty d = true) (hf : fIsFinite (rn32ofF64 k d) = true) :
    fge (rn32ofF64 k d) forty32 = true := by
  unfold dGeForty at h
  simp only [Bool.and_eq_true, Bool.not_eq_true', decide_eq_true_eq] at h
  obtain ⟨⟨h1, h2⟩, h3⟩ := h
  have hm40 : dMag dForty = 0x4044000000000000 := by decide
  rw [hm40] at h3
  have hnan : ∀ x : F32, fIsFinite x = true → fIsNaN x = false := by
    intro x hx; unfold fIsFinite fIsNaN at *; simp at *; omega
  have hn := hnan _ hf
  unfold rn32ofF64 at hf hn ⊢
  rw [h1] at hf hn ⊢
  simp only [Bool.false_eq_true, if_false, h2] at hf hn ⊢
  by_cases hi : dMag d = dInfMag
  · rw [if_pos hi] at hf; exact absurd hf (by decide)
  · rw [if_neg hi] at hf hn ⊢
    have hinf : dMag d ≤ dInfMag := by
      unfold dIsNaN at h1; simpa using h1
    refine fge_iff.2 ⟨hn, by decide, ?_⟩
    have hsig : ∀ n, n < 2^31 → fInt (packF32 false n) = magUnits n := by
      intro n hn'
      unfold fInt fUnits
      rw [fSign_packF32 _ hn', fMag_packF32 _ hn']; simp
    rw [hsig _ (roundUnits_lt_sign _ _)]
    have h40 : fInt forty32 = magUnits (fMag forty32) := by decide
    rw [h40]
    have : fMag forty32 ≤ roundUnits (dUnits (dMag d)).1 (dUnits (dMag d)).2 := by
      have e40 : magUnits (fMag forty32) = 40 * 2 ^ 149 := by decide
      generalize dMag d = mag at *
      have he : 1028 ≤ mag / 2^52 := by omega
      unfold dUnits
      have hmax : max (mag / 2^52) 1 = mag / 2^52 := by omega
      simp only [hmax, show 926 ≤ mag / 2^52 by omega, if_true, show ¬ (mag / 2^52 = 0) by omega, if_false]
      refine le_roundUnits (by norm_num) (by decide) ?_
      rw [e40, Nat.mul_one]
      rcases Nat.lt_or_ge (mag / 2^52) 1029 with h | h
      · have : mag / 2^52 = 1028 := by omega
        rw [this]
        have : 2^50 ≤ mag % 2^52 := by omega
        calc 40 * 2^149 = (2^52 + 2^50) * 2^102 := by norm_num
          _ ≤ _ := Nat.mul_le_mul_right _ (by omega)
      · calc 40 * 2^149 ≤ 2^52 * 2^103 := by norm_num
          _ ≤ (2^52 + mag % 2^52) * 2^(mag/2^52 - 926) := Nat.mul_le_mul (by omega) (Nat.pow_le_pow_right (by norm_num) (by omega))
    exact_mod_cast magUnits_le_iff.2 this

/-- The registers `ComputeCoefficients` leaves (43_filter_bank.md R212). -/
theorem computeCoefficients_reg (s : State) (r : Reg) :
    (computeCoefficients s).reg r =
      match r with
      | .hphzc => cutoff s .hphz
      | .lphzc => cutoff s .lphz
      | .hpb0 => (stageCoefs s .hp .hphz).b0
      | .hpb1 => (stageCoefs s .hp .hphz).b1
      | .hpb2 => (stageCoefs s .hp .hphz).b2
      | .hpa1 => (stageCoefs s .hp .hphz).a1
      | .hpa2 => (stageCoefs s .hp .hphz).a2
      | .lpb0 => (stageCoefs s .lp .lphz).b0
      | .lpb1 => (stageCoefs s .lp .lphz).b1
      | .lpb2 => (stageCoefs s .lp .lphz).b2
      | .lpa1 => (stageCoefs s .lp .lphz).a1
      | .lpa2 => (stageCoefs s .lp .lphz).a2
      | r => s.reg r := by
  unfold computeCoefficients State.setHp State.setLp
  simp only [State.reg_setReg]
  cases r <;> rfl

/-- `ComputeCoefficients` changes registers alone. -/
theorem computeCoefficients_rest (s : State) :
    (computeCoefficients s).params = s.params ∧ (computeCoefficients s).ctrl = s.ctrl ∧
    (computeCoefficients s).status = s.status ∧ (computeCoefficients s).wcur = s.wcur ∧
    (computeCoefficients s).mem = s.mem ∧ (computeCoefficients s).draw = s.draw ∧
    (computeCoefficients s).pending = s.pending ∧ (computeCoefficients s).reply = s.reply := by
  unfold computeCoefficients State.setHp State.setLp
  simp only [State.setReg_params, State.setReg_ctrl, State.setReg_status, State.setReg_wcur, State.setReg_mem, State.setReg_draw, State.setReg_pending, State.setReg_reply, and_self]

/-- What else `LatchAndClear` and the setting of `PREPARED` leave (40_system.md R132, R134). -/
theorem latch_rest (s : State) :
    ((latchAndClear s).setPrepared true).params = s.params ∧ ((latchAndClear s).setPrepared true).ctrl = s.ctrl ∧
    ((latchAndClear s).setPrepared true).status = { s.status with prepared := true } ∧
    ((latchAndClear s).setPrepared true).wcur = Vector.replicate 64 0#32 ∧
    ((latchAndClear s).setPrepared true).mem = s.mem.clearSignal ∧ ((latchAndClear s).setPrepared true).draw = s.draw ∧
    ((latchAndClear s).setPrepared true).pending = s.pending ∧ ((latchAndClear s).setPrepared true).reply = s.reply := by
  have h : ∀ t : State, (clearSignal t).params = t.params ∧ (clearSignal t).ctrl = t.ctrl ∧
      (clearSignal t).status = t.status ∧ (clearSignal t).wcur = Vector.replicate 64 0#32 ∧
      (clearSignal t).mem = t.mem.clearSignal ∧ (clearSignal t).draw = t.draw ∧
      (clearSignal t).pending = t.pending ∧ (clearSignal t).reply = t.reply := by
    intro t
    unfold clearSignal
    exact ⟨rfl, rfl, rfl, rfl, rfl, rfl, rfl, rfl⟩
  obtain ⟨h1, h2, h3, h4, h5, h6, h7, h8⟩ := h (latchSizes s)
  unfold latchAndClear
  rw [State.setPrepared_params, State.setPrepared_ctrl, State.setPrepared_wcur, State.setPrepared_mem,
    State.setPrepared_draw, State.setPrepared_pending, State.setPrepared_reply]
  simp only [State.setReg_params, State.setReg_ctrl, State.setReg_wcur, State.setReg_mem,
    State.setReg_draw, State.setReg_pending, State.setReg_reply, h1, h2, h4, h5, h6, h7, h8]
  unfold State.setPrepared
  simp only [State.setReg_status, h3]
  unfold latchSizes
  simp only [State.setReg_params, State.setReg_ctrl, State.setReg_status, State.setReg_mem,
    State.setReg_draw, State.setReg_pending, State.setReg_reply, and_self]

/-- `PrepareArgsValid()` is the eight conditions of 40_system.md R133. -/
theorem prepareArgsValid_iff (s : State) : prepareArgsValid s = true ↔ PrepareValid s := by
  unfold prepareArgsValid
  simp only [Bool.and_eq_true, decide_eq_true_eq]
  constructor
  · rintro ⟨⟨⟨⟨⟨⟨⟨h1, h2⟩, h3⟩, h4⟩, h5⟩, h6⟩, h7⟩, h8⟩
    exact ⟨h1, h2, h3, h4, h5, h6, h7, h8⟩
  · rintro ⟨h1, h2, h3, h4, h5, h6, h7, h8⟩
    exact ⟨⟨⟨⟨⟨⟨⟨h1, h2⟩, h3⟩, h4⟩, h5⟩, h6⟩, h7⟩, h8⟩

/-- The bounds of 00_scope.md R8. -/
theorem Params.bounds {p : Params} (h : p.wellFormed = true) : p.nchMax ≤ 64 ∧ 1 ≤ p.nchMax ∧ p.bmax ≤ 0x4000 ∧ p.lmax ≤ 0x100000 := by
  simp only [Params.wellFormed, Params.squares, Bool.and_eq_true, decide_eq_true_eq,
    List.contains_iff_mem, List.mem_cons, List.not_mem_nil, or_false] at h
  omega

end Sys2Proof.Machine
end

