-- ==== Sys2Proof/Tests/Slice0.lean ====
section
/-! SUPPORT. The model's own tests: ill-formed terms that WellFormed refuses, words written out from
30_encoding.md R111 and R114, single steps with the results of 95_test_vectors.md, and for every obligation
with hypotheses a state that meets them. -/

namespace Sys2Proof.Machine

-- one test after the other: each evaluation takes a thread of its own otherwise
set_option Elab.async false

/-! ## WellFormed -/

theorem test_push_channel_256_ill : (Instr.dlPush 256).wellFormed = false := by decide
theorem test_pop_channel_256_ill : (Instr.dlPop 256).wellFormed = false := by decide
theorem test_filter_channel_256_ill : (Instr.fbRun 256).wellFormed = false := by decide
theorem test_channel_255_well : (Instr.fbRun 255).wellFormed = true := by decide
theorem test_default_params_well : Params.default.wellFormed = true := by decide
theorem test_nchmax_3_ill : { Params.default with nchMax := 3 }.wellFormed = false := by decide
theorem test_nchmax_0_ill : { Params.default with nchMax := 0 }.wellFormed = false := by decide
theorem test_nchmax_100_ill : { Params.default with nchMax := 100 }.wellFormed = false := by decide
theorem test_bmax_0_ill : { Params.default with bmax := 0 }.wellFormed = false := by decide
theorem test_bmax_16385_ill : { Params.default with bmax := 16385 }.wellFormed = false := by decide
theorem test_lmax_4_ill : { Params.default with lmax := 4 }.wellFormed = false := by decide
theorem test_lmax_large_ill : { Params.default with lmax := 1048577 }.wellFormed = false := by decide
theorem test_rottol_0_ill : { Params.default with rotTol := 0 }.wellFormed = false := by decide
theorem test_coeftol_0_ill : { Params.default with coefTol := 0 }.wellFormed = false := by decide

/-! ## Decoding: each word is its opcode byte, the channel in bits 15:8, zero above (30_encoding.md R114) -/

theorem test_word_nop : decode 0x00000001#32 = .ok .nop := by decide
theorem test_word_prepare : decode 0x00000002#32 = .ok .prepare := by decide
theorem test_word_setorder : decode 0x00000003#32 = .ok .setorder := by decide
theorem test_word_clrerr : decode 0x00000004#32 = .ok .clrerr := by decide
theorem test_word_dlpush : decode 0x00000510#32 = .ok (.dlPush 5) := by decide
theorem test_word_dlpop : decode 0x0000FF11#32 = .ok (.dlPop 255) := by decide
theorem test_word_dlrun : decode 0x00000012#32 = .ok .dlRun := by decide
theorem test_word_rmbuild : decode 0x00000020#32 = .ok .rmBuild := by decide
theorem test_word_rmapply : decode 0x00000021#32 = .ok .rmApply := by decide
theorem test_word_rmcommit : decode 0x00000022#32 = .ok .rmCommit := by decide
theorem test_word_fbsetcut : decode 0x00000030#32 = .ok .fbSetcut := by decide
theorem test_word_fbrun : decode 0x00000331#32 = .ok (.fbRun 3) := by decide
theorem test_word_fbrunall : decode 0x00000032#32 = .ok .fbRunall := by decide
theorem test_word_zero_illegal : decode 0x00000000#32 = .error .unknownOpcode := by decide
theorem test_word_ones_illegal : decode 0xFFFFFFFF#32 = .error .unknownOpcode := by decide
theorem test_word_reserved_z_illegal : decode 0x00000112#32 = .error .reservedField := by decide
theorem test_word_reserved_c_illegal : decode 0x00010010#32 = .error .reservedField := by decide
theorem test_table_word : decodeTableWord 32 0x210 = some (.dlPush 2) := by decide

/-! ## A small device -/

/-- The state a result goes on with. -/
def after : Result → Option State
  | .next t => some t
  | .fault _ => none
  | .refused _ => none

/-- Write registers one after the other. -/
def withRegs (s : State) (l : List (Reg × Word)) : State := l.foldl (fun t p => t.setReg p.1 p.2) s

/-- 4 channels at most, blocks of 8, delay buffers of 14 slots. -/
def smallParams : Params where
  nchMax := 4
  bmax := 8
  lmax := 14
  rotTol := 2 ^ 44
  coefTol := 2 ^ 44
  realisation := 0

/-- The arguments of 95_test_vectors.md T20, first row, but with four channels and `CFGORDER` 1; the sizes are
the largest the small device takes. -/
def fresh : State :=
  withRegs { State.reset with params := smallParams }
    [(.srHi, 0x40E77000#32), (.maxd, 8#32), (.lfomax, 2#32), (.nch, 4#32), (.blk, 8#32), (.inch, 4#32),
      (.cfgorder, 1#32), (.dtgt, 0x40800000#32)]

/-- A prepared device: `LEN` 14, `N` 4, two samples to a block, channel 1 at its last slot. -/
def demo : State :=
  (withRegs { fresh with
      status := { prepared := true, err := false, matOk := false, errCode := 0#4 }
      mem := { cells := [], seed := 0, fstCleared := true } }
    [(.fs, 0x473B8000#32), (.dmaxl, 8#32), (.lfomaxl, 2#32), (.len, 14#32), (.nchl, 4#32), (.blkl, 8#32),
      (.nsamp, 2#32), (.order, 1#32), (.n, 4#32), (.dcur, 0x40000000#32),
      (.hpb0, 0x3F800000#32), (.lpb0, 0x3F000000#32), (.lpb1, 0x3F000000#32),
      (.lpa1, 0xBF000000#32)]).setCursor 1 13

/-- `demo` in Warp mode. -/
def demoWarp : State := { demo with ctrl := { demo.ctrl with xmode := .warp } }

/-- `demo` with a committed matrix. -/
def demoReady : State := demo.setMatOk true

/-- `demo` with a recorded error. -/
def demoErr : State := demo.raise .channelOutOfRange 0x00000411#32

/-- `demo` with its mono order. -/
def demoMono : State := withRegs demo [(.order, 0#32), (.n, 1#32), (.cfgorder, 0#32)]

/-- `demo` with an impulse pushed three pushes ago on channel 0. -/
def demoImpulse : State := (demo.setBuf 0 0 one32).setCursor 0 3

/-- `demo` with the block `[1, 0]` in channel 0. -/
def demoBlock : State := ((demo.setCb 0 0 one32).setCb 0 1 zero32)

/-- `demoBlock` with one channel at work. -/
def demoBlockMono : State := withRegs demoBlock [(.order, 0#32), (.n, 1#32)]

/-- The prepared sizes of a state that a bounded check shows. -/
theorem demo_sizes : SizesOk demo where
  dmaxl_pos := by decide
  nchl_pos := by decide
  nchl_le := by decide
  blkl_pos := by decide
  blkl_le := by decide
  len_eq := by decide
  len_le := by decide
  cursor_lt := by decide
  nsamp_pos := by decide
  nsamp_le := by decide
  order_le := by decide
  n_eq := by decide
  n_le := by decide
  fs_finite := by decide
  fs_ge := by decide

/-! ## Single steps -/

/-- After reset, `NOP` leaves `CMD = 1` and `CMDCNT = 1` (40_system.md R130). -/
theorem test_nop_counts :
    (after (step (State.reset.withFetchWord 32 0x01))).map (fun t => (t.reg .cmd, t.reg .cmdcnt)) = some (1#32, 1#32) := by
  decide

/-- `LEN`, `N`, `FS` (95_test_vectors.md T20). -/
theorem test_prepare_sizes :
    (after (exec .prepare fresh)).map (fun t => (t.reg .len, t.reg .n, t.reg .fs)) = some (14#32, 4#32, 0x473B8000#32) := by
  decide +kernel

/-- `MAXD = 0` gives `STATUS = 0x12`, `ERRINFO = 2` (T60). -/
theorem test_prepare_invalid :
    (after (exec .prepare (fresh.setReg .maxd 0#32))).map (fun t => (t.status.word, t.reg .errinfo)) = some (0x12#32, 2#32) := by
  decide

/-- `INCH = 9`, `CFGORDER = -2` gives order 0 (T22). -/
theorem test_setorder_9_neg2 :
    (after (exec .setorder (withRegs demo [(.inch, 9#32), (.cfgorder, 0xFFFFFFFE#32)]))).map (fun t => (t.reg .order, t.reg .n)) = some (0#32, 1#32) := by
  decide +kernel

/-- `STATUS` 0x47 becomes 0x05 (T23). -/
theorem test_clrerr_0x47 :
    (after (exec .clrerr (demoErr.setMatOk true))).map (fun t => (t.status.word, t.reg .errinfo)) = some (5#32, 0#32) := by
  decide

/-- The cursor goes from the last slot to 0 and the pattern is stored as it is (41_delay_line.md R151). -/
theorem test_push_wraps :
    (after (exec (.dlPush 1) (demo.setReg .din 0x7F800001#32))).map (fun t => (t.cursor 1, t.buf 1 13, t.reg .cmdcnt)) = some (0, 0x7F800001#32, 1#32) := by
  decide

/-- Channel `NCHL` gives code 4 and keeps the word (T60). -/
theorem test_push_outside :
    (after (exec (.dlPush 4) demo)).map (fun t => (t.status.word, t.reg .errinfo)) = some (0x43#32, 0x410#32) := by
  decide

/-- The impulse read at 2.5 (T31). -/
theorem test_pop_half :
    (after (exec (.dlPop 0) (demoImpulse.setReg .dly 0x40200000#32))).map (fun t => t.reg .dout) = some 0x3F100000#32 := by
  decide +kernel

/-- The impulse read at 3.25 (T31). -/
theorem test_pop_quarter :
    (after (exec (.dlPop 0) (demoImpulse.setReg .dly 0x40500000#32))).map (fun t => t.reg .dout) = some 0x3F520000#32 := by
  decide +kernel

/-- `d = 2.0` delays by one sample (T37), and the cursor moves by the block. -/
theorem test_run_latency :
    (after (exec .dlRun (demoBlockMono.setReg .dtgt two32))).map (fun t => (t.cb 0 0, t.cb 0 1, t.cursor 0)) = some (zero32, one32, 2) := by
  decide +kernel

/-- Zero angles give 1.0 at `(0, 0)` (42_rotation.md R187) and `MAT_OK`. -/
theorem test_build_identity :
    (after (exec .rmBuild demoMono)).map (fun t => (t.mat 0 0, t.status.matOk)) = some (one32, true) := by
  decide +kernel

/-- `out[j] = Σ v[i]·MAT[i][j]`: -1.0 at `MAT[0][0]` negates (T43). -/
theorem test_apply_orientation :
    (after (exec .rmApply ((demoBlockMono.setMat 0 0 0xBF800000#32).setMatOk true))).map (fun t => t.cb 0 0) = some 0xBF800000#32 := by
  decide +kernel

/-- Warp mode without a matrix gives code 5 (T60). -/
theorem test_apply_warp_fault :
    (after (exec .rmApply demoWarp)).map (fun t => (t.status.word, t.reg .errinfo)) = some (0x53#32, 0x21#32) := by
  decide

/-- `MAT_OK` is set and `CMDCNT` counts (42_rotation.md R193). -/
theorem test_commit :
    (after (exec .rmCommit demoWarp)).map (fun t => (t.status.word, t.reg .cmdcnt)) = some (5#32, 1#32) := by
  decide

/-- 5.0 and 30000.0 become 20.0 and 24000.0 (T50). -/
theorem test_setcut_clamps :
    (after (exec .fbSetcut (withRegs demo [(.hphz, 0x40A00000#32), (.lphz, 0x46EA6000#32)]))).map (fun t => (t.reg .hphzc, t.reg .lphzc)) = some (0x41A00000#32, 0x46BB8000#32) := by
  decide +kernel

/-- The first two outputs of T52. -/
theorem test_filter_block :
    (after (exec (.fbRun 0) demoBlock)).map (fun t => (t.cb 0 0, t.cb 0 1)) = some (0x3F000000#32, 0x3F400000#32) := by
  decide +kernel

/-- `FB.RUNALL` filters channel 0 as `FB.RUN 0` does and counts once (43_filter_bank.md R219). -/
theorem test_filter_all :
    (after (exec .fbRunall demoBlockMono)).map (fun t => (t.cb 0 1, t.fst 0 2, t.reg .cmdcnt)) = some (0x3F400000#32, 0x3EC00000#32, 1#32) := by
  decide +kernel

/-- A reserved bit gives code 2 with the word (T60). -/
theorem test_illegal_reserved :
    (after (step { State.reset with pending := [commandWrite 0x112#32] })).map (fun t => (t.status.word, t.reg .errinfo)) = some (0x22#32, 0x112#32) := by
  decide

/-- `DL.RUN` after reset gives `STATUS = 0x32`, `ERRINFO = 0x12` (T60). -/
theorem test_unprepared :
    (after (step (State.reset.withFetchWord 32 0x12))).map (fun t => (t.status.word, t.reg .errinfo)) = some (0x32#32, 0x12#32) := by
  decide

/-- `ID` (10_state.md R41). -/
theorem test_bus_read_id :
    (after (step { State.reset with pending := [.read 0#27] })).map (fun t => t.reply) = some (some (.data 0x4D444C01#32)) := by
  decide

/-- A read between the windows is a bus fault (20_memory.md R81). -/
theorem test_bus_fault_hole :
    (after (step { State.reset with pending := [.read 0x100#27] })).map (fun t => t.reply) = some (some .busFault) := by
  decide

/-! ## Witnesses: for every obligation with hypotheses, states and operands that meet them

Clauses of one statement are met each, at the ends of their ranges. -/

theorem demo_inv : StateInv demo :=
  ⟨by decide, by decide, ⟨fun _ => by decide, fun h => absurd h (by decide)⟩, fun _ => demo_sizes⟩

theorem witness_DecodeInvertsEncode :
    (Instr.dlPush 0).wellFormed = true ∧ (Instr.fbRun 255).wellFormed = true := by decide

theorem witness_EncodeInvertsDecode : decode 0x0000FF11#32 = .ok (.dlPop 255) := by decide

theorem witness_DecodeFollowsOpcodeTable :
    ((0xFFFF00FF#32, 0x31#32, Instr.fbRun) ∈ opcodeRows ∧ 0x0000FF31#32 &&& 0xFFFF00FF#32 = 0x31#32) ∧
      ∀ row ∈ opcodeRows, 0x00010031#32 &&& row.1 ≠ row.2.1 := by
  refine ⟨⟨by simp [opcodeRows], by decide⟩, ?_⟩
  simp [opcodeRows]

/-- The bus write of a word to `CMD`, then a read of `STATUS`. -/
def issue (s : State) (w : Word) : State := { s with pending := [commandWrite w, .read 2#27] }

theorem witness_StepRunsDecodedCommand :
    (issue demo 0x310#32).pending = commandWrite 0x310#32 :: [.read 2#27] ∧
      decode 0x310#32 = .ok (.dlPush 3) := ⟨rfl, by decide⟩

theorem witness_IllegalWordIsRecorded :
    (issue demo 0x112#32).pending = commandWrite 0x112#32 :: [.read 2#27] ∧
      ∀ row ∈ opcodeRows, 0x112#32 &&& row.1 ≠ row.2.1 := ⟨rfl, by simp [opcodeRows]⟩

theorem witness_UnpreparedCommandFaults :
    Instr.dlRun ∉ runsUnprepared ∧ Instr.dlPush 200 ∉ runsUnprepared ∧
      State.reset.status.prepared = false := by decide

theorem witness_ChannelOutsideFaults :
    demo.status.prepared = true ∧ demo.nat .nchl ≤ 4 ∧ demo.nat .nchl ≤ 255 := by decide

theorem witness_WarpWithoutMatrixFaults :
    (demoWarp.status.prepared = true ∧ demoWarp.status.matOk = false ∧ demoWarp.ctrl.xmode = .warp) ∧
      demo.status.prepared = true ∧ demo.status.matOk = false ∧ demo.ctrl.xmode = .rotate ∧ StateInv demo ∧
        3 < demo.nat .n :=
  ⟨by decide, by decide, by decide, by decide, demo_inv, by decide⟩

/-- No argument is set; and one slot too many. -/
theorem witness_InvalidPrepareFaults :
    ¬ PrepareValid State.reset ∧ ¬ PrepareValid (fresh.setReg .maxd 9#32) :=
  ⟨fun h => absurd h.maxd (by decide), fun h => absurd h.len (by decide)⟩

theorem witness_SetorderWithoutInputsFaults :
    (demo.setReg .inch 0#32).status.prepared = true ∧ (demo.setReg .inch 0#32).int .inch ≤ 0 ∧
      (demo.setReg .inch 0xFFFFFFFF#32).int .inch ≤ 0 := by decide

theorem witness_RecordGatesNothing : demoErr.status.err = true ∧ Instr.dlPush 4 ≠ .clrerr := by decide

theorem witness_OnlyPrepareChangesPrepared : Instr.setorder ≠ .prepare := by decide

theorem fresh_valid : PrepareValid fresh where
  maxd := by decide
  nch := by decide
  inch := by decide
  nch_max := by decide
  blk := by decide
  lfomax := by decide
  len := by decide
  sr := by decide

theorem witness_PrepareLatches : fresh.params.wellFormed = true ∧ PrepareValid fresh :=
  ⟨by decide, fresh_valid⟩

/-- `fresh` in Warp mode. -/
def freshWarp : State := { fresh with ctrl := { fresh.ctrl with xmode := .warp } }

theorem witness_PrepareClears :
    (fresh.params.wellFormed = true ∧ PrepareValid fresh ∧ fresh.ctrl.xmode = .rotate) ∧
      PrepareValid freshWarp ∧ freshWarp.ctrl.xmode = .warp :=
  ⟨⟨by decide, fresh_valid, rfl⟩, ⟨fresh_valid.maxd, fresh_valid.nch, fresh_valid.inch, fresh_valid.nch_max,
    fresh_valid.blk, fresh_valid.lfomax, fresh_valid.len, fresh_valid.sr⟩, rfl⟩

/-- `demo` with another register value, where the invariant does not speak of the register. -/
theorem demo_setReg_inv {r : Reg} (h : r ∉ invRegs) (v : Word) : StateInv (demo.setReg r v) :=
  demo_inv.setReg r v h

/-- `demo` asked for order 0, in Rotate mode and in Warp mode. -/
def demoLower : State := demo.setReg .cfgorder 0#32

/-- `demoLower` in Warp mode. -/
def demoLowerWarp : State := demoWarp.setReg .cfgorder 0#32

theorem witness_SetorderChangesOrder :
    (StateInv demoLower ∧ demoLower.status.prepared = true ∧ 1 ≤ demoLower.int .inch ∧
      resolvedOrder demoLower.params (demoLower.int .inch) (demoLower.int .cfgorder) (demoLower.nat .nchl) ≠
        demoLower.nat .order ∧ demoLower.ctrl.xmode = .rotate) ∧
    (StateInv demoLowerWarp ∧ demoLowerWarp.status.prepared = true ∧ 1 ≤ demoLowerWarp.int .inch ∧
      resolvedOrder demoLowerWarp.params (demoLowerWarp.int .inch) (demoLowerWarp.int .cfgorder)
        (demoLowerWarp.nat .nchl) ≠ demoLowerWarp.nat .order ∧ demoLowerWarp.ctrl.xmode = .warp) := by
  refine ⟨⟨demo_setReg_inv (by decide) _, by decide, by decide, ?_, rfl⟩, ?_, by decide, by decide, ?_, rfl⟩
  · simp only [resolvedOrder, ← iSqrt_eq]
    decide
  · exact (demo_inv.transport (t := demoWarp) rfl demo_inv.mem_wf rfl rfl rfl (fun _ _ => rfl)
      (fun _ => demo_sizes.cursor_lt)).setReg _ _ (by decide)
  · simp only [resolvedOrder, ← iSqrt_eq]
    decide

theorem witness_SetorderKeepsOrder :
    demo.status.prepared = true ∧ 1 ≤ demo.int .inch ∧ 1 ≤ demo.nat .nchl ∧ 1 ≤ demo.params.nchMax ∧
      resolvedOrder demo.params (demo.int .inch) (demo.int .cfgorder) (demo.nat .nchl) = demo.nat .order := by
  refine ⟨by decide, by decide, by decide, by decide, ?_⟩
  simp only [resolvedOrder, ← iSqrt_eq]
  decide

theorem witness_WorkingOrderIsBounded :
    StateInv (demo.setReg .inch 1#32) ∧ (demo.setReg .inch 1#32).status.prepared = true ∧
      1 ≤ (demo.setReg .inch 1#32).int .inch := ⟨demo_setReg_inv (by decide) _, by decide, by decide⟩

/-- Channel 0 is inside its buffer, channel 1 at its last slot. -/
theorem witness_PushStoresAtCursor :
    StateInv demo ∧ demo.status.prepared = true ∧ 3 < demo.nat .nchl ∧
      demo.cursor 0 + 1 ≠ demo.nat .len ∧ demo.cursor 1 + 1 = demo.nat .len :=
  ⟨demo_inv, by decide, by decide, by decide, by decide⟩

/-- The latest push, and the one that is `LEN` pushes old. -/
theorem witness_PushedSampleLiesBehindCursor :
    StateInv demo ∧ demo.status.prepared = true ∧ 1 < demo.nat .nchl ∧ 1 ≤ demo.nat .len ∧
      14 ≤ demo.nat .len ∧ 14 ≤ (List.replicate 14 one32).length :=
  ⟨demo_inv, by decide, by decide, by decide, by decide, by decide⟩

theorem witness_PopReadsInterpolated : demo.status.prepared = true ∧ 3 < demo.nat .nchl := by decide

theorem witness_TapsAreSafe : StateInv demo ∧ demo.status.prepared = true ∧ 3 < demo.nat .nchl :=
  ⟨demo_inv, by decide, by decide⟩

/-- `demoImpulse` asked for an integer delay. -/
def demoDelay (d : Nat) : State := demoImpulse.setReg .dly (f32OfInt d)

/-- The least and the greatest delay, over zeros, and the delay of the impulse. -/
theorem witness_IntegerDelayReadsSample :
    StateInv (demoDelay 2) ∧ StateInv (demoDelay 3) ∧ StateInv (demoDelay 10) ∧
      (demoDelay 2).status.prepared = true ∧ (demoDelay 2).params.realisation = 0 ∧
      0 < (demoDelay 2).nat .nchl ∧ 10 ≤ max 2 ((demoDelay 10).nat .dmaxl + (demoDelay 10).nat .lfomaxl) ∧
      (∀ t ∈ [1, 2, 3, 4], fIsFinite (tap (demoDelay 2) 0 t) = true) ∧
      (∀ t ∈ [2, 3, 4, 5], fIsFinite (tap (demoDelay 3) 0 t) = true) ∧
      (∀ t ∈ [9, 10, 11, 12], fIsFinite (tap (demoDelay 10) 0 t) = true) ∧
      fMag (tap (demoDelay 3) 0 3) ≠ 0 ∧ fMag (tap (demoDelay 2) 0 2) = 0 := by
  have h : StateInv demoImpulse :=
    StateInv.transport (StateInv.store demo_inv (bufAddr 0 0) one32) rfl
      (StateInv.store demo_inv (bufAddr 0 0) one32).mem_wf rfl rfl rfl (fun _ _ => rfl) (fun _ => by decide)
  refine ⟨h.setReg _ _ (by decide), h.setReg _ _ (by decide), h.setReg _ _ (by decide), ?_⟩
  decide +kernel

theorem witness_EmptyBufferReadsZero :
    fresh.params.wellFormed = true ∧ fresh.params.realisation = 0 ∧ PrepareValid fresh ∧ 3 < fresh.nat .nch :=
  ⟨by decide, rfl, fresh_valid, by decide⟩

/-- The first and the last sample and channel of the block; the latest slot and the oldest. -/
theorem witness_RunReadsDelayedHistory :
    StateInv demo ∧ demo.status.prepared = true ∧ 0 < demo.nat .n ∧ 3 < demo.nat .n ∧ 0 < demo.nat .nsamp ∧
      1 < demo.nat .nsamp ∧ 1 ≤ demo.nat .len ∧ 14 ≤ demo.nat .len :=
  ⟨demo_inv, by decide, by decide, by decide, by decide, by decide, by decide, by decide⟩

/-- `demo` in one-pole mode. -/
def demoPole : State := { demo with ctrl := { demo.ctrl with smode := .onePole } }

theorem demoPole_inv : StateInv demoPole :=
  demo_inv.transport rfl demo_inv.mem_wf rfl rfl rfl (fun _ _ => rfl) (fun _ => demo_sizes.cursor_lt)

/-- Both modes; in ramp mode a sample before the last and the last. The other premises name values. -/
theorem witness_RunEndsOnTarget :
    (StateInv demo ∧ demo.status.prepared = true ∧ demo.ctrl.smode = .ramp ∧ 0 + 1 ≠ demo.nat .nsamp ∧
        1 + 1 = demo.nat .nsamp) ∧
      StateInv demoPole ∧ demoPole.status.prepared = true ∧ demoPole.ctrl.smode = .onePole :=
  ⟨⟨demo_inv, by decide, rfl, by decide, by decide⟩, demoPole_inv, by decide, rfl⟩

theorem witness_EffectiveDelayIsClamped : StateInv demo ∧ demo.status.prepared = true := ⟨demo_inv, by decide⟩

theorem witness_BuildStoresRotation :
    StateInv demo ∧ demo.status.prepared = true ∧ 0 < demo.nat .n ∧ 3 < demo.nat .n :=
  ⟨demo_inv, by decide, by decide, by decide⟩

theorem witness_RotationIsIdentityAtZero :
    fMag zero32 = 0 ∧ fMag 0x80000000#32 = 0 ∧ (0 : Nat) < (7 + 1) * (7 + 1) ∧ 63 < (7 + 1) * (7 + 1) := by decide

/-- Channels of different degree, and channel 0. -/
theorem witness_RotationIsBlockDiagonal :
    (1 : Nat) < (1 + 1) * (1 + 1) ∧ (0 : Nat) < (1 + 1) * (1 + 1) ∧ Nat.sqrt 1 ≠ Nat.sqrt 0 := by
  refine ⟨by decide, by decide, ?_⟩
  rw [← iSqrt_eq, ← iSqrt_eq]
  decide

theorem witness_ApplyMultipliesBlock :
    StateInv demoReady ∧ demoReady.status.prepared = true ∧ demoReady.status.matOk = true ∧
      3 < demoReady.nat .n ∧ 1 < demoReady.nat .nsamp :=
  ⟨demo_inv.setMatOk true, by decide, by decide, by decide, by decide⟩

theorem witness_ApplyRebuildsInRotate :
    demo.status.prepared = true ∧ demo.ctrl.xmode = .rotate ∧ demo.status.matOk = false := by decide

theorem witness_CommitMarksMatrix : demoWarp.status.prepared = true ∧ demo.status.prepared = true := by decide

theorem witness_SetcutStoresCoefficients : demo.status.prepared = true := by decide

theorem witness_CutoffIsClamped : StateInv demo ∧ demo.status.prepared = true := ⟨demo_inv, by decide⟩

theorem witness_FilterRunsRecurrence :
    StateInv demo ∧ demo.status.prepared = true ∧ 3 < demo.nat .nchl ∧ 1 < demo.nat .nsamp :=
  ⟨demo_inv, by decide, by decide, by decide⟩

theorem witness_RunallFiltersWorkingChannels :
    StateInv demo ∧ demo.status.prepared = true ∧ 3 < demo.nat .n ∧ 1 < demo.nat .nsamp :=
  ⟨demo_inv, by decide, by decide, by decide⟩

theorem witness_RunallIsEveryFilterRun : StateInv demo ∧ demo.status.prepared = true := ⟨demo_inv, by decide⟩

/-- The first and last address of each window, and the last element of each that exists. -/
theorem witness_AddressMapIsExact :
    StateInv demo ∧ target demo 0xFF = .reg 0xFF ∧ target demo 0x100 = .unmapped ∧
      target demo 0x10C3 = .mat 3 3 ∧ target demo 0x10C4 = .unmapped ∧ target demo 0x200F = .fst 3 3 ∧
      target demo 0x2010 = .unmapped ∧ target demo 0x10C007 = .cb 3 7 ∧ target demo 0x10C008 = .unmapped ∧
      target demo 0x430000D = .buf 3 13 ∧ target demo 0x430000E = .unmapped ∧
      target State.reset 0x4000000 = .unmapped :=
  ⟨demo_inv, by decide, by decide, by decide, by decide, by decide, by decide, by decide, by decide, by decide,
    by decide, by decide⟩

theorem witness_ReadAnswersElement :
    { demo with pending := [.read 0x430000D#27] }.pending = .read 0x430000D#27 :: [] := rfl

theorem witness_RegisterMapReads : StateInv demo ∧ 3 < demo.params.nchMax ∧ 0x40 + demo.params.nchMax ≤ 0xFF :=
  ⟨demo_inv, by decide, by decide⟩

/-- `demo` with one transaction to take. -/
def demoOp (op : BusOp) : State := { demo with pending := [op] }

theorem demoOp_inv (op : BusOp) : StateInv (demoOp op) :=
  demo_inv.transport rfl demo_inv.mem_wf rfl rfl rfl (fun _ _ => rfl) (fun _ => demo_sizes.cursor_lt)

/-- A plain register; a read-only one; the first and last reserved index above the matrix angles. -/
theorem witness_RegisterWrites :
    StateInv (demoOp (.write 0x31#27 7#32)) ∧
      (demoOp (.write 0x31#27 7#32)).pending = .write 0x31#27 7#32 :: [] ∧
      (0x31#27).toNat = Reg.lpa2.index ∧ (0x37#27).toNat = 0x37 ∧ (0xFF#27).toNat ≤ 0xFF :=
  ⟨demoOp_inv _, rfl, by decide, by decide, by decide⟩

theorem witness_CtrlWrite :
    (demoOp (.write 0x01#27 0xFFFFFFFF#32)).pending = .write 0x01#27 0xFFFFFFFF#32 :: [] := rfl

/-- Zero, one, `BLKL` and one more, while prepared; and a device that is not. -/
theorem witness_NsampWrite :
    (∀ v, (demoOp (.write 0x12#27 v)).pending = .write 0x12#27 v :: []) ∧ demo.status.prepared = true ∧
      1 ≤ (1#32).toNat ∧ (8#32).toNat ≤ demo.nat .blkl ∧ demo.nat .blkl < (9#32).toNat ∧
      State.reset.status.prepared = false := ⟨fun _ => rfl, by decide⟩

theorem witness_AngleWrite :
    demo.params.wellFormed = true ∧
      (demoOp (.write 0x36#27 0#32)).pending = .write 0x36#27 0#32 :: [] ∧
      Reg.roll ∈ [Reg.yaw, .pitch, .roll] ∧ (0x36#27).toNat = Reg.roll.index := ⟨by decide, rfl, by decide, by decide⟩

/-- The last elements of `MAT` and `CB` that exist. -/
theorem witness_ElementWrite :
    (∀ A v, (demoOp (.write A v)).pending = .write A v :: []) ∧
      (∀ op, target (demoOp op) (0x10C3#27).toNat = .mat 3 3) ∧
      ∀ op, target (demoOp op) (0x10C007#27).toNat = .cb 3 7 :=
  ⟨fun _ _ => rfl, fun _ => by
    show target demo _ = _
    decide, fun _ => by
    show target demo _ = _
    decide⟩

/-- Each kind of transaction that ends in a bus fault, and one that does not. -/
theorem witness_BusFaultChangesNothing :
    (∀ op, (demoOp op).pending = op :: []) ∧ busFaults demo (.read 0x100#27) ∧
      busFaults demo (.write 0x2000#27 0#32) ∧ busFaults demo (.write 0x4000000#27 0#32) ∧
      busFaults demo (.mappedRead 0#29 2) ∧ busFaults demo (.mappedWrite 2#29 4 0#32) ∧
      ¬ busFaults demo (.read 0x10C007#27) := by
  refine ⟨fun _ => rfl, ?_, ?_, ?_, ?_, ?_, ?_⟩
  · show target demo _ = _; decide
  · exact .inr (.inl ⟨0, 0, by decide⟩)
  · exact .inr (.inr ⟨0, 0, by decide⟩)
  · exact .inl (by decide)
  · exact .inr (.inl (by decide))
  · show ¬ target demo _ = _; decide

theorem witness_MappedWordIsWord :
    (0#29).toNat = 4 * (0#27).toNat ∧ (0x1FFFFFFC#29).toNat = 4 * (0x7FFFFFF#27).toNat := by decide

theorem witness_ResetTransaction : (demoOp .reset).pending = .reset :: [] := rfl

theorem witness_IrqMirrorsError : { demo.ctrl with ie := true }.ie = true := rfl

theorem witness_StepKeepsInv :
    StateInv (demoOp (.write 0x4#27 0x01#32)) ∧ ∃ t, step (demoOp (.write 0x4#27 0x01#32)) = .next t :=
  ⟨demoOp_inv _, _, rfl⟩

theorem witness_StepKeepsMemoryInMap :
    StateInv (demoOp (.write 0x4#27 0x01#32)) ∧ MemoryInMap (demoOp (.write 0x4#27 0x01#32)) ∧
      ∃ t, step (demoOp (.write 0x4#27 0x01#32)) = .next t :=
  ⟨demoOp_inv _, fun _ h => absurd h List.not_mem_nil, _, rfl⟩

/-- Operands whose sum is not zero and whose sum is; and a divisor that is not zero. -/
theorem witness_ArithmeticIsCorrectlyRounded :
    fIsFinite 0x7F7FFFFF#32 = true ∧ fIsFinite 0x80000001#32 = true ∧ fInt one32 + fInt one32 ≠ 0 ∧
      fInt one32 + fInt (fneg one32) = 0 ∧ fInt one32 - fInt one32 = 0 ∧ fMag 0x80000001#32 ≠ 0 := by decide +kernel

/-- A NaN, a value below, the bounds themselves, and a value above. -/
theorem witness_ClampIsSpec :
    fge deg180 two32 = true ∧ fIsNaN 0x7FC00000#32 = true ∧ flt one32 two32 = true ∧
      fgt 0x7F800000#32 deg180 = true ∧ fge two32 two32 = true ∧ fge deg180 deg180 = true := by decide

end Sys2Proof.Machine
end

section
/-! The binary32 operations against IEEE 754 (00_scope.md R19, R20, R23): rounding answers the nearest pattern,
ties to even; the four operations round the exact result; `Clamp`. -/

namespace Sys2Proof.Machine

/-! ## Rounding to nearest (00_scope.md R19) -/

/-- Rounding chooses between the two patterns that enclose `num / den`: the upper one past their midpoint,
and on it where the lower one is odd. -/
theorem roundUnits_bracket (num : Nat) {den : Nat} (hd : 0 < den) :
    ∃ p, magUnits p * den ≤ num ∧ num < magUnits (p + 1) * den ∧
      roundUnits num den =
        min (if magUnits p * den + magUnits (p + 1) * den < 2 * num ∨
            (magUnits p * den + magUnits (p + 1) * den = 2 * num ∧ p % 2 = 1) then p + 1 else p) infMag := by
  obtain ⟨e, q, r, hnum, hr, hq, hs, hround⟩ := roundUnits_parts num hd
  have hlow : magUnits (e * 2 ^ 23 + q) * den = q * (den * 2 ^ e) := by
    rw [magUnits_pack (by omega)]; ring
  have hhigh : magUnits (e * 2 ^ 23 + q + 1) * den = q * (den * 2 ^ e) + den * 2 ^ e := by
    rw [magUnits_succ_pack hq hs]; ring
  refine ⟨e * 2 ^ 23 + q, by omega, by omega, ?_⟩
  rw [hround, hlow, hhigh]
  have hpast : den * 2 ^ e < 2 * r ↔
      q * (den * 2 ^ e) + (q * (den * 2 ^ e) + den * 2 ^ e) < 2 * num := by omega
  have htie : 2 * r = den * 2 ^ e ↔
      q * (den * 2 ^ e) + (q * (den * 2 ^ e) + den * 2 ^ e) = 2 * num := by omega
  have hodd : q % 2 = 1 ↔ (e * 2 ^ 23 + q) % 2 = 1 := by omega
  simp only [hpast, htie, hodd, Nat.add_assoc]
  split <;> rfl

/-- `roundUnits` rounds to nearest, ties to even. -/
theorem nearestEven_roundUnits (num : Nat) {den : Nat} (hd : 0 < den) :
    NearestEven num den (roundUnits num den) := by
  refine ⟨roundUnits_le_inf num den, fun m hm hne => ?_⟩
  obtain ⟨p, hlow, hhigh, hround⟩ := roundUnits_bracket num hd
  have hlt : ∀ {i j : Nat}, i < j → magUnits i * den < magUnits j * den := fun h =>
    Nat.mul_lt_mul_of_pos_right (magUnits_strictMono h) hd
  have hle : ∀ {i j : Nat}, i ≤ j → magUnits i * den ≤ magUnits j * den := fun h =>
    Nat.mul_le_mul_right den (magUnits_le_iff.2 h)
  rw [hround] at hne ⊢
  simp only [← Nat.cast_mul]
  rcases Nat.lt_or_ge p infMag with hp | hp
  · -- both neighbours are patterns, and `m` lies on one of their outer sides
    rw [Nat.min_eq_left (by split <;> omega)] at hne ⊢
    split at hne <;> rename_i hup
    · rw [if_pos hup]
      rcases Nat.lt_or_ge p m with h | h
      · have := hlt (show p + 1 < m by omega)
        omega
      · rcases Nat.eq_or_lt_of_le h with rfl | h
        · omega
        · have := hlt h
          omega
    · rw [if_neg hup]
      rcases Nat.lt_or_ge m p with h | h
      · have := hlt h
        omega
      · rcases Nat.eq_or_lt_of_le (show p + 1 ≤ m by omega) with rfl | h
        · omega
        · have := hlt h
          omega
  · -- at or past the place of the infinity, every finite pattern is further below
    rw [Nat.min_eq_right (by split <;> omega)] at hne ⊢
    have := hlt (show m < infMag by omega)
    have := hle hp
    omega

/-- A rounded magnitude packed with a sign is nearest and has that sign. -/
theorem packF32_roundUnits_spec (neg : Bool) (num : Nat) {den : Nat} (hd : 0 < den) :
    NearestEven num den (fMag (packF32 neg (roundUnits num den))) ∧
      fSign (packF32 neg (roundUnits num den)) = neg := by
  have hsign := roundUnits_lt_sign num den
  rw [fMag_packF32 neg hsign, fSign_packF32 neg hsign]
  exact ⟨nearestEven_roundUnits num hd, rfl⟩

/-! ## Finite operands -/

theorem fIsNaN_of_finite {x : F32} (h : fIsFinite x = true) : fIsNaN x = false := by
  have := of_decide_eq_true h
  exact decide_eq_false (by omega)

theorem fIsInf_of_finite {x : F32} (h : fIsFinite x = true) : fIsInf x = false := by
  have := of_decide_eq_true h
  exact decide_eq_false (by omega)

theorem fUnits_pos {x : F32} (h : fMag x ≠ 0) : 0 < fUnits x := by
  have := magUnits_strictMono (Nat.pos_of_ne_zero h)
  rwa [magUnits_zero] at this

/-! ## Negation -/

@[simp] theorem fSign_fneg (x : F32) : fSign (fneg x) = !fSign x := by
  have htop : (0x80000000#32).msb = true := by decide
  rw [fSign, fneg, BitVec.msb_xor, htop, Bool.xor_true, fSign]

@[simp] theorem fMag_fneg (x : F32) : fMag (fneg x) = fMag x := by
  have hlow : (0x80000000#32).setWidth 31 = 0#31 := by decide
  have hcut : (fneg x).setWidth 31 = x.setWidth 31 := by
    rw [fneg, BitVec.setWidth_xor, hlow, BitVec.xor_zero]
  simpa only [fMag, BitVec.toNat_setWidth] using congrArg BitVec.toNat hcut

@[simp] theorem fIsFinite_fneg (x : F32) : fIsFinite (fneg x) = fIsFinite x := by
  simp [fIsFinite]

@[simp] theorem fInt_fneg (x : F32) : fInt (fneg x) = -fInt x := by
  unfold fInt fUnits
  rw [fSign_fneg, fMag_fneg]
  cases fSign x <;> simp

/-! ## The operations on finite operands (00_scope.md R19, R20) -/

section
variable {a b : F32} (ha : fIsFinite a = true) (hb : fIsFinite b = true)
include ha hb

theorem sumWith_of_finite (nan : F32) : sumWith nan a b =
    if fInt a + fInt b = 0 then packF32 (fSign a && fSign b) 0
    else packF32 (decide (fInt a + fInt b < 0)) (roundUnits (fInt a + fInt b).natAbs 1) := by
  simp [sumWith, fIsNaN_of_finite ha, fIsNaN_of_finite hb, fIsInf_of_finite ha, fIsInf_of_finite hb]

theorem fmul_of_finite (k : Nat) : fmul k a b =
    packF32 (fSign a != fSign b) (roundUnits (fUnits a * fUnits b) (2 ^ 149)) := by
  simp [fmul, fIsNaN_of_finite ha, fIsNaN_of_finite hb, fIsInf_of_finite ha, fIsInf_of_finite hb]

theorem fdiv_of_finite (k : Nat) (h0 : fMag b ≠ 0) : fdiv k a b =
    packF32 (fSign a != fSign b) (roundUnits (fUnits a * 2 ^ 149) (fUnits b)) := by
  simp [fdiv, fIsNaN_of_finite ha, fIsNaN_of_finite hb, fIsInf_of_finite ha, fIsInf_of_finite hb, h0]

/-- A sum that is not zero is correctly rounded and has the sign of the exact sum. -/
theorem sumWith_ne_zero (nan : F32) (h : fInt a + fInt b ≠ 0) :
    NearestEven (fInt a + fInt b).natAbs 1 (fMag (sumWith nan a b)) ∧
      fSign (sumWith nan a b) = decide (fInt a + fInt b < 0) := by
  rw [sumWith_of_finite ha hb, if_neg h]
  exact packF32_roundUnits_spec _ _ Nat.one_pos

/-- An exact sum of zero is a zero, negative only where both operands are. -/
theorem sumWith_eq_zero (nan : F32) (h : fInt a + fInt b = 0) :
    fMag (sumWith nan a b) = 0 ∧ fSign (sumWith nan a b) = (fSign a && fSign b) := by
  rw [sumWith_of_finite ha hb, if_pos h]
  exact ⟨fMag_packF32 _ (by norm_num), fSign_packF32 _ (by norm_num)⟩

end

/-- Settles O58: each operation on finite operands rounds the exact result by `roundUnits`, which
`nearestEven_roundUnits` shows correct; a difference is the sum with the negated operand. -/
theorem arithmeticIsCorrectlyRounded : Obligations.ArithmeticIsCorrectlyRounded := by
  intro k a b ha hb
  have hneg : fIsFinite (fneg b) = true := by rwa [fIsFinite_fneg]
  have hdiff : fInt a + fInt (fneg b) = fInt a - fInt b := by rw [fInt_fneg, Int.sub_eq_add_neg]
  refine ⟨sumWith_ne_zero ha hb _, sumWith_eq_zero ha hb _, fun h => ?_, fun h => ?_, ?_, fun h0 => ?_⟩
  · rw [← hdiff] at h ⊢
    exact sumWith_ne_zero ha hneg _ h
  · rw [← hdiff] at h
    rw [← fSign_fneg]
    exact sumWith_eq_zero ha hneg _ h
  · rw [fmul_of_finite ha hb]
    exact packF32_roundUnits_spec _ _ (by positivity)
  · rw [fdiv_of_finite ha hb k h0]
    exact packF32_roundUnits_spec _ _ (fUnits_pos h0)

/-! ## Clamp (00_scope.md R23) -/

/-- `Clamp` sends a number below the range to the lower bound. -/
theorem fclamp_of_lt {x lo : F32} (hi : F32) (h : flt x lo = true) : fclamp x lo hi = lo := by
  obtain ⟨-, -, hlt⟩ := fgt_iff.1 h
  have hge : fge x lo ≠ true := fun hc => by
    obtain ⟨-, -, hle⟩ := fge_iff.1 hc
    omega
  simp [fclamp, hge]

/-- `Clamp` sends a number above the range to the upper bound. -/
theorem fclamp_of_gt {x lo hi : F32} (hb : fge hi lo = true) (h : fgt x hi = true) :
    fclamp x lo hi = hi := by
  obtain ⟨-, hlo, hle⟩ := fge_iff.1 hb
  obtain ⟨hx, -, hlt⟩ := fgt_iff.1 h
  have hge : fge x lo = true := fge_iff.2 ⟨hx, hlo, by omega⟩
  simp [fclamp, hge, h]

/-- A number at most the upper bound is not above it. -/
theorem fgt_eq_false_of_fge {x y : F32} (h : fge y x = true) : fgt x y = false := by
  obtain ⟨-, -, hle⟩ := fge_iff.1 h
  refine Bool.eq_false_iff.2 fun hc => ?_
  obtain ⟨-, -, hlt⟩ := fgt_iff.1 hc
  omega

/-- Settles O59, one law of `Clamp` a clause. -/
theorem clampIsSpec : Obligations.ClampIsSpec := fun _ lo hi hb =>
  ⟨fclamp_nan lo hi, fclamp_of_lt hi, fclamp_of_gt hb, fun hlo hhi =>
    fclamp_of_mem hlo (fgt_eq_false_of_fge hhi)⟩

end Sys2Proof.Machine
end

section
/-! What a command answers: a recorded fault, or its work and completion (30_encoding.md R112); and what that
work leaves of `PREPARED` (10_state.md R43). -/

namespace Sys2Proof.Machine

/-! ## The answers of a command (30_encoding.md R112) -/

/-- What a command does once its checks are passed, before it completes. -/
def work : Instr → State → State
  | .nop => id
  | .prepare => runPrepare
  | .setorder => resolveOrder false
  | .clrerr => State.acknowledge
  | .dlPush ch => fun s => push ch (s.f32 .din) s
  | .dlPop ch => fun s => s.setReg .dout (popAt s ch (s.f32 .dly))
  | .dlRun => runDelay
  | .rmBuild => buildRotation
  | .rmApply => runApply
  | .rmCommit => fun s => s.setMatOk true
  | .fbSetcut => computeCoefficients
  | .fbRun ch => filterChannel ch
  | .fbRunall => filterAll

/-- What the checks of a command that completes have found; the matrix check of `RM.APPLY` is left out. -/
def Passes : Instr → State → Prop
  | .nop, _ => True
  | .prepare, s => PrepareValid s
  | .setorder, s => s.status.prepared = true ∧ 1 ≤ s.int .inch
  | .clrerr, _ => True
  | .dlPush ch, s => s.status.prepared = true ∧ ch < s.nat .nchl
  | .dlPop ch, s => s.status.prepared = true ∧ ch < s.nat .nchl
  | .dlRun, s => s.status.prepared = true
  | .rmBuild, s => s.status.prepared = true
  | .rmApply, s => s.status.prepared = true
  | .rmCommit, s => s.status.prepared = true
  | .fbSetcut, s => s.status.prepared = true
  | .fbRun ch, s => s.status.prepared = true ∧ ch < s.nat .nchl
  | .fbRunall, s => s.status.prepared = true

/-- The states a command can answer. -/
inductive Answer (i : Instr) (s : State) : State → Prop
  /-- A check failed: the fault is recorded and nothing else happens. -/
  | fault (k : Cause) : Answer i s (s.raise k (encode i))
  /-- `PREPARE` found its arguments invalid (40_system.md R136). -/
  | withdrawn (h : i = .prepare) :
      Answer i s ((s.setPrepared false).raise .configurationError (encode i))
  /-- The command ran to its end. -/
  | completed (h : Passes i s) : Answer i s (work i s).complete

/-- A command of format Z that needs `PREPARED = 1` faults or completes. -/
theorem runPrepared_answers {i : Instr} {s : State} (hi : s.status.prepared = true → Passes i s) :
    ∃ t, runPrepared (encode i) s (work i) = .next t ∧ Answer i s t := by
  cases hp : s.status.prepared
  · exact ⟨_, runPrepared_of_unprepared hp _ _, .fault _⟩
  · exact ⟨_, runPrepared_of_prepared hp _ _, .completed (hi hp)⟩

/-- A command of format C faults or completes. -/
theorem runChannel_answers {i : Instr} {ch : Nat} {s : State}
    (hi : s.status.prepared = true → ch < s.nat .nchl → Passes i s) :
    ∃ t, runChannel (encode i) ch s (work i) = .next t ∧ Answer i s t := by
  cases hp : s.status.prepared
  · exact ⟨_, runChannel_of_unprepared hp _ _ _, .fault _⟩
  · rcases Nat.lt_or_ge ch (s.nat .nchl) with hc | hc
    · exact ⟨_, runChannel_of_inside hp hc _ _, .completed (hi hp hc)⟩
    · exact ⟨_, runChannel_of_outside hp hc _ _, .fault _⟩

theorem prepare_answers (s : State) : ∃ t, exec .prepare s = .next t ∧ Answer .prepare s t := by
  show ∃ t, execPrepare s = .next t ∧ _
  unfold execPrepare
  split
  · rename_i hv
    exact ⟨_, rfl, .completed ((prepareArgsValid_iff s).1 hv)⟩
  · exact ⟨_, rfl, .withdrawn rfl⟩

theorem setorder_answers (s : State) : ∃ t, exec .setorder s = .next t ∧ Answer .setorder s t := by
  show ∃ t, execSetorder s = .next t ∧ _
  unfold execSetorder
  split
  · exact ⟨_, rfl, .fault _⟩
  · rename_i hc
    exact runPrepared_answers fun hp => ⟨hp, not_lt.1 fun hi => hc ⟨hp, hi⟩⟩

theorem rmApply_answers (s : State) : ∃ t, exec .rmApply s = .next t ∧ Answer .rmApply s t := by
  show ∃ t, execRmApply s = .next t ∧ _
  unfold execRmApply
  split
  · exact ⟨_, rfl, .fault _⟩
  · exact runPrepared_answers id

/-- Every command answers a next state, and one of the three of `Answer`. -/
theorem exec_answers (i : Instr) (s : State) : ∃ t, exec i s = .next t ∧ Answer i s t := by
  cases i with
  | nop => exact ⟨_, rfl, .completed trivial⟩
  | prepare => exact prepare_answers s
  | setorder => exact setorder_answers s
  | clrerr => exact ⟨_, rfl, .completed trivial⟩
  | dlPush ch => exact runChannel_answers .intro
  | dlPop ch => exact runChannel_answers .intro
  | dlRun => exact runPrepared_answers id
  | rmBuild => exact runPrepared_answers id
  | rmApply => exact rmApply_answers s
  | rmCommit => exact runPrepared_answers id
  | fbSetcut => exact runPrepared_answers id
  | fbRun ch => exact runChannel_answers .intro
  | fbRunall => exact runPrepared_answers id

/-- What a command has answered is one of the three of `Answer`. -/
theorem answer_of_exec {i : Instr} {s t : State} (h : exec i s = .next t) : Answer i s t := by
  obtain ⟨u, hu, ha⟩ := exec_answers i s
  obtain rfl : u = t := by simpa using hu.symm.trans h
  exact ha

/-! ## The skeleton under the units, whatever the sizes -/

theorem storeMatrix_skeleton (d : List (List F32)) (n : Nat) (s : State) :
    (storeMatrix d n s).skeleton = s.skeleton :=
  forUpTo_frame State.skeleton fun i _ _ =>
    forUpTo_frame State.skeleton fun j u _ => State.skeleton_setMat u i j _

theorem applyMatrix_skeleton (s : State) : (applyMatrix s).skeleton = s.skeleton :=
  forUpTo_frame State.skeleton fun n _ _ =>
    forUpTo_frame State.skeleton fun j u _ => State.skeleton_setCb u j n _

theorem filterChannel_skeleton (c : Nat) (s : State) : (filterChannel c s).skeleton = s.skeleton :=
  forUpTo_frame State.skeleton fun n t _ => filterSample_skeleton _ _ c n t

theorem filterAll_skeleton (s : State) : (filterAll s).skeleton = s.skeleton :=
  forUpTo_frame State.skeleton fun c t _ => filterChannel_skeleton c t

theorem delayBlock_skeleton (s : State) : (delayBlock s).st.skeleton = s.skeleton :=
  forUpTo_frame (fun r : DelayRun => r.st.skeleton) fun n _ _ =>
    forUpTo_frame State.skeleton fun c t _ => pushPop_skeleton n _ c t

/-! ## `PREPARED` under the commands -/

theorem buildRotation_prepared (s : State) :
    (buildRotation s).status.prepared = s.status.prepared := by
  unfold buildRotation
  rw [State.setMatOk_prepared, State.status_of_skeleton (storeMatrix_skeleton _ _ s)]

theorem runApply_prepared (s : State) : (runApply s).status.prepared = s.status.prepared := by
  unfold runApply
  split
  · rw [State.status_of_skeleton (applyMatrix_skeleton _), buildRotation_prepared]
  · rw [State.status_of_skeleton (applyMatrix_skeleton _)]

theorem setOrder_prepared (o : Int) (s : State) :
    (setOrder o s).status.prepared = s.status.prepared := by
  unfold setOrder
  cases s.ctrl.xmode
  · exact buildRotation_prepared _
  · rfl

theorem resolveOrder_prepared (force : Bool) (s : State) :
    (resolveOrder force s).status.prepared = s.status.prepared := by
  unfold resolveOrder
  split
  · exact setOrder_prepared _ s
  · rfl

theorem runDelay_status (s : State) : (runDelay s).status = s.status := by
  unfold runDelay
  rw [State.setReg_status, State.setReg_status, State.status_of_skeleton (delayBlock_skeleton s)]

theorem computeCoefficients_status (s : State) : (computeCoefficients s).status = s.status :=
  (computeCoefficients_rest s).2.2.1

/-- The work of every command but `PREPARE` leaves `PREPARED` alone. -/
theorem work_prepared {i : Instr} (h : i ≠ .prepare) (s : State) :
    (work i s).status.prepared = s.status.prepared := by
  cases i with
  | nop => rfl
  | prepare => exact absurd rfl h
  | setorder => exact resolveOrder_prepared false s
  | clrerr => exact State.acknowledge_prepared s
  | dlPush ch => exact congrArg Status.prepared (State.status_of_skeleton (push_skeleton ch _ s))
  | dlPop ch => rfl
  | dlRun => exact congrArg Status.prepared (runDelay_status s)
  | rmBuild => exact buildRotation_prepared s
  | rmApply => exact runApply_prepared s
  | rmCommit => exact State.setMatOk_prepared s true
  | fbSetcut => exact congrArg Status.prepared (computeCoefficients_status s)
  | fbRun ch => exact congrArg Status.prepared (State.status_of_skeleton (filterChannel_skeleton ch s))
  | fbRunall => exact congrArg Status.prepared (State.status_of_skeleton (filterAll_skeleton s))

/-- Settles O13: a fault keeps the flag, and so does the work of every command but `PREPARE`. -/
theorem onlyPrepareChangesPrepared : Obligations.OnlyPrepareChangesPrepared := by
  intro i s hi
  obtain ⟨t, ht, ha⟩ := exec_answers i s
  refine ⟨t, ht, ?_⟩
  cases ha with
  | fault k => exact State.raise_prepared s k _
  | withdrawn h => exact absurd h hi
  | completed _ => rw [State.complete_status, work_prepared hi]

end Sys2Proof.Machine
end

section
/-! Every step keeps the invariant (10_state.md R66): the working order and `PREPARE`, the commands, the bus. -/

namespace Sys2Proof.Machine

/-! ## The clauses of the prepared sizes -/

theorem State.nat_setReg_ne (s : State) {r r' : Reg} (h : r' ≠ r) (v : Word) :
    (s.setReg r v).nat r' = s.nat r' := by
  unfold State.nat
  rw [State.reg_setReg_ne s h]

/-- The clauses of `SizesOk` about what `PREPARE` alone sets, and the cursors. -/
structure LatchedOk (s : State) : Prop where
  dmaxl_pos : 1 ≤ s.nat .dmaxl
  nchl_pos : 1 ≤ s.nat .nchl
  nchl_le : s.nat .nchl ≤ s.params.nchMax
  blkl_pos : 1 ≤ s.nat .blkl
  blkl_le : s.nat .blkl ≤ s.params.bmax
  len_eq : s.nat .len = s.nat .dmaxl + s.nat .lfomaxl + 4
  len_le : s.nat .len ≤ s.params.lmax
  cursor_lt : ∀ c, c < 64 → s.cursor c < s.nat .len
  fs_finite : fIsFinite (s.f32 .fs) = true
  fs_ge : fge (s.f32 .fs) forty32 = true

/-- The clauses of `SizesOk` about `NSAMP` (10_state.md R50). -/
def BlockOk (s : State) : Prop := 1 ≤ s.nat .nsamp ∧ s.nat .nsamp ≤ s.nat .blkl

/-- The clauses of `SizesOk` about the working order (40_system.md R138). -/
structure OrderOk (s : State) : Prop where
  order_le : s.nat .order ≤ orderMax s.params
  n_eq : s.nat .n = (s.nat .order + 1) * (s.nat .order + 1)
  n_le : s.nat .n ≤ s.nat .nchl

theorem sizesOk_iff {s : State} : SizesOk s ↔ LatchedOk s ∧ BlockOk s ∧ OrderOk s := by
  constructor
  · intro h
    exact ⟨⟨h.dmaxl_pos, h.nchl_pos, h.nchl_le, h.blkl_pos, h.blkl_le, h.len_eq, h.len_le, h.cursor_lt,
      h.fs_finite, h.fs_ge⟩, ⟨h.nsamp_pos, h.nsamp_le⟩, ⟨h.order_le, h.n_eq, h.n_le⟩⟩
  · rintro ⟨hl, ⟨hb1, hb2⟩, ho⟩
    exact ⟨hl.dmaxl_pos, hl.nchl_pos, hl.nchl_le, hl.blkl_pos, hl.blkl_le, hl.len_eq, hl.len_le,
      hl.cursor_lt, hb1, hb2, ho.order_le, ho.n_eq, ho.n_le, hl.fs_finite, hl.fs_ge⟩

/-- The registers that `LatchedOk` speaks of. -/
def latchedRegs : List Reg := [.fs, .len, .dmaxl, .lfomaxl, .nchl, .blkl]

/-- The latched clauses depend on the parameters, the cursors and the registers of `latchedRegs`. -/
theorem LatchedOk.congr {s t : State} (h : LatchedOk s) (hp : t.params = s.params)
    (hw : t.wcur = s.wcur) (hr : ∀ r ∈ latchedRegs, t.reg r = s.reg r) : LatchedOk t := by
  have hnat : ∀ r ∈ latchedRegs, t.nat r = s.nat r := fun r hm => congrArg BitVec.toNat (hr r hm)
  have hfs : t.f32 .fs = s.f32 .fs := hr .fs (by decide)
  have hlen := hnat .len (by decide)
  have hdmaxl := hnat .dmaxl (by decide)
  have hlfomaxl := hnat .lfomaxl (by decide)
  have hnchl := hnat .nchl (by decide)
  have hblkl := hnat .blkl (by decide)
  constructor <;> simp only [hp, hfs, hlen, hdmaxl, hlfomaxl, hnchl, hblkl, cur_of_wcur hw]
  · exact h.dmaxl_pos
  · exact h.nchl_pos
  · exact h.nchl_le
  · exact h.blkl_pos
  · exact h.blkl_le
  · exact h.len_eq
  · exact h.len_le
  · exact h.cursor_lt
  · exact h.fs_finite
  · exact h.fs_ge

/-- The error record depends on `STATUS.ERR`, `STATUS.ERRCODE` and `ERRINFO`. -/
theorem RecordOk.congr {s t : State} (h : RecordOk s) (he : t.status.err = s.status.err)
    (hc : t.status.errCode = s.status.errCode) (hi : t.reg .errinfo = s.reg .errinfo) : RecordOk t := by
  constructor <;> simp only [he, hc, hi]
  · exact h.clear
  · exact h.coded

/-- The invariant of a prepared device, all but the clauses about the working order. -/
structure SetupInv (s : State) : Prop where
  params_ok : s.params.wellFormed = true
  mem_wf : s.mem.wf
  record : RecordOk s
  latched : LatchedOk s
  block : BlockOk s

theorem StateInv.setupInv {s : State} (h : StateInv s) (hp : s.status.prepared = true) : SetupInv s :=
  have ⟨hl, hb, _⟩ := sizesOk_iff.1 (h.sizes hp)
  ⟨h.params_ok, h.mem_wf, h.record, hl, hb⟩

/-! ## The working order (40_system.md R138) -/

/-- The order that `ResolveOrder` finds in `s`. -/
def foundOrder (s : State) : Nat :=
  resolvedOrder s.params (s.int .inch) (s.int .cfgorder) (s.nat .nchl)

/-- The order found is within `ORDER_MAX`, and its channels within every count it is resolved from
(10_state.md R66). -/
structure OrderBounds (s : State) (o : Nat) : Prop where
  order_le : o ≤ orderMax s.params
  cfg : o ≤ (s.int .cfgorder).toNat
  nchMax : (o + 1) * (o + 1) ≤ s.params.nchMax
  nchl : (o + 1) * (o + 1) ≤ s.nat .nchl
  inch : (o + 1) * (o + 1) ≤ (s.int .inch).toNat

theorem SetupInv.foundOrder_bounds {s : State} (h : SetupInv s) (hi : 1 ≤ s.int .inch) :
    OrderBounds s (foundOrder s) := by
  obtain ⟨hmax, hnchl, hinch, hcfg⟩ :=
    resolved_le s.params (s.int .inch) (s.int .cfgorder) (s.nat .nchl)
  have hm := (Params.bounds h.params_ok).2.1
  refine ⟨?_, hcfg, sq_le hm hmax, sq_le h.latched.nchl_pos hnchl, sq_le (by omega) hinch⟩
  rw [orderMax, iSqrt_eq]
  exact hmax

/-- `ResolveOrder` sets the order found, or that already is the order and nothing changes. -/
theorem SetupInv.resolveOrder_cases {s : State} (h : SetupInv s) (hi : 1 ≤ s.int .inch) (force : Bool) :
    OrderSet (foundOrder s) s (resolveOrder force s) ∨
      (resolveOrder force s = s ∧ force = false ∧ s.nat .order = foundOrder s) := by
  have hb := Params.bounds h.params_ok
  have hw : workingOrder s = (foundOrder s : Int) := workingOrder_eq hi h.latched.nchl_pos hb.2.1
  unfold resolveOrder
  split
  · left
    rw [hw]
    exact setOrder_set ((h.foundOrder_bounds hi).nchMax.trans hb.1) s
  · rename_i hc
    rw [hw] at hc
    push Not at hc
    exact .inr ⟨rfl, by simpa using hc.1, by exact_mod_cast hc.2.symm⟩

/-- Making the order found the working order gives the invariant. -/
theorem SetupInv.of_orderSet {s t : State} (h : SetupInv s) {o : Nat} (hs : OrderSet o s t)
    (ho : OrderBounds s o) : StateInv t where
  params_ok := by rw [hs.params]; exact h.params_ok
  mem_wf := hs.touches.wf h.mem_wf
  record := h.record.congr (by rw [hs.matOk]) (by rw [hs.matOk]) (hs.reg _ (by decide) (by decide))
  sizes _ := by
    have hnat : ∀ r, r ≠ .order → r ≠ .n → t.nat r = s.nat r := fun r h1 h2 =>
      congrArg BitVec.toNat (hs.reg r h1 h2)
    refine sizesOk_iff.2 ⟨h.latched.congr hs.params hs.wcur fun r hr => ?_, ?_, ?_⟩
    · exact hs.reg r (by rintro rfl; revert hr; decide) (by rintro rfl; revert hr; decide)
    · unfold BlockOk
      rw [hnat _ (by decide) (by decide), hnat _ (by decide) (by decide)]
      exact h.block
    · refine ⟨?_, by rw [hs.n, hs.order], ?_⟩
      · rw [hs.order, hs.params]
        exact ho.order_le
      · rw [hs.n, hnat _ (by decide) (by decide)]
        exact ho.nchl

theorem StateInv.resolveOrder {s : State} (h : StateInv s) (hp : s.status.prepared = true)
    (hi : 1 ≤ s.int .inch) (force : Bool) : StateInv (resolveOrder force s) := by
  have hs := h.setupInv hp
  rcases hs.resolveOrder_cases hi force with ho | ⟨he, -, -⟩
  · exact hs.of_orderSet ho (hs.foundOrder_bounds hi)
  · rwa [he]

/-- After `ResolveOrder` the working order is the order found, and `N` is its channel count. -/
theorem StateInv.resolveOrder_order {s : State} (h : StateInv s) (hp : s.status.prepared = true)
    (hi : 1 ≤ s.int .inch) (force : Bool) :
    (Machine.resolveOrder force s).nat .order = foundOrder s ∧
      (Machine.resolveOrder force s).nat .n = (foundOrder s + 1) * (foundOrder s + 1) := by
  rcases (h.setupInv hp).resolveOrder_cases hi force with ho | ⟨he, -, hcur⟩
  · exact ⟨ho.order, ho.n⟩
  · rw [he, (h.sizes hp).n_eq, hcur]
    exact ⟨rfl, rfl⟩

/-! ## `PREPARE` (40_system.md R132 to R135) -/

/-- The state in which `PREPARE` resolves the order: latched, cleared, prepared, with coefficients. -/
def latchedState (s : State) : State := computeCoefficients ((latchAndClear s).setPrepared true)

theorem runPrepare_eq (s : State) : runPrepare s = resolveOrder true (latchedState s) := rfl

theorem toNat_ofInt_of_lt {x : Int} (h0 : 0 ≤ x) (h : x < 2 ^ 32) :
    ((BitVec.ofInt 32 x).toNat : Int) = x := by
  rw [BitVec.toNat_ofInt]
  omega

/-- The sizes that a valid `PREPARE` latches meet their bounds. -/
theorem latchAndClear_latchedOk {s : State} (hw : s.params.wellFormed = true) (hv : PrepareValid s) :
    LatchedOk ((latchAndClear s).setPrepared true) := by
  obtain ⟨hmaxd, hnch, hinch, hnchMax, ⟨hblk, hbmax⟩, hlfo, hlen, hsr, hfin⟩ := hv
  obtain ⟨hp, -, -, hcur, -⟩ := latch_rest s
  have hreg := latch_reg s
  have hb := Params.bounds hw
  have emaxd := int_nat (s := s) (r := .maxd) (by omega)
  have enchl := int_nat (s := s) (r := .nch) (by omega)
  have eblk := int_nat (s := s) (r := .blk) (by omega)
  have elfo := int_nat (s := s) (r := .lfomax) hlfo
  have elen := toNat_ofInt_of_lt (x := s.int .maxd + s.int .lfomax + 4) (by omega) (by omega)
  have hnat : ∀ r, ((latchAndClear s).setPrepared true).nat r =
      (((latchAndClear s).setPrepared true).reg r).toNat := fun _ => rfl
  have hfs : ((latchAndClear s).setPrepared true).f32 .fs = rn32ofF64 s.draw s.sampleRate := hreg .fs
  have hlen' : (BitVec.ofInt 32 (s.int .maxd + s.int .lfomax + 4)).toNat =
      s.nat .maxd + s.nat .lfomax + 4 := by omega
  constructor <;> simp only [hnat, hreg, hp, hfs, hlen']
  · exact show 1 ≤ s.nat .maxd by omega
  · exact show 1 ≤ s.nat .nch by omega
  · exact show s.nat .nch ≤ _ by omega
  · exact show 1 ≤ s.nat .blk by omega
  · exact show s.nat .blk ≤ _ by omega
  · rfl
  · omega
  · intro c _
    have hzero : ((latchAndClear s).setPrepared true).cursor c = 0 := by
      unfold State.cursor
      rw [hcur]
      rcases Nat.lt_or_ge c 64 with h | h <;> simp [h]
    omega
  · exact hfin
  · exact fs_ge_forty hsr hfin

/-- The registers of the sizes and of the record, and `INCH`: none of them is a coefficient or a cutoff. -/
def setupRegs : List Reg := [.inch, .nsamp, .errinfo, .fs, .len, .dmaxl, .lfomaxl, .nchl, .blkl]

theorem latchedRegs_subset {r : Reg} (h : r ∈ latchedRegs) : r ∈ setupRegs :=
  List.mem_append_right [Reg.inch, .nsamp, .errinfo] h

theorem latchedState_reg {s : State} {r : Reg} (h : r ∈ setupRegs) :
    (latchedState s).reg r = ((latchAndClear s).setPrepared true).reg r := by
  unfold latchedState
  rw [computeCoefficients_reg]
  simp only [setupRegs, List.mem_cons, List.not_mem_nil, or_false] at h
  rcases h with rfl | rfl | rfl | rfl | rfl | rfl | rfl | rfl | rfl <;> rfl

theorem latchedState_setupInv {s : State} (h : StateInv s) (hv : PrepareValid s) :
    SetupInv (latchedState s) := by
  obtain ⟨cp, -, cst, cw, cm, -⟩ := computeCoefficients_rest ((latchAndClear s).setPrepared true)
  obtain ⟨lp, -, lst, -, lm, -⟩ := latch_rest s
  have hl := latchAndClear_latchedOk h.params_ok hv
  have hnat : ∀ r ∈ setupRegs,
      (latchedState s).nat r = (((latchAndClear s).setPrepared true).reg r).toNat := fun r hr =>
    congrArg BitVec.toNat (latchedState_reg hr)
  refine ⟨?_, ?_, ?_, ?_, ?_⟩
  · rw [latchedState, cp, lp]
    exact h.params_ok
  · rw [latchedState, cm, lm]
    exact Memory.clearSignal_wf h.mem_wf
  · refine h.record.congr ?_ ?_ ?_
    · rw [latchedState, cst, lst]
    · rw [latchedState, cst, lst]
    · rw [latchedState_reg (by decide), latch_reg]
  · exact hl.congr cp cw fun r hr => latchedState_reg (latchedRegs_subset hr)
  · unfold BlockOk
    rw [hnat .nsamp (by decide), hnat .blkl (by decide)]
    have hpos := hl.blkl_pos
    unfold State.nat at hpos
    simp only [latch_reg] at hpos ⊢
    exact ⟨hpos, le_rfl⟩

theorem StateInv.runPrepare {s : State} (h : StateInv s) (hv : PrepareValid s) :
    StateInv (runPrepare s) := by
  have hs := latchedState_setupInv h hv
  have hi : 1 ≤ (latchedState s).int .inch := by
    unfold State.int
    rw [latchedState_reg (by decide), latch_reg]
    exact hv.inch
  rw [runPrepare_eq]
  rcases hs.resolveOrder_cases hi true with ho | ⟨-, hf, -⟩
  · exact hs.of_orderSet ho (hs.foundOrder_bounds hi)
  · cases hf

/-! ## The commands -/

/-- A device that is not prepared need not keep the sizes. -/
theorem StateInv.withdraw {s : State} (h : StateInv s) : StateInv (s.setPrepared false) :=
  ⟨h.params_ok, h.mem_wf, h.record.congr rfl rfl rfl, fun hp => by cases hp⟩

theorem StateInv.work {s : State} {i : Instr} (h : StateInv s) (hi : Passes i s) :
    StateInv (work i s) := by
  cases i with
  | nop => exact h
  | prepare => exact h.runPrepare hi
  | setorder => exact h.resolveOrder hi.1 hi.2 false
  | clrerr => exact h.acknowledge
  | dlPush ch => exact inv_push h hi.1 hi.2 _
  | dlPop ch => exact h.setReg _ _ (by decide)
  | dlRun => exact inv_runDelay h hi
  | rmBuild =>
    obtain ⟨-, hn, hc, -⟩ := h.block_le hi
    exact inv_build h (hn.trans hc)
  | rmApply => exact inv_runApply h hi
  | rmCommit => exact h.setMatOk true
  | fbSetcut => exact inv_coefs h
  | fbRun ch => exact inv_filter h hi.1 hi.2
  | fbRunall => exact inv_filterAll h hi

/-- Every command keeps the invariant, whichever way it ends. -/
theorem StateInv.exec {s t : State} {i : Instr} (h : StateInv s) (he : exec i s = .next t) :
    StateInv t := by
  cases answer_of_exec he with
  | fault k => exact h.raise k _
  | withdrawn _ => exact h.withdraw.raise _ _
  | completed hi => exact (h.work hi).complete

/-! ## Writes without a command (20_memory.md R85) -/

/-- `NSAMP` may be set to a block size within the prepared one. -/
theorem StateInv.setNsamp {s : State} (h : StateInv s) {v : Word}
    (hv : s.status.prepared = true → 1 ≤ v.toNat ∧ v.toNat ≤ s.nat .blkl) :
    StateInv (s.setReg .nsamp v) := by
  refine ⟨h.params_ok, h.mem_wf, h.record.congr rfl rfl (State.reg_setReg_ne s (by decide) v), ?_⟩
  intro hp
  obtain ⟨hl, -, ho⟩ := sizesOk_iff.1 (h.sizes hp)
  refine sizesOk_iff.2 ⟨hl.congr rfl rfl fun r hr => ?_, ?_, ?_⟩
  · exact State.reg_setReg_ne s (by rintro rfl; revert hr; decide) v
  · unfold BlockOk
    rw [State.nat_setReg_ne s (show Reg.blkl ≠ .nsamp by decide), State.nat, State.reg_setReg_same]
    exact hv hp
  · constructor <;> simp only [State.nat_setReg_ne s (show Reg.order ≠ .nsamp by decide),
      State.nat_setReg_ne s (show Reg.n ≠ .nsamp by decide),
      State.nat_setReg_ne s (show Reg.nchl ≠ .nsamp by decide)]
    · exact ho.order_le
    · exact ho.n_eq
    · exact ho.n_le

theorem StateInv.writeNsamp {s : State} (h : StateInv s) (v : Word) : StateInv (writeNsamp v s) := by
  unfold Machine.writeNsamp
  split
  · rename_i hp
    have hpos := (h.sizes hp).blkl_pos
    refine h.setNsamp fun _ => ?_
    split
    · exact ⟨le_rfl, hpos⟩
    · rename_i hv
      have hv' : v.toNat ≠ 0 := fun h0 => hv (BitVec.eq_of_toNat_eq h0)
      split
      · exact ⟨hpos, le_rfl⟩
      · omega
  · exact h

theorem StateInv.setCtrl {s : State} (h : StateInv s) (c : Ctrl) : StateInv { s with ctrl := c } :=
  h.transport rfl h.mem_wf rfl rfl rfl (fun _ _ => rfl) h.curs

theorem StateInv.writeCtrl {s : State} (h : StateInv s) (v : Word) : StateInv (writeCtrl v s) := by
  unfold Machine.writeCtrl
  split
  · exact h.setCtrl _
  · exact (h.setCtrl _).setMatOk false

/-- No register that the bus writes as it is takes part in the invariant. -/
theorem not_mem_invRegs_of_rw {r : Reg} (h : r.kind = .rw) : r ∉ invRegs := by
  revert h
  cases r <;> decide

theorem StateInv.writeStored {s : State} (h : StateInv s) (r : Reg) (v : Word) :
    StateInv (writeStored r v s) := by
  unfold Machine.writeStored
  cases hk : r.kind
  · have hs := h.setReg r v (not_mem_invRegs_of_rw hk)
    unfold writeAngle
    dsimp only
    split
    · split
      · exact hs.setMatOk false
      · exact hs
    · exact hs
  · exact h.writeNsamp v
  · exact h

theorem StateInv.writeIndex {s : State} (h : StateInv s) (idx : Nat) (v : Word) :
    StateInv (writeIndex idx v s) := by
  unfold Machine.writeIndex
  cases regAt s.params idx with
  | id => exact h
  | ctrl => exact h.writeCtrl v
  | status => exact h
  | stored r => exact h.writeStored r v
  | wcur c => exact h
  | reserved => exact h

theorem StateInv.writeTarget {s : State} (h : StateInv s) (x : Target) (v : Word) :
    StateInv (writeTarget x v s).1 := by
  cases x with
  | reg idx => exact h.writeIndex idx v
  | mat i j => exact (h.store (matAddr i j) v).setMatOk false
  | fst c t => exact h
  | cb c n => exact h.store (cbAddr c n) v
  | buf c k => exact h
  | unmapped => exact h

/-! ## Transactions and steps -/

theorem StateInv.execute {s t : State} {w : Word} (h : StateInv s) (he : execute w s = .next t) :
    StateInv t := by
  unfold Machine.execute at he
  split at he
  · exact h.exec he
  · cases he
    exact h.raise _ w

/-- What a transaction can do: answer alone, write without a command, run a command word, or reset. -/
inductive Transacted (s : State) : State → Prop
  | replied (r : Option BusReply) : Transacted s (s.withReply r)
  | written (x : Target) (v : Word) (r : Option BusReply) :
      Transacted s ((writeTarget x v s).1.withReply r)
  | executed (w : Word) {u : State} (h : execute w (s.setReg .cmd w) = .next u) :
      Transacted s (u.withReply (some .done))
  | reset : Transacted s s.afterReset

theorem transacted_of_busWrite {s t : State} {A : Nat} {v : Word} (h : busWrite A v s = .next t) :
    Transacted s t := by
  unfold busWrite at h
  split at h
  · cases he : execute v (s.setReg .cmd v) with
    | next u =>
      rw [he] at h
      cases h
      exact .executed v he
    | fault f => cases f
    | refused f =>
      rw [he] at h
      cases h
  · cases h
    exact .written _ v _

theorem transacted_of_transact {s t : State} {op : BusOp} (h : transact op s = .next t) :
    Transacted s t := by
  cases op with
  | read A =>
    cases h
    exact .replied _
  | write A v => exact transacted_of_busWrite h
  | mappedRead o size =>
    unfold transact at h
    dsimp only at h
    split at h
    all_goals
      cases h
      exact .replied _
  | mappedWrite o size v =>
    unfold transact at h
    dsimp only at h
    split at h
    · exact transacted_of_busWrite h
    · cases h
      exact .replied _
  | reset =>
    cases h
    exact .reset

/-- A state with the flags and registers of reset and a canonical memory meets the invariant. -/
theorem StateInv.of_reset {s : State} (hp : s.params.wellFormed = true) (hm : s.mem.wf)
    (hst : s.status = State.reset.status) (hr : s.regs = State.reset.regs) : StateInv s := by
  refine ⟨hp, hm, ⟨fun _ => ⟨by rw [hst]; rfl, ?_⟩, fun he => ?_⟩, fun hpr => ?_⟩
  · unfold State.reg
    rw [hr]
    exact Vector.getElem_replicate _
  · rw [hst] at he
    cases he
  · rw [hst] at hpr
    cases hpr

theorem StateInv.afterReset {s : State} (h : StateInv s) : StateInv s.afterReset :=
  .of_reset h.params_ok (Memory.powerOn_wf _) rfl rfl

theorem StateInv.transact {s t : State} {op : BusOp} (h : StateInv s)
    (ht : transact op s = .next t) : StateInv t := by
  cases transacted_of_transact ht with
  | replied r => exact h.withReply r
  | written x v r => exact (h.writeTarget x v).withReply r
  | executed w he => exact ((h.setReg .cmd w (by decide)).execute he).withReply _
  | reset => exact h.afterReset

/-- A step with a transaction pending takes it. -/
theorem step_of_pending {s : State} {op : BusOp} {rest : List BusOp} (h : s.pending = op :: rest) :
    step s = transact op (s.taken rest) := by
  unfold step
  rw [h]

theorem step_of_idle {s : State} (h : s.pending = []) : step s = idle s := by
  unfold step
  rw [h]

/-- Settles O56: an idle step changes the reply alone, and a transaction does one of the four things of
`Transacted`, each of which keeps the invariant. -/
theorem stepKeepsInv : Obligations.StepKeepsInv := by
  intro s t h ht
  cases hp : s.pending with
  | nil =>
    rw [step_of_idle hp] at ht
    cases ht
    exact h.withReply none
  | cons op rest =>
    rw [step_of_pending hp] at ht
    exact (h.taken rest).transact ht

/-! ## The bounds of the working order and of the cutoffs (10_state.md R66) -/

/-- Settles O21: `SETORDER` ends with the order found, whose bounds are `OrderBounds`. -/
theorem workingOrderIsBounded : Obligations.WorkingOrderIsBounded := by
  intro s h hp hi
  have hexec : exec .setorder s = .next (resolveOrder false s).complete := by
    show execSetorder s = _
    unfold execSetorder
    rw [if_neg fun hc => absurd hc.2 (by omega), runPrepared_of_prepared hp]
  obtain ⟨ho, hn⟩ := h.resolveOrder_order hp hi false
  have hb := (h.setupInv hp).foundOrder_bounds hi
  have hinch := hb.inch
  have hcfg := hb.cfg
  have hpos : 1 ≤ (foundOrder s + 1) * (foundOrder s + 1) := Nat.mul_pos (by omega) (by omega)
  have hnat : ∀ r, r ≠ .cmdcnt → (resolveOrder false s).complete.nat r = (resolveOrder false s).nat r :=
    fun r hr => State.nat_setReg_ne _ hr _
  refine ⟨_, hexec, ?_⟩
  rw [hnat _ (by decide), hnat _ (by decide), ho, hn]
  exact ⟨by omega, hb.nchl, by omega, hb.nchMax, hpos⟩

/-- Half of a sample rate of at least 40 is at least 20. -/
theorem half_fs_ge_twenty {fs : F32} (k : Nat) (hfin : fIsFinite fs = true)
    (hge : fge fs forty32 = true) : fge (fmul k fs half32) twenty32 = true := by
  obtain ⟨-, -, hle⟩ := fge_iff.1 hge
  have h40 : fInt forty32 = 40 * 2 ^ 149 := by decide
  have h20 : fInt twenty32 = magUnits (fMag twenty32) := by decide
  have h20' : magUnits (fMag twenty32) = 20 * 2 ^ 149 := by decide
  have hhalf : fUnits half32 = 2 ^ 148 := by decide
  rw [h40] at hle
  have hsign : fSign fs = false := by
    by_contra hs
    rw [fInt, if_pos (by simpa using hs)] at hle
    omega
  rw [fInt, hsign, if_neg (by decide)] at hle
  have hmag : fMag twenty32 ≤ roundUnits (fUnits fs * fUnits half32) (2 ^ 149) := by
    refine le_roundUnits (by positivity) (by decide) ?_
    rw [h20', hhalf]
    omega
  have hpos : (fSign fs != fSign half32) = false := by rw [hsign]; decide
  have hlt := roundUnits_lt_sign (fUnits fs * fUnits half32) (2 ^ 149)
  rw [fmul_of_finite hfin (by decide), hpos]
  refine fge_iff.2 ⟨?_, by decide, ?_⟩
  · rw [fIsNaN, fMag_packF32 _ hlt]
    exact decide_eq_false (roundUnits_le_inf _ _).not_gt
  · rw [h20, fInt, fSign_packF32 _ hlt, if_neg (by decide), fUnits, fMag_packF32 _ hlt]
    exact_mod_cast magUnits_le_iff.2 hmag

/-- A clamped number lies between the bounds in the order of the device's own comparison. -/
theorem fclamp_fge {lo hi : F32} (x : F32) (h : fge hi lo = true) :
    fge (fclamp x lo hi) lo = true ∧ fge hi (fclamp x lo hi) = true := by
  obtain ⟨hhi, hlo, -⟩ := fge_iff.1 h
  obtain ⟨hnan, h1, h2⟩ := fclamp_spec x h
  exact ⟨fge_iff.2 ⟨hnan, hlo, h1⟩, fge_iff.2 ⟨hhi, hnan, h2⟩⟩

/-- Settles O39: `FB.SETCUT` stores the clamped cutoffs, and `FS` of at least 40 keeps the range of the clamp
from being empty. -/
theorem cutoffIsClamped : Obligations.CutoffIsClamped := by
  intro s h hp
  have hz := h.sizes hp
  have hrange := half_fs_ge_twenty s.draw hz.fs_finite hz.fs_ge
  have hstored : ∀ r, r ≠ .cmdcnt → (computeCoefficients s).complete.reg r =
      (computeCoefficients s).reg r := fun r hr => State.reg_setReg_ne _ hr _
  refine ⟨_, runPrepared_of_prepared hp _ _, ?_⟩
  rw [hstored _ (by decide), hstored _ (by decide), computeCoefficients_reg, computeCoefficients_reg]
  obtain ⟨hhp, hhp'⟩ := fclamp_fge (s.f32 .hphz) hrange
  obtain ⟨hlp, hlp'⟩ := fclamp_fge (s.f32 .lphz) hrange
  exact ⟨hhp, hhp', hlp, hlp'⟩

end Sys2Proof.Machine
end

section
/-! The register map and the writes of the bus (10_state.md R36 to R58, 20_memory.md R81, R85), the command word, and
the state after reset. -/

namespace Sys2Proof.Machine

/-! ## The register map (10_state.md R40) -/

theorem Reg.ofIndex_index (r : Reg) : Reg.ofIndex r.index = some r := by cases r <;> rfl

theorem Reg.index_of_ofIndex {idx : Nat} {r : Reg} (h : Reg.ofIndex idx = some r) : r.index = idx := by
  unfold Reg.ofIndex at h
  split at h <;> cases h <;> rfl

theorem Reg.index_injective {r r' : Reg} (h : r.index = r'.index) : r = r' := by
  have hr := r.ofIndex_index
  rw [h, r'.ofIndex_index] at hr
  exact (Option.some.inj hr).symm

/-- The stored registers lie between `STATUS` and the cursors. -/
theorem Reg.index_bounds (r : Reg) : 3 ≤ r.index ∧ r.index < 0x40 := by cases r <;> decide

theorem regAt_index (p : Params) (r : Reg) : regAt p r.index = .stored r := by
  obtain ⟨hge, hlt⟩ := r.index_bounds
  unfold regAt
  rw [if_neg (by omega), if_neg (by omega), if_neg (by omega), if_neg (by omega), r.ofIndex_index]

theorem regAt_cursor {p : Params} {c : Nat} (h : c < p.nchMax) : regAt p (0x40 + c) = .wcur c := by
  unfold regAt
  rw [if_neg (by omega), if_neg (by omega), if_neg (by omega), if_pos (by omega),
    Nat.add_sub_cancel_left]

/-- An index with no register of its own, beyond the cursors of the implementation, is reserved. -/
theorem regAt_reserved {p : Params} {idx : Nat} (h : 3 ≤ idx) (hr : ∀ r : Reg, r.index ≠ idx)
    (hc : idx < 0x40 ∨ 0x40 + p.nchMax ≤ idx) : regAt p idx = .reserved := by
  have hnone : Reg.ofIndex idx = none :=
    Option.eq_none_iff_forall_ne_some.2 fun r he => hr r (Reg.index_of_ofIndex he)
  unfold regAt
  rw [if_neg (by omega), if_neg (by omega), if_neg (by omega), if_neg (by omega), hnone]

theorem index_of_regAt_stored {p : Params} {idx : Nat} {r : Reg} (h : regAt p idx = .stored r) :
    r.index = idx := by
  unfold regAt at h
  split_ifs at h
  split at h <;> cases h
  exact Reg.index_of_ofIndex ‹_›

theorem index_of_regAt_ctrl {p : Params} {idx : Nat} (h : regAt p idx = .ctrl) : idx = 1 := by
  unfold regAt at h
  split_ifs at h
  · assumption
  · split at h <;> cases h

theorem index_of_regAt_id {p : Params} {idx : Nat} (h : regAt p idx = .id) : idx = 0 := by
  unfold regAt at h
  split_ifs at h
  · assumption
  · split at h <;> cases h

/-! ## What an index reads as (10_state.md R40 to R43) -/

theorem readIndex_index (s : State) (r : Reg) : s.readIndex r.index = s.reg r := by
  rw [State.readIndex, regAt_index]

theorem readIndex_cursor {s : State} {c : Nat} (h : c < s.params.nchMax) :
    s.readIndex (0x40 + c) = word (s.cursor c) := by
  rw [State.readIndex, regAt_cursor h]

theorem readIndex_reserved {s : State} {idx : Nat} (h : 3 ≤ idx) (hr : ∀ r : Reg, r.index ≠ idx)
    (hc : idx < 0x40 ∨ 0x40 + s.params.nchMax ≤ idx) : s.readIndex idx = 0#32 := by
  rw [State.readIndex, regAt_reserved h hr hc]

/-- The fields of `CTRL` in its word (10_state.md R42). -/
theorem Ctrl.word_fields (c : Ctrl) :
    c.word = c.word &&& 7#32 ∧ c.word.getLsbD 0 = c.ie ∧
      c.word.getLsbD 1 = decide (c.smode = .onePole) ∧ c.word.getLsbD 2 = decide (c.xmode = .warp) := by
  obtain ⟨ie, smode, xmode⟩ := c
  cases ie <;> cases smode <;> cases xmode <;> decide

/-- The word of `CTRL` after a write is the written one without its reserved bits. -/
theorem Ctrl.word_ofWord (v : Word) : (Ctrl.ofWord v).word = v &&& 7#32 := by
  obtain ⟨hres, h0, h1, h2⟩ := (Ctrl.ofWord v).word_fields
  have hs : decide ((Ctrl.ofWord v).smode = .onePole) = v.getLsbD 1 := by
    unfold Ctrl.ofWord
    cases v.getLsbD 1 <;> rfl
  have hx : decide ((Ctrl.ofWord v).xmode = .warp) = v.getLsbD 2 := by
    unfold Ctrl.ofWord
    cases v.getLsbD 2 <;> rfl
  rw [hs] at h1
  rw [hx] at h2
  have h7 : ∀ i < 32, (7#32).getLsbD i = decide (i < 3) := by decide
  rw [hres]
  refine BitVec.eq_of_getLsbD_eq fun i hi => ?_
  rw [BitVec.getLsbD_and, BitVec.getLsbD_and, h7 i hi]
  rcases Nat.lt_or_ge i 3 with h | h
  · interval_cases i
    · rw [h0]
      rfl
    · rw [h1]
    · rw [h2]
  · rw [decide_eq_false (by omega), Bool.and_false, Bool.and_false]

/-- The fields of `STATUS` in its word (10_state.md R43). -/
theorem Status.word_fields (t : Status) :
    t.word = t.word &&& 0xF7#32 ∧ t.word.getLsbD 0 = t.prepared ∧ t.word.getLsbD 1 = t.err ∧
      t.word.getLsbD 2 = t.matOk ∧ t.word.extractLsb' 4 4 = t.errCode := by
  obtain ⟨prepared, err, matOk, errCode⟩ := t
  revert prepared err matOk errCode
  decide

/-- The reserved indices below the cursors (10_state.md R40). -/
theorem Reg.index_not_mem_reserved (r : Reg) : r.index ∉ [0x17, 0x21, 0x22, 0x23, 0x32, 0x33, 0x37, 0x38,
    0x39, 0x3A, 0x3B, 0x3C, 0x3D, 0x3E, 0x3F] := by cases r <;> decide

/-- Settles O45: the fields of the two flag words, and what stands at each other index. -/
theorem registerMapReads : Obligations.RegisterMapReads := by
  intro s _
  obtain ⟨cres, cie, csmode, cxmode⟩ := s.ctrl.word_fields
  obtain ⟨sres, sprepared, serr, smatOk, scode⟩ := s.status.word_fields
  have hctrl : s.readIndex 1 = s.ctrl.word := rfl
  have hstatus : s.readIndex 2 = s.status.word := rfl
  rw [hctrl, hstatus, cie, csmode, cxmode, sprepared, serr, smatOk]
  refine ⟨rfl, cres, .rfl, decide_eq_true_iff, decide_eq_true_iff, sres, .rfl, .rfl, .rfl, scode,
    readIndex_index s, fun c hc => readIndex_cursor hc, ?_⟩
  rintro idx (hidx | ⟨hidx, -⟩)
  · refine readIndex_reserved ?_ (fun r he => r.index_not_mem_reserved (he ▸ hidx)) (.inl ?_)
    · revert idx; decide
    · revert idx; decide
  · refine readIndex_reserved (by omega) (fun r he => ?_) (.inr hidx)
    have := r.index_bounds
    omega

/-! ## Writes to a register index (20_memory.md R85) -/

/-- A write to any address but `CMD` ends as `writeTarget` says. -/
theorem step_write {s : State} {A : BitVec 27} {v : Word} {rest : List BusOp}
    (h : s.pending = .write A v :: rest) (hA : A.toNat ≠ cmdAddr) :
    step s = .next ((writeTarget (target s A.toNat) v (s.taken rest)).1.withReply
      (some (writeTarget (target s A.toNat) v (s.taken rest)).2)) := by
  rw [step_of_pending h]
  exact if_neg hA

theorem target_reg (s : State) {A : Nat} (h : A ≤ 0xFF) : target s A = .reg A := if_pos h

theorem step_writeReg {s : State} {A : BitVec 27} {v : Word} {rest : List BusOp}
    (h : s.pending = .write A v :: rest) (hA : A.toNat ≠ cmdAddr) (hle : A.toNat ≤ 0xFF) :
    step s = .next ((writeIndex A.toNat v (s.taken rest)).withReply (some .done)) := by
  rw [step_write h hA, target_reg s hle]
  rfl

/-- A write to a stored register, `CMD` excepted. -/
theorem step_writeStored {s : State} {A : BitVec 27} {v : Word} {r : Reg} {rest : List BusOp}
    (h : s.pending = .write A v :: rest) (hA : A.toNat = r.index) (hr : r ≠ .cmd) :
    step s = .next ((writeStored r v (s.taken rest)).withReply (some .done)) := by
  have hlt := r.index_bounds.2
  rw [step_writeReg h (fun he => hr (Reg.index_injective (hA.symm.trans he))) (by omega), hA, writeIndex,
    regAt_index]

theorem writeStored_of_plain {r : Reg} (hk : r.kind = .rw) (ha : ¬ (r = .yaw ∨ r = .pitch ∨ r = .roll))
    (v : Word) (s : State) : writeStored r v s = s.setReg r v := by
  unfold writeStored
  rw [hk]
  exact if_neg ha

theorem writeStored_of_angle {r : Reg} (ha : r = .yaw ∨ r = .pitch ∨ r = .roll)
    (v : Word) (s : State) : writeStored r v s = writeAngle r v s := by
  have hk : r.kind = .rw := by rcases ha with rfl | rfl | rfl <;> rfl
  unfold writeStored
  rw [hk]
  exact if_pos ha

/-- A write changes nothing at an index that is neither `CTRL` nor a register the bus can write. -/
theorem writeIndex_of_readOnly {idx : Nat} (h1 : idx ≠ 1) (hr : ∀ r : Reg, r.index = idx → r.kind = .ro)
    (v : Word) (s : State) : writeIndex idx v s = s := by
  unfold writeIndex
  cases hat : regAt s.params idx with
  | id => rfl
  | ctrl => exact absurd (index_of_regAt_ctrl hat) h1
  | status => rfl
  | stored r =>
    dsimp only
    rw [writeStored, hr r (index_of_regAt_stored hat)]
  | wcur c => rfl
  | reserved => rfl

/-- The indices of `RegisterWrites` at which a write is ignored hold no register that the bus can write. -/
theorem Reg.kind_of_readOnly_index (r : Reg) (h : r.index ∈ [0x00, 0x02, 0x03, 0x05, 0x0C, 0x0D, 0x0E, 0x0F,
      0x10, 0x11, 0x13, 0x14, 0x17, 0x20, 0x21, 0x22, 0x23, 0x26, 0x27, 0x32, 0x33] ∨ 0x37 ≤ r.index) :
    r.kind = .ro := by
  revert h
  cases r <;> decide

/-- Settles O46: a plain register is stored by `setReg`; every other listed index takes no write. -/
theorem registerWrites : Obligations.RegisterWrites := by
  intro s A v rest _ hpend
  constructor
  · intro r hr hA
    have hplain : r.kind = .rw ∧ ¬ (r = .yaw ∨ r = .pitch ∨ r = .roll) ∧ r ≠ .cmd := by
      clear hA
      revert r
      decide
    obtain ⟨hk, ha, hcmd⟩ := hplain
    rw [step_writeStored hpend hA hcmd, writeStored_of_plain hk ha]
  · intro hA
    have hro : ∀ r : Reg, r.index = A.toNat → r.kind = .ro := fun r he =>
      r.kind_of_readOnly_index (by rw [he]; exact hA.imp_right And.left)
    have hbounds : A.toNat ≠ cmdAddr ∧ A.toNat ≤ 0xFF ∧ A.toNat ≠ 1 := by
      unfold cmdAddr
      simp only [List.mem_cons, List.not_mem_nil, or_false] at hA
      omega
    obtain ⟨hcmd, hle, h1⟩ := hbounds
    rw [step_writeReg hpend hcmd hle, writeIndex_of_readOnly h1 hro]

/-! ## Writes that store a computed value or clear `MAT_OK` (10_state.md R42, R50, R57, R64) -/

/-- A write to `CTRL` changes its fields, and `MAT_OK` alone of `STATUS`. -/
theorem writeCtrl_eq (v : Word) (s : State) : writeCtrl v s =
    { s with
      ctrl := Ctrl.ofWord v
      status := { s.status with
        matOk := if (Ctrl.ofWord v).xmode = s.ctrl.xmode then s.status.matOk else false } } := by
  unfold writeCtrl
  dsimp only
  split <;> rfl

/-- Settles O47: by `writeCtrl_eq` only `CTRL` and `MAT_OK` differ from the state taken. -/
theorem ctrlWrite : Obligations.CtrlWrite := by
  intro s v rest hpend
  refine ⟨_, step_writeReg hpend (by decide) (by decide), ?_⟩
  have hw : writeIndex (0x01#27).toNat v (s.taken rest) = writeCtrl v (s.taken rest) := rfl
  rw [hw, writeCtrl_eq]
  exact ⟨Ctrl.word_ofWord v, rfl, rfl, rfl, ⟨rfl, rfl, fun _ _ => rfl, fun _ _ => rfl, fun _ _ => rfl, rfl,
    rfl, rfl⟩⟩

/-- The block size a write to `NSAMP` stores (10_state.md R50). -/
def legalBlock (s : State) (v : Word) : Word :=
  if v = 0#32 then 1#32 else if s.nat .blkl < v.toNat then s.reg .blkl else v

theorem writeNsamp_of_prepared {s : State} (h : s.status.prepared = true) (v : Word) :
    writeNsamp v s = s.setReg .nsamp (legalBlock s v) := if_pos h

theorem writeNsamp_of_unprepared {s : State} (h : s.status.prepared = false) (v : Word) :
    writeNsamp v s = s := if_neg (by simp [h])

theorem legalBlock_zero (s : State) : legalBlock s 0#32 = 1#32 := rfl

theorem legalBlock_above {s : State} {v : Word} (h : s.nat .blkl < v.toNat) :
    legalBlock s v = s.reg .blkl := by
  have hv : v ≠ 0#32 := by
    rintro rfl
    exact Nat.not_lt_zero _ h
  rw [legalBlock, if_neg hv, if_pos h]

theorem legalBlock_within {s : State} {v : Word} (h1 : 1 ≤ v.toNat) (h2 : v.toNat ≤ s.nat .blkl) :
    legalBlock s v = v := by
  have hv : v ≠ 0#32 := by
    rintro rfl
    exact Nat.not_lt_zero _ h1
  rw [legalBlock, if_neg hv, if_neg (by omega)]

/-- Settles O48, apart for a device that is prepared and one that is not. -/
theorem nsampWrite : Obligations.NsampWrite := by
  intro s v rest hpend
  refine ⟨_, step_writeStored (r := .nsamp) hpend rfl (by decide), rfl, ?_⟩
  have hw : writeStored .nsamp v (s.taken rest) = writeNsamp v (s.taken rest) := rfl
  rw [hw]
  cases hp : s.status.prepared
  · rw [writeNsamp_of_unprepared (s := s.taken rest) hp]
    exact ⟨rfl, fun _ => rfl, nofun, nofun, nofun, KeepsBut.refl _ _ _ _⟩
  · rw [writeNsamp_of_prepared (s := s.taken rest) hp, State.reg_withReply, State.reg_setReg_same]
    refine ⟨rfl, nofun, ?_, fun _ h => legalBlock_above h, fun _ h1 h2 => legalBlock_within h1 h2,
      (KeepsBut.refl _ _ _ _).setReg _ _⟩
    rintro - rfl
    rfl

/-- A write to an angle stores it, and clears `MAT_OK` in Rotate mode. -/
theorem writeAngle_eq (r : Reg) (v : Word) (s : State) : writeAngle r v s =
    (s.setReg r v).setMatOk (if s.ctrl.xmode = .rotate then false else s.status.matOk) := by
  unfold writeAngle
  dsimp only
  split <;> rfl

/-- Settles O49: by `writeAngle_eq` the write is one register and the flag. -/
theorem angleWrite : Obligations.AngleWrite := by
  intro s A v r rest _ hpend hr hA
  have ha : r = .yaw ∨ r = .pitch ∨ r = .roll := by simpa using hr
  have hcmd : r ≠ .cmd := by rcases ha with rfl | rfl | rfl <;> decide
  refine ⟨_, step_writeStored hpend hA hcmd, ?_⟩
  rw [writeStored_of_angle ha, writeAngle_eq]
  refine ⟨?_, rfl, rfl, ((KeepsBut.refl [] nowhere nowhere _).setReg r v).setMatOk _⟩
  rw [State.reg_withReply, State.reg_setMatOk, State.reg_setReg_same]

/-! ## Writes to the memories (20_memory.md R81, R85, R89) -/

/-- The address of an element of `MAT` or `CB` is the one the map gives it. -/
theorem addr_of_target_mat {s : State} {A i j : Nat} (h : target s A = .mat i j) : A = matAddr i j := by
  unfold target Target.ifExists at h
  unfold matAddr matBase
  split_ifs at h
  cases h
  omega

theorem addr_of_target_cb {s : State} {A c n : Nat} (h : target s A = .cb c n) : A = cbAddr c n := by
  unfold target Target.ifExists at h
  unfold cbAddr cbBase
  split_ifs at h
  cases h
  omega

/-- A store changes its own word alone. -/
theorem KeepsBut.store {rs : List Reg} {cs : Nat → Prop} (s : State) (A : Nat) (v : Word) :
    KeepsBut rs cs (· = A) s (s.store A v) :=
  ⟨rfl, rfl, fun _ _ => rfl, fun _ _ => rfl, (Memory.touches_writeWord s.mem A v).outside, rfl, rfl, rfl⟩

/-- Settles O50: the store, and for `MAT` the flag. -/
theorem elementWrite : Obligations.ElementWrite := by
  intro s A v rest hpend
  have hread : ∀ B, (s.mem.writeWord B v).readWord B = v := fun B =>
    Memory.readWord_writeWord_same s.mem B v
  constructor
  · intro i j ht
    have hA := addr_of_target_mat ht
    have hcmd : A.toNat ≠ cmdAddr := by
      unfold cmdAddr
      unfold matAddr matBase at hA
      omega
    refine ⟨_, step_write hpend hcmd, ?_⟩
    rw [ht, hA]
    exact ⟨hread (matAddr i j), rfl, rfl, (KeepsBut.store _ _ v).setMatOk false⟩
  · intro c n ht
    have hA := addr_of_target_cb ht
    have hcmd : A.toNat ≠ cmdAddr := by
      unfold cmdAddr
      unfold cbAddr cbBase at hA
      omega
    refine ⟨_, step_write hpend hcmd, ?_⟩
    rw [ht, hA]
    exact ⟨hread (cbAddr c n), rfl, rfl, KeepsBut.store _ _ v⟩

/-! ## The command word (30_encoding.md R112) -/

theorem transact_commandWrite (w : Word) (s : State) :
    transact (commandWrite w) s = replyDone (execute w (s.setReg .cmd w)) := rfl

theorem execute_of_decode {w : Word} {i : Instr} (h : decode w = .ok i) (s : State) :
    execute w s = exec i s := by
  unfold execute
  rw [h]

/-- Settles O5: the step takes the write to `CMD`, which stores the word and runs what it decodes to. -/
theorem stepRunsDecodedCommand : Obligations.StepRunsDecodedCommand := by
  intro s w i rest hpend hdec
  rw [step_of_pending hpend, transact_commandWrite, execute_of_decode hdec]

/-! ## The state after reset (10_state.md R65) -/

theorem reset_reg (r : Reg) : State.reset.reg r = 0#32 := Vector.getElem_replicate _

theorem reset_cursor (c : Nat) : State.reset.cursor c = 0 := by
  unfold State.cursor State.reset
  rcases Nat.lt_or_ge c 64 with h | h <;> simp [h]

/-- `BUF` is out of the map while the device is not prepared (40_system.md R136). -/
theorem target_buf_of_unprepared {s : State} (h : s.status.prepared = false) {A : Nat}
    (hA : 0x4000000 ≤ A) : target s A = .unmapped := by
  have hnone : ¬ (s.status.prepared = true ∧ (A - 0x4000000) / 0x100000 < s.nat .nchl ∧
      (A - 0x4000000) % 0x100000 < s.nat .len) := by simp [h]
  unfold target Target.ifExists
  rw [if_neg (by omega), if_neg (by omega), if_neg (by omega), if_neg (by omega), if_neg hnone, ite_self]

/-- Settles O53: index 0 alone holds `ID`, and whatever stands at another index is 0. -/
theorem resetState : Obligations.ResetState := by
  refine ⟨rfl, fun idx h1 _ => ?_, rfl, rfl, fun A hA => target_buf_of_unprepared rfl hA,
    .of_reset (by decide) (Memory.powerOn_wf 0) rfl rfl⟩
  unfold State.readIndex
  cases hat : regAt State.reset.params idx with
  | id =>
    have := index_of_regAt_id hat
    omega
  | ctrl => rfl
  | status => rfl
  | stored r => exact reset_reg r
  | wcur c =>
    dsimp only
    rw [reset_cursor]
    rfl
  | reserved => rfl

end Sys2Proof.Machine
end

section
/-! The address map as a relation between addresses and elements (20_memory.md R81), what a transaction answers
(R82 to R88), and that memory stays within the map. -/

namespace Sys2Proof.Machine

/-! ## The address map (20_memory.md R81) -/

/-- Word address `A` is the place of `x`, and `x` exists. -/
def Located (s : State) (A : Nat) : Target → Prop
  | .reg r => A = r ∧ r ≤ 0xFF
  | .mat i j => i < s.params.nchMax ∧ j < s.params.nchMax ∧ A = matAddr i j
  | .fst c t => c < s.params.nchMax ∧ t < 4 ∧ A = fstAddr c t
  | .cb c n => c < s.params.nchMax ∧ n < s.params.bmax ∧ A = cbAddr c n
  | .buf c k => s.status.prepared = true ∧ c < s.nat .nchl ∧ k < s.nat .len ∧ A = bufAddr c k
  | .unmapped => True

/-- The sizes under which no element lies outside its window. -/
structure WindowsFit (s : State) : Prop where
  nchMax_le : s.params.nchMax ≤ 64
  bmax_le : s.params.bmax ≤ 0x4000
  nchl_le : s.status.prepared = true → s.nat .nchl ≤ 64
  len_le : s.status.prepared = true → s.nat .len ≤ 0x100000

theorem StateInv.windowsFit {s : State} (h : StateInv s) : WindowsFit s where
  nchMax_le := (Params.bounds h.params_ok).1
  bmax_le := (Params.bounds h.params_ok).2.2.1
  nchl_le hp := (h.block_le hp).2.2.1
  len_le hp := (h.bufferOk hp).len_le

theorem ifExists_of {there : Prop} [Decidable there] (h : there) (x : Target) : Target.ifExists there x = x :=
  if_pos h

/-- What the map answers lies where it was asked for. -/
theorem located_target (s : State) (A : Nat) : Located s A (target s A) := by
  unfold target Target.ifExists
  split_ifs with hreg hmat hmat' hfst hfst' hcb hcb' hbuf hbuf'
  · exact ⟨rfl, hreg⟩
  · exact ⟨hmat'.1, hmat'.2, by unfold matAddr matBase; omega⟩
  · trivial
  · exact ⟨hfst', by omega, by unfold fstAddr fstBase; omega⟩
  · trivial
  · exact ⟨hcb'.1, hcb'.2, by unfold cbAddr cbBase; omega⟩
  · trivial
  · exact ⟨hbuf'.1, hbuf'.2.1, hbuf'.2.2, by unfold bufAddr bufBase; omega⟩
  · trivial
  · trivial

/-- The map finds every element that exists: its address is in the window of its kind alone. -/
theorem target_of_located {s : State} (h : WindowsFit s) {A : Nat} {x : Target} (hx : x ≠ .unmapped)
    (hl : Located s A x) : target s A = x := by
  have hn := h.nchMax_le
  have hb := h.bmax_le
  cases x with
  | reg r =>
    obtain ⟨rfl, hr⟩ := hl
    exact target_reg s hr
  | mat i j =>
    obtain ⟨hi, hj, rfl⟩ := hl
    have hrow : (matAddr i j - 0x1000) / 64 = i := by unfold matAddr matBase; omega
    have hcol : (matAddr i j - 0x1000) % 64 = j := by unfold matAddr matBase; omega
    have hwin : 0x1000 ≤ matAddr i j ∧ matAddr i j ≤ 0x1FFF := by unfold matAddr matBase; omega
    unfold target
    rw [if_neg (by omega), if_pos hwin, hrow, hcol, ifExists_of ⟨hi, hj⟩]
  | fst c t =>
    obtain ⟨hc, ht, rfl⟩ := hl
    have hrow : (fstAddr c t - 0x2000) / 4 = c := by unfold fstAddr fstBase; omega
    have hcol : (fstAddr c t - 0x2000) % 4 = t := by unfold fstAddr fstBase; omega
    have hwin : 0x2000 ≤ fstAddr c t ∧ fstAddr c t ≤ 0x20FF := by unfold fstAddr fstBase; omega
    unfold target
    rw [if_neg (by omega), if_neg (by omega), if_pos hwin, hrow, hcol, ifExists_of hc]
  | cb c n =>
    obtain ⟨hc, hn', rfl⟩ := hl
    have hrow : (cbAddr c n - 0x100000) / 0x4000 = c := by unfold cbAddr cbBase; omega
    have hcol : (cbAddr c n - 0x100000) % 0x4000 = n := by unfold cbAddr cbBase; omega
    have hwin : 0x100000 ≤ cbAddr c n ∧ cbAddr c n ≤ 0x1FFFFF := by unfold cbAddr cbBase; omega
    unfold target
    rw [if_neg (by omega), if_neg (by omega), if_neg (by omega), if_pos hwin, hrow, hcol,
      ifExists_of ⟨hc, hn'⟩]
  | buf c k =>
    obtain ⟨hp, hc, hk, rfl⟩ := hl
    have hnchl := h.nchl_le hp
    have hlen := h.len_le hp
    have hrow : (bufAddr c k - 0x4000000) / 0x100000 = c := by unfold bufAddr bufBase; omega
    have hcol : (bufAddr c k - 0x4000000) % 0x100000 = k := by unfold bufAddr bufBase; omega
    have hwin : 0x4000000 ≤ bufAddr c k ∧ bufAddr c k ≤ 0x7FFFFFF := by unfold bufAddr bufBase; omega
    unfold target
    rw [if_neg (by omega), if_neg (by omega), if_neg (by omega), if_neg (by omega), if_pos hwin, hrow, hcol,
      ifExists_of ⟨hp, hc, hk⟩]
  | unmapped => exact absurd rfl hx

theorem target_eq_iff {s : State} (h : WindowsFit s) {A : Nat} {x : Target} (hx : x ≠ .unmapped) :
    target s A = x ↔ Located s A x :=
  ⟨fun he => he ▸ located_target s A, target_of_located h hx⟩

/-- Settles O43: each clause is `Located` for its kind of element. -/
theorem addressMapIsExact : Obligations.AddressMapIsExact := fun _ _ h =>
  have hw := h.windowsFit
  ⟨fun _ => target_eq_iff hw nofun, fun _ _ => target_eq_iff hw nofun, fun _ _ => target_eq_iff hw nofun,
    fun _ _ => target_eq_iff hw nofun, fun _ _ => target_eq_iff hw nofun⟩

/-! ## What a transaction answers (20_memory.md R82 to R88) -/

theorem readReply_eq_busFault_iff (s : State) (A : Nat) : readReply s A = .busFault ↔ readFaults s A := by
  unfold readReply readFaults
  cases target s A <;> simp

theorem writeTarget_busFault_iff (x : Target) (v : Word) (s : State) :
    (writeTarget x v s).2 = .busFault ↔ x = .unmapped ∨ (∃ c i, x = .fst c i) ∨ ∃ c k, x = .buf c k := by
  cases x <;> simp [writeTarget]

/-- A write that faults changes nothing. -/
theorem writeTarget_of_busFault {x : Target} {v : Word} {s : State}
    (h : (writeTarget x v s).2 = .busFault) : writeTarget x v s = (s, .busFault) := by
  cases x with
  | reg idx => cases h
  | mat i j => cases h
  | fst c t => rfl
  | cb c n => cases h
  | buf c k => rfl
  | unmapped => rfl

/-- What a transaction does: it is refused as no whole word, read, written or executed as a command at one word
address, or a reset; and whether it is one of the bus faults of R88. -/
inductive Served (s : State) (op : BusOp) : State → Prop
  | refused (hf : busFaults s op) : Served s op (s.withReply (some .busFault))
  | read (A : Nat) (hf : busFaults s op ↔ readFaults s A) :
      Served s op (s.withReply (some (readReply s A)))
  | written (A : Nat) (v : Word) (hf : busFaults s op ↔ writeFaults s A) :
      Served s op ((writeTarget (target s A) v s).1.withReply (some (writeTarget (target s A) v s).2))
  | executed (w : Word) {u : State} (hf : ¬ busFaults s op) (he : execute w (s.setReg .cmd w) = .next u) :
      Served s op (u.withReply (some .done))
  | reset (hf : ¬ busFaults s op) : Served s op s.afterReset

theorem execute_next (w : Word) (s : State) : ∃ t, execute w s = .next t := by
  unfold execute
  split
  · obtain ⟨t, ht, -⟩ := exec_answers _ s
    exact ⟨t, ht⟩
  · exact ⟨_, rfl⟩

theorem busWrite_serves {s : State} {op : BusOp} {A : Nat} (v : Word)
    (hf : busFaults s op ↔ writeFaults s A) : ∃ t, busWrite A v s = .next t ∧ Served s op t := by
  unfold busWrite
  split
  · next hA =>
    have hcmd : ¬ writeFaults s A := by
      rw [hA]
      exact fun h => BusReply.noConfusion ((writeTarget_busFault_iff (.reg cmdAddr) v s).2 h)
    obtain ⟨u, hu⟩ := execute_next v (s.setReg .cmd v)
    rw [hu]
    exact ⟨_, rfl, .executed v (hf.not.2 hcmd) hu⟩
  · exact ⟨_, rfl, .written A v hf⟩

theorem wholeWord_eq_true {o : BitVec 29} {size : Nat} :
    wholeWord o size = true ↔ size = 4 ∧ o.toNat % 4 = 0 := by simp [wholeWord]

/-- An access that is one whole aligned word faults as the word access does (20_memory.md R87). -/
theorem mapped_faults_iff {o : BitVec 29} {size : Nat} (h : wholeWord o size = true) (P : Prop) :
    (size ≠ 4 ∨ o.toNat % 4 ≠ 0 ∨ P) ↔ P := by
  obtain ⟨hs, ho⟩ := wholeWord_eq_true.1 h
  simp [hs, ho]

theorem mapped_faults_of_not {o : BitVec 29} {size : Nat} (h : ¬ wholeWord o size = true) (P : Prop) :
    size ≠ 4 ∨ o.toNat % 4 ≠ 0 ∨ P := by
  rw [wholeWord_eq_true] at h
  tauto

/-- Every transaction answers a next state, and one of the five of `Served`. -/
theorem transact_serves (op : BusOp) (s : State) : ∃ t, transact op s = .next t ∧ Served s op t := by
  cases op with
  | read A => exact ⟨_, rfl, .read A.toNat .rfl⟩
  | write A v => exact busWrite_serves v .rfl
  | mappedRead o size =>
    unfold transact
    dsimp only
    split
    · exact ⟨_, rfl, .read _ (mapped_faults_iff ‹_› _)⟩
    · exact ⟨_, rfl, .refused (mapped_faults_of_not ‹_› _)⟩
  | mappedWrite o size v =>
    unfold transact
    dsimp only
    split
    · exact busWrite_serves v (mapped_faults_iff ‹_› _)
    · exact ⟨_, rfl, .refused (mapped_faults_of_not ‹_› _)⟩
  | reset => exact ⟨_, rfl, .reset id⟩

/-- What a transaction has answered is one of the five of `Served`. -/
theorem served_of_transact {s t : State} {op : BusOp} (h : transact op s = .next t) : Served s op t := by
  obtain ⟨u, hu, hs⟩ := transact_serves op s
  obtain rfl : u = t := by simpa using hu.symm.trans h
  exact hs

/-- Settles O14: an idle step and every transaction answer a next state. -/
theorem deviceNeverStops : Obligations.DeviceNeverStops := by
  intro s
  cases hp : s.pending with
  | nil => exact ⟨_, step_of_idle hp⟩
  | cons op rest =>
    obtain ⟨t, ht, -⟩ := transact_serves op (s.taken rest)
    exact ⟨t, (step_of_pending hp).trans ht⟩

/-- The reply is a bus fault for the transactions of `busFaults` alone, and then nothing else has changed. -/
theorem Served.busFault_iff {s t : State} {op : BusOp} (h : Served s op t) :
    (t.reply = some .busFault ↔ busFaults s op) ∧
      (busFaults s op → t = s.withReply (some .busFault)) := by
  cases h with
  | refused hf => exact ⟨iff_of_true rfl hf, fun _ => rfl⟩
  | read A hf =>
    rw [hf, ← readReply_eq_busFault_iff, State.withReply_reply, Option.some_inj]
    exact ⟨.rfl, fun h => by rw [h]⟩
  | written A v hf =>
    rw [hf, State.withReply_reply, Option.some_inj, writeFaults, ← writeTarget_busFault_iff _ v s]
    exact ⟨.rfl, fun h => by rw [writeTarget_of_busFault h]⟩
  | executed w hf he => exact ⟨iff_of_false nofun hf, fun h => absurd h hf⟩
  | reset hf => exact ⟨iff_of_false nofun hf, fun h => absurd h hf⟩

/-- Taking a transaction off the list changes nothing that the map looks at. -/
theorem busFaults_taken (s : State) (rest : List BusOp) (op : BusOp) :
    busFaults (s.taken rest) op ↔ busFaults s op := by cases op <;> exact .rfl

/-- Settles O51. -/
theorem busFaultChangesNothing : Obligations.BusFaultChangesNothing := by
  intro s op rest hpend
  obtain ⟨t, ht, hs⟩ := transact_serves op (s.taken rest)
  refine ⟨t, (step_of_pending hpend).trans ht, ?_⟩
  rw [← busFaults_taken s rest op]
  exact hs.busFault_iff

/-- Settles O44: the reply is `readReply`, which the transaction's own bookkeeping leaves as it was. -/
theorem readAnswersElement : Obligations.ReadAnswersElement := by
  intro s A rest hpend
  have hstep : step s = .next ((s.taken rest).withReply (some (readReply s A.toNat))) :=
    step_of_pending hpend
  refine ⟨_, hstep, ?_⟩
  unfold readReply
  cases target s A.toNat <;> rfl

/-! ## The byte mapping (20_memory.md R86, R87) -/

theorem transact_mappedRead {o : BitVec 29} {A : BitVec 27} (h : o.toNat = 4 * A.toNat) (s : State) :
    transact (.mappedRead o 4) s = transact (.read A) s := by
  have hw : wholeWord o 4 = true := wholeWord_eq_true.2 ⟨rfl, by omega⟩
  have hA : o.toNat / 4 = A.toNat := by omega
  unfold transact
  dsimp only
  rw [if_pos hw, hA]

theorem transact_mappedWrite {o : BitVec 29} {A : BitVec 27} (h : o.toNat = 4 * A.toNat) (v : Word)
    (s : State) : transact (.mappedWrite o 4 v) s = transact (.write A v) s := by
  have hw : wholeWord o 4 = true := wholeWord_eq_true.2 ⟨rfl, by omega⟩
  have hA : o.toNat / 4 = A.toNat := by omega
  unfold transact
  dsimp only
  rw [if_pos hw, hA]

/-- Settles O52: the two accesses are one transaction. -/
theorem mappedWordIsWord : Obligations.MappedWordIsWord := fun s _ _ v rest h =>
  ⟨transact_mappedRead h (s.taken rest), transact_mappedWrite h v (s.taken rest)⟩

end Sys2Proof.Machine
end

section
/-! Every step keeps the memory within the map (20_memory.md R81): a command or a bus write stores into elements
that exist, and the map itself changes with `PREPARE` and reset alone. -/

namespace Sys2Proof.Machine

/-! ## Elements that exist -/

theorem isElement_of_located {s : State} (h : WindowsFit s) {A : Nat} {x : Target}
    (hx : x.isElement = true) (hl : Located s A x) : (target s A).isElement = true := by
  rw [target_of_located h (by rintro rfl; cases hx) hl]
  exact hx

theorem matWords_isElement {s : State} (h : WindowsFit s) {n A : Nat} (hn : n ≤ s.params.nchMax)
    (hA : matWords n A) : (target s A).isElement = true := by
  obtain ⟨i, j, hi, hj, rfl⟩ := hA
  exact isElement_of_located h (x := .mat i j) rfl ⟨by omega, by omega, rfl⟩

theorem fstWords_isElement {s : State} (h : WindowsFit s) {C : Nat → Prop} {A : Nat}
    (hC : ∀ c, C c → c < s.params.nchMax) (hA : fstWords C A) : (target s A).isElement = true := by
  obtain ⟨c, t, hc, ht, rfl⟩ := hA
  exact isElement_of_located h (x := .fst c t) rfl ⟨hC c hc, ht, rfl⟩

theorem cbWords_isElement {s : State} (h : WindowsFit s) {C : Nat → Prop} {b A : Nat}
    (hC : ∀ c, C c → c < s.params.nchMax) (hb : b ≤ s.params.bmax) (hA : cbWords C b A) :
    (target s A).isElement = true := by
  obtain ⟨c, n, hc, hn, rfl⟩ := hA
  exact isElement_of_located h (x := .cb c n) rfl ⟨hC c hc, by omega, rfl⟩

theorem bufWords_isElement {s : State} (h : WindowsFit s) (hp : s.status.prepared = true) {C : Nat → Prop}
    {A : Nat} (hC : ∀ c, C c → c < s.nat .nchl) (hA : bufWords C (s.nat .len) A) :
    (target s A).isElement = true := by
  obtain ⟨c, k, hc, hk, rfl⟩ := hA
  exact isElement_of_located h (x := .buf c k) rfl ⟨hp, hC c hc, hk, rfl⟩

theorem inBuf_iff {a : Nat} : inBuf a = true ↔ bufBase ≤ a / 4 := by
  unfold inBuf
  rw [decide_eq_true_iff]
  omega

/-- An element outside the `BUF` window exists under every preparation. -/
theorem isElement_of_params {s t : State} (h : WindowsFit t) (hp : t.params = s.params) {A : Nat}
    (he : (target s A).isElement = true) : (target t A).isElement = true ∨ bufBase ≤ A := by
  have hl := located_target s A
  cases hx : target s A with
  | reg r =>
    rw [hx] at he
    cases he
  | mat i j =>
    rw [hx, Located, ← hp] at hl
    exact .inl (isElement_of_located h (x := .mat i j) rfl hl)
  | fst c i =>
    rw [hx, Located, ← hp] at hl
    exact .inl (isElement_of_located h (x := .fst c i) rfl hl)
  | cb c n =>
    rw [hx, Located, ← hp] at hl
    exact .inl (isElement_of_located h (x := .cb c n) rfl hl)
  | buf c k =>
    rw [hx] at hl
    obtain ⟨-, -, -, hA⟩ := hl
    exact .inr (by unfold bufAddr at hA; omega)
  | unmapped =>
    rw [hx] at he
    cases he

/-! ## Changes that keep the map and store into its elements alone -/

/-- The registers that the map depends on. -/
def mapRegs : List Reg := [.nchl, .len]

theorem target_congr {s t : State} (hp : t.params = s.params)
    (hprep : t.status.prepared = s.status.prepared) (hr : ∀ r ∈ mapRegs, t.reg r = s.reg r) (A : Nat) :
    target t A = target s A := by
  unfold target State.nat
  rw [hp, hprep, hr .nchl (by decide), hr .len (by decide)]

/-- `t` has the map of `s`, and its memory differs from that of `s` at existing elements alone. -/
structure KeepsMap (s t : State) : Prop where
  map : ∀ A, target t A = target s A
  prepared : t.status.prepared = s.status.prepared
  touches : Memory.Touches (fun A => (target s A).isElement = true) s.mem t.mem

theorem KeepsMap.refl (s : State) : KeepsMap s s := ⟨fun _ => rfl, rfl, Memory.Touches.refl _ _⟩

theorem KeepsMap.trans {s t u : State} (h : KeepsMap s t) (h' : KeepsMap t u) : KeepsMap s u where
  map A := (h'.map A).trans (h.map A)
  prepared := h'.prepared.trans h.prepared
  touches := h.touches.trans (h'.touches.mono fun A hA => by rwa [h.map A] at hA)

/-- Such a change keeps the memory within the map. -/
theorem MemoryInMap.of_keepsMap {s t : State} (h : MemoryInMap s) (hk : KeepsMap s t) : MemoryInMap t := by
  intro cell hc
  rw [hk.map, hk.prepared]
  rcases hk.touches.listed cell hc with he | hs
  · exact .inl he
  · exact h cell hs

theorem KeepsMap.of_mem_eq {s t : State} (hp : t.params = s.params)
    (hprep : t.status.prepared = s.status.prepared) (hr : ∀ r ∈ mapRegs, t.reg r = s.reg r)
    (hm : t.mem = s.mem) : KeepsMap s t :=
  ⟨target_congr hp hprep hr, hprep, hm ▸ Memory.Touches.refl _ _⟩

theorem KeepsMap.of_skeleton {s t : State} {W : Nat → Prop} (hs : t.skeleton = s.skeleton)
    (hm : Memory.Touches W s.mem t.mem) (hW : ∀ A, W A → (target s A).isElement = true) : KeepsMap s t :=
  have hprep := congrArg Status.prepared (State.status_of_skeleton hs)
  ⟨target_congr (State.params_of_skeleton hs) hprep fun r _ => State.reg_of_skeleton hs r, hprep, hm.mono hW⟩

theorem KeepsMap.store {s : State} {A : Nat} (h : (target s A).isElement = true) (v : Word) :
    KeepsMap s (s.store A v) :=
  .of_skeleton (State.skeleton_store s A v) (Memory.touches_writeWord s.mem A v) (by rintro _ rfl; exact h)

theorem KeepsMap.setReg (s : State) {r : Reg} (hr : r ∉ mapRegs) (v : Word) : KeepsMap s (s.setReg r v) :=
  .of_mem_eq rfl rfl (fun r' hr' => State.reg_setReg_ne s (by rintro rfl; exact hr hr') v) rfl

theorem KeepsMap.setMatOk (s : State) (b : Bool) : KeepsMap s (s.setMatOk b) :=
  .of_mem_eq rfl rfl (fun _ _ => rfl) rfl

theorem KeepsMap.withReply (s : State) (r : Option BusReply) : KeepsMap s (s.withReply r) :=
  .of_mem_eq rfl rfl (fun _ _ => rfl) rfl

theorem KeepsMap.taken (s : State) (rest : List BusOp) : KeepsMap s (s.taken rest) :=
  .of_mem_eq rfl rfl (fun _ _ => rfl) rfl

theorem KeepsMap.complete (s : State) : KeepsMap s s.complete := .setReg s (by decide) _

theorem KeepsMap.raise (s : State) (k : Cause) (w : Word) : KeepsMap s (s.raise k w) :=
  .of_mem_eq (State.raise_params s k w) (State.raise_prepared s k w)
    (fun _ hr => State.reg_raise s k w _ (by rintro rfl; revert hr; decide)) (State.raise_mem s k w)

/-! ## The units store into existing elements -/

/-- The working channels and samples of a block exist (10_state.md R66). -/
theorem StateInv.block_exists {s : State} (h : StateInv s) (hp : s.status.prepared = true) :
    s.nat .n ≤ s.nat .nchl ∧ s.nat .nchl ≤ s.params.nchMax ∧ s.nat .nsamp ≤ s.params.bmax :=
  have hz := h.sizes hp
  ⟨hz.n_le, hz.nchl_le, hz.nsamp_le.trans hz.blkl_le⟩

theorem keepsMap_push {s : State} (h : StateInv s) (hp : s.status.prepared = true) {ch : Nat}
    (hc : ch < s.nat .nchl) (x : F32) : KeepsMap s (push ch x s) := by
  obtain ⟨-, -, hnchl, -⟩ := h.block_le hp
  refine .of_skeleton (push_skeleton ch x s) (push_touches ch x s) ?_
  rintro _ rfl
  exact bufWords_isElement h.windowsFit hp (C := (· = ch)) (by rintro _ rfl; exact hc)
    ⟨ch, _, rfl, h.curs hp ch (by omega), rfl⟩

theorem keepsMap_runDelay {s : State} (h : StateInv s) (hp : s.status.prepared = true) :
    KeepsMap s (runDelay s) := by
  obtain ⟨hn, hnchl, hb⟩ := h.block_exists hp
  obtain ⟨-, -, hnchl64, hns⟩ := h.block_le hp
  have hr := delayBlock_run (h.bufferOk hp) (hn.trans hnchl64) hns
  have hblock : KeepsMap s (delayBlock s).st := by
    refine .of_skeleton hr.skeleton (hr.touches le_rfl) ?_
    rintro A (hA | hA)
    · exact cbWords_isElement h.windowsFit (fun c hc => by omega) hb hA
    · exact bufWords_isElement h.windowsFit hp (fun c hc => by omega) hA
  exact (hblock.trans (.setReg _ (by decide) _)).trans (.setReg _ (by decide) _)

theorem keepsMap_build {s : State} (h : StateInv s) (hp : s.status.prepared = true) :
    KeepsMap s (buildRotation s) := by
  obtain ⟨hn, hnchl, -⟩ := h.block_exists hp
  have hm := storeMatrix_stored (rotation s) (n := s.nat .n) (hn.trans (h.block_le hp).2.2.1) s
  have hstored := KeepsMap.of_skeleton hm.skeleton hm.touches fun A hA =>
    matWords_isElement h.windowsFit (hn.trans hnchl) hA
  exact hstored.trans (.setMatOk _ true)

theorem keepsMap_apply {s : State} (h : StateInv s) (hp : s.status.prepared = true) :
    KeepsMap s (applyMatrix s) := by
  obtain ⟨hn, hnchl, hb⟩ := h.block_exists hp
  obtain ⟨hpos, -, hnchl64, hns⟩ := h.block_le hp
  have hm := applyMatrix_run hpos (hn.trans hnchl64) hns
  exact .of_skeleton hm.skeleton hm.touches fun A hA =>
    cbWords_isElement h.windowsFit (fun c hc => by omega) hb hA

theorem keepsMap_runApply {s : State} (h : StateInv s) (hp : s.status.prepared = true) :
    KeepsMap s (runApply s) := by
  obtain ⟨-, hn, hnchl64, -⟩ := h.block_le hp
  unfold runApply
  split
  · exact (keepsMap_build h hp).trans
      (keepsMap_apply (inv_build h (hn.trans hnchl64)) ((buildRotation_prepared s).trans hp))
  · exact keepsMap_apply h hp

theorem keepsMap_filterChannel {s : State} (h : StateInv s) (hp : s.status.prepared = true) {ch : Nat}
    (hc : ch < s.nat .nchl) : KeepsMap s (filterChannel ch s) := by
  obtain ⟨-, hnchl, hb⟩ := h.block_exists hp
  obtain ⟨-, -, hnchl64, hns⟩ := h.block_le hp
  have hf := filterChannel_filtered (s := s) (c := ch) (by omega) hns
  have hch : ∀ c, c = ch → c < s.params.nchMax := by
    rintro c rfl
    omega
  refine .of_skeleton hf.skeleton (hf.touches (C := (· = ch)) rfl) ?_
  rintro A (hA | hA)
  · exact cbWords_isElement h.windowsFit hch hb hA
  · exact fstWords_isElement h.windowsFit hch hA

theorem keepsMap_filterAll {s : State} (h : StateInv s) (hp : s.status.prepared = true) :
    KeepsMap s (filterAll s) := by
  obtain ⟨hn, hnchl, hb⟩ := h.block_exists hp
  obtain ⟨-, -, hnchl64, hns⟩ := h.block_le hp
  have hf := filterChannels_filtered (s := s) (N := s.nat .n) (hn.trans hnchl64) hns
  have hch : ∀ c, c < s.nat .n → c < s.params.nchMax := fun c hc => by omega
  refine .of_skeleton hf.skeleton hf.touches ?_
  rintro A (hA | hA)
  · exact cbWords_isElement h.windowsFit hch hb hA
  · exact fstWords_isElement h.windowsFit hch hA

theorem KeepsMap.of_orderSet {s t : State} {o : Nat} (h : OrderSet o s t) (hw : WindowsFit s)
    (ho : OrderBounds s o) : KeepsMap s t :=
  have hprep : t.status.prepared = s.status.prepared := by rw [h.matOk]
  have hreg : ∀ r ∈ mapRegs, t.reg r = s.reg r := fun r hr =>
    h.reg r (by rintro rfl; revert hr; decide) (by rintro rfl; revert hr; decide)
  ⟨target_congr h.params hprep hreg, hprep, h.touches.mono fun _ hA => matWords_isElement hw ho.nchMax hA.2⟩

theorem SetupInv.windowsFit {s : State} (h : SetupInv s) : WindowsFit s where
  nchMax_le := (Params.bounds h.params_ok).1
  bmax_le := (Params.bounds h.params_ok).2.2.1
  nchl_le _ := h.latched.nchl_le.trans (Params.bounds h.params_ok).1
  len_le _ := h.latched.len_le.trans (Params.bounds h.params_ok).2.2.2

theorem SetupInv.keepsMap_resolveOrder {s : State} (h : SetupInv s) (hi : 1 ≤ s.int .inch) (force : Bool) :
    KeepsMap s (resolveOrder force s) := by
  rcases h.resolveOrder_cases hi force with ho | ⟨he, -, -⟩
  · exact .of_orderSet ho h.windowsFit (h.foundOrder_bounds hi)
  · rw [he]
    exact .refl s

theorem keepsMap_coefficients (s : State) : KeepsMap s (computeCoefficients s) := by
  obtain ⟨hp, -, hst, -, hm, -⟩ := computeCoefficients_rest s
  refine .of_mem_eq hp (by rw [hst]) (fun r hr => ?_) hm
  rw [computeCoefficients_reg]
  simp only [mapRegs, List.mem_cons, List.not_mem_nil, or_false] at hr
  rcases hr with rfl | rfl <;> rfl

/-- The work of every command but `PREPARE` keeps the map and stores into its elements alone. -/
theorem keepsMap_work {i : Instr} {s : State} (h : StateInv s) (hi : Passes i s) (hne : i ≠ .prepare) :
    KeepsMap s (work i s) := by
  cases i with
  | nop => exact .refl s
  | prepare => exact absurd rfl hne
  | setorder => exact (h.setupInv hi.1).keepsMap_resolveOrder hi.2 false
  | clrerr =>
    exact .of_mem_eq rfl rfl (fun r hr => (State.reg_acknowledge s r).trans
      (if_neg (by rintro rfl; revert hr; decide))) rfl
  | dlPush ch => exact keepsMap_push h hi.1 hi.2 _
  | dlPop ch => exact .setReg s (by decide) _
  | dlRun => exact keepsMap_runDelay h hi
  | rmBuild => exact keepsMap_build h hi
  | rmApply => exact keepsMap_runApply h hi
  | rmCommit => exact .setMatOk s true
  | fbSetcut => exact keepsMap_coefficients s
  | fbRun ch => exact keepsMap_filterChannel h hi.1 hi.2
  | fbRunall => exact keepsMap_filterAll h hi

/-! ## Changes of the map (40_system.md R134, R136) -/

/-- The map may change with the preparation if what is listed in `BUF` is dropped or spoken of no more. -/
theorem MemoryInMap.remap {s t : State} (h : MemoryInMap s) (hw : WindowsFit t) (hp : t.params = s.params)
    (hcells : ∀ cell ∈ t.mem.cells,
      cell ∈ s.mem.cells ∧ (inBuf cell.1 = true → t.status.prepared = false)) : MemoryInMap t := by
  intro cell hc
  obtain ⟨hs, hbuf⟩ := hcells cell hc
  rcases h cell hs with he | ⟨hb, -⟩
  · exact (isElement_of_params hw hp he).imp_right fun hb => ⟨inBuf_iff.2 hb, hbuf (inBuf_iff.2 hb)⟩
  · exact .inr ⟨hb, hbuf hb⟩

theorem MemoryInMap.withdraw {s : State} (h : MemoryInMap s) (hi : StateInv s) :
    MemoryInMap (s.setPrepared false) :=
  h.remap hi.withdraw.windowsFit rfl fun _ hc => ⟨hc, fun _ => rfl⟩

theorem not_inBuf_of_mem_clearSignal {m : Memory} {cell : Host.Cell} (h : cell ∈ m.clearSignal.cells) :
    cell ∈ m.cells ∧ inBuf cell.1 ≠ true := by
  have h' : cell ∈ m.cells.filter fun c => !inBuf c.1 && !inFst c.1 := h
  rw [List.mem_filter, Bool.and_eq_true, Bool.not_eq_true'] at h'
  exact ⟨h'.1, by rw [h'.2.1]; decide⟩

theorem MemoryInMap.runPrepare {s : State} (h : MemoryInMap s) (hi : StateInv s) (hv : PrepareValid s) :
    MemoryInMap (runPrepare s) := by
  obtain ⟨cp, -, -, -, cm, -⟩ := computeCoefficients_rest ((latchAndClear s).setPrepared true)
  obtain ⟨lp, -, -, -, lm, -⟩ := latch_rest s
  have hs := latchedState_setupInv hi hv
  have hmem : (latchedState s).mem = s.mem.clearSignal := cm.trans lm
  have hlatched : MemoryInMap (latchedState s) := by
    refine h.remap hs.windowsFit (cp.trans lp) fun cell hc => ?_
    rw [hmem] at hc
    obtain ⟨hold, hbuf⟩ := not_inBuf_of_mem_clearSignal hc
    exact ⟨hold, fun hb => absurd hb hbuf⟩
  have hinch : 1 ≤ (latchedState s).int .inch := by
    unfold State.int
    rw [latchedState_reg (by decide), latch_reg]
    exact hv.inch
  rw [runPrepare_eq]
  exact hlatched.of_keepsMap (hs.keepsMap_resolveOrder hinch true)

/-! ## Commands and bus writes -/

theorem MemoryInMap.exec {s t : State} {i : Instr} (h : MemoryInMap s) (hi : StateInv s)
    (he : exec i s = .next t) : MemoryInMap t := by
  cases answer_of_exec he with
  | fault k => exact h.of_keepsMap (.raise s k _)
  | withdrawn _ => exact (h.withdraw hi).of_keepsMap (.raise _ _ _)
  | completed hp =>
    by_cases hne : i = .prepare
    · subst hne
      exact (h.runPrepare hi hp).of_keepsMap (.complete _)
    · exact h.of_keepsMap ((keepsMap_work hi hp hne).trans (.complete _))

theorem MemoryInMap.execute {s t : State} {w : Word} (h : MemoryInMap s) (hi : StateInv s)
    (he : execute w s = .next t) : MemoryInMap t := by
  unfold Machine.execute at he
  split at he
  · exact h.exec hi he
  · cases he
    exact h.of_keepsMap (.raise s _ w)

/-- No register that the bus writes as it is takes part in the map. -/
theorem not_mem_mapRegs_of_rw {r : Reg} (h : r.kind = .rw) : r ∉ mapRegs := by
  rw [mapRegs, List.mem_cons, List.mem_singleton]
  rintro (rfl | rfl) <;> cases h

theorem keepsMap_writeStored (r : Reg) (v : Word) (s : State) : KeepsMap s (writeStored r v s) := by
  unfold writeStored
  cases hk : r.kind with
  | rw =>
    have hset := KeepsMap.setReg s (not_mem_mapRegs_of_rw hk) v
    dsimp only
    split
    · rw [writeAngle_eq]
      exact hset.trans (.setMatOk _ _)
    · exact hset
  | rwL =>
    unfold writeNsamp
    dsimp only
    split
    · exact .setReg s (by decide) _
    · exact .refl s
  | ro => exact .refl s

theorem keepsMap_writeIndex (idx : Nat) (v : Word) (s : State) : KeepsMap s (writeIndex idx v s) := by
  unfold writeIndex
  cases regAt s.params idx with
  | id => exact .refl s
  | ctrl =>
    dsimp only
    rw [writeCtrl_eq]
    exact .of_mem_eq rfl rfl (fun _ _ => rfl) rfl
  | status => exact .refl s
  | stored r => exact keepsMap_writeStored r v s
  | wcur c => exact .refl s
  | reserved => exact .refl s

/-- A bus write stores at the address the map was asked for, and only if an element is there. -/
theorem keepsMap_writeTarget (s : State) (A : Nat) (v : Word) :
    KeepsMap s (writeTarget (target s A) v s).1 := by
  cases hx : target s A with
  | reg idx => exact keepsMap_writeIndex idx v s
  | mat i j =>
    have helem : (target s (matAddr i j)).isElement = true := by rw [← addr_of_target_mat hx, hx]; rfl
    exact (KeepsMap.store helem v).trans (.setMatOk _ false)
  | fst c i => exact .refl s
  | cb c n => exact .store (by rw [← addr_of_target_cb hx, hx]; rfl) v
  | buf c k => exact .refl s
  | unmapped => exact .refl s

theorem MemoryInMap.transact {s t : State} {op : BusOp} (h : MemoryInMap s) (hi : StateInv s)
    (ht : transact op s = .next t) : MemoryInMap t := by
  cases served_of_transact ht with
  | refused hf => exact h.of_keepsMap (.withReply s _)
  | read A hf => exact h.of_keepsMap (.withReply s _)
  | written A v hf => exact h.of_keepsMap ((keepsMap_writeTarget s A v).trans (.withReply _ _))
  | executed w hf he =>
    have hcmd := h.of_keepsMap (.setReg s (r := .cmd) (by decide) w)
    exact (hcmd.execute (hi.setReg .cmd w (by decide)) he).of_keepsMap (.withReply _ _)
  | reset hf => exact fun _ hc => absurd hc List.not_mem_nil

/-- Settles O57: an idle step changes the reply alone, and of the transactions only `PREPARE` and reset change the
map: the first drops or hides `BUF`, the second lists no byte. -/
theorem stepKeepsMemoryInMap : Obligations.StepKeepsMemoryInMap := by
  intro s t hi h ht
  cases hp : s.pending with
  | nil =>
    rw [step_of_idle hp] at ht
    cases ht
    exact h.of_keepsMap (.withReply s none)
  | cons op rest =>
    rw [step_of_pending hp] at ht
    exact (h.of_keepsMap (.taken s rest)).transact (hi.taken rest) ht

end Sys2Proof.Machine
end

section
/-! A run of pushes: the sample pushed `τ` pushes ago lies `τ` slots behind the cursor (20_memory.md R100). -/

namespace Sys2Proof.Machine

/-- A push shifts the tap delays by one and puts its sample at tap delay 1. -/
theorem tap_push {s : State} (h : BufferOk s) {c : Nat} (hc : c < 64) (x : F32) {τ : Int} (h1 : 1 ≤ τ)
    (h2 : τ ≤ s.nat .len) : tap (push c x s) c τ = if τ = 1 then x else tap s c (τ - 1) := by
  have hpos := h.len_pos
  have hcur : modInt (s.cursor c) (s.nat .len) = s.cursor c := modInt_of_lt (h.cursor_lt c hc)
  have hslot : tapSlot (push c x s) c τ = tapSlot s c (τ - 1) := by
    show modInt (((push c x s).cursor c : Int) - τ) (s.nat .len) =
      modInt ((s.cursor c : Int) - (τ - 1)) (s.nat .len)
    rw [push_cursor h hc, if_pos rfl, modInt, modInt]
    push_cast
    rw [Int.emod_sub_emod]
    congr 2
    ring
  have hhead : tapSlot s c (τ - 1) = s.cursor c ↔ τ = 1 := by
    constructor
    · intro he
      have hmod : modInt ((s.cursor c : Int) - (τ - 1)) (s.nat .len) =
          modInt ((s.cursor c : Int) - 0) (s.nat .len) := by
        rw [Int.sub_zero, hcur]
        exact he
      have := modInt_sub_inj hpos hmod (by omega) (by omega)
      omega
    · rintro rfl
      rw [tapSlot, Int.sub_self, Int.sub_zero, hcur]
  have hlt : tapSlot s c (τ - 1) < 0x100000 := (modInt_lt _ hpos).trans_le h.len_le
  unfold tap
  rw [hslot, push_buf h hc x hlt]
  simp only [true_and, hhead]

/-- What a run of the pushes `xs` to channel `c` leaves: the latest samples are those of `xs`, latest first, and
before them those of `s`. -/
structure Pushed (c : Nat) (xs : List F32) (s t : State) : Prop where
  len : t.nat .len = s.nat .len
  tap : ∀ τ : Nat, 1 ≤ τ → τ ≤ s.nat .len →
    tap t c τ = if τ ≤ xs.length then xs.getD (xs.length - τ) 0#32 else tap s c ((τ : Int) - xs.length)

/-- One push before a run. -/
theorem Pushed.cons {c : Nat} {x : F32} {xs : List F32} {s u t : State} (hlen : u.nat .len = s.nat .len)
    (hu : ∀ τ : Int, 1 ≤ τ → τ ≤ s.nat .len →
      Machine.tap u c τ = if τ = 1 then x else Machine.tap s c (τ - 1))
    (h : Pushed c xs u t) : Pushed c (x :: xs) s t where
  len := h.len.trans hlen
  tap τ h1 h2 := by
    rw [h.tap τ h1 (by omega), List.length_cons]
    rcases Nat.lt_or_ge xs.length τ with hlt | hle
    · rw [if_neg (by omega), hu _ (by omega) (by omega)]
      rcases Nat.lt_or_ge (xs.length + 1) τ with hlt' | hle'
      · rw [if_neg (by omega), if_neg (by omega)]
        congr 1
        push_cast
        ring
      · obtain rfl : τ = xs.length + 1 := by omega
        rw [if_pos (by push_cast; ring), if_pos le_rfl, Nat.sub_self, List.getD_cons_zero]
    · rw [if_pos hle, if_pos (by omega), Nat.succ_sub hle, List.getD_cons_succ]

/-- The state after one push of a run. -/
def pushed (ch : Nat) (x : F32) (s : State) : State := (push ch x (s.setReg .din x)).complete

theorem exec_dlPush {s : State} (hp : s.status.prepared = true) {ch : Nat} (hc : ch < s.nat .nchl) (x : F32) :
    exec (.dlPush ch) (s.setReg .din x) = .next (pushed ch x s) := by
  have hnchl : (s.setReg .din x).nat .nchl = s.nat .nchl := State.nat_setReg_ne s (by decide) x
  have hrun := runChannel_of_inside (s := s.setReg .din x) hp (hnchl ▸ hc) (encode (.dlPush ch))
    (work (.dlPush ch))
  have hdin : work (.dlPush ch) (s.setReg .din x) = push ch x (s.setReg .din x) := by
    show push ch ((s.setReg .din x).reg .din) _ = _
    rw [State.reg_setReg_same]
  rw [hdin] at hrun
  exact hrun

/-- A push of a run changes no register that the next one depends on. -/
theorem pushed_nat (ch : Nat) (x : F32) (s : State) {r : Reg} (h1 : r ≠ .cmdcnt) (h2 : r ≠ .din) :
    (pushed ch x s).nat r = s.nat r := by
  unfold pushed State.complete
  rw [State.nat_setReg_ne _ h1, State.nat_of_skeleton (push_skeleton ch x _), State.nat_setReg_ne s h2]

theorem pushed_prepared (ch : Nat) (x : F32) (s : State) :
    (pushed ch x s).status.prepared = s.status.prepared := by
  unfold pushed
  rw [State.complete_status, State.status_of_skeleton (push_skeleton ch x _), State.setReg_status]

theorem tap_setReg (s : State) {r : Reg} (h : r ≠ .len) (v : Word) (c : Nat) (τ : Int) :
    tap (s.setReg r v) c τ = tap s c τ := by
  unfold tap tapSlot
  rw [State.nat_setReg_ne s h.symm]
  rfl

theorem tap_pushed {s : State} (h : StateInv s) (hp : s.status.prepared = true) {ch : Nat}
    (hc : ch < s.nat .nchl) (x : F32) {τ : Int} (h1 : 1 ≤ τ) (h2 : τ ≤ s.nat .len) :
    tap (pushed ch x s) ch τ = if τ = 1 then x else tap s ch (τ - 1) := by
  obtain ⟨-, -, hnchl64, -⟩ := h.block_le hp
  have hset := (h.setReg .din x (by decide)).bufferOk hp
  have hlen : (s.setReg .din x).nat .len = s.nat .len := State.nat_setReg_ne s (by decide) x
  unfold pushed State.complete
  rw [tap_setReg _ (by decide), tap_push hset (by omega) x h1 (by omega), tap_setReg s (by decide)]

/-- A run of pushes completes, and leaves its samples behind the cursor. -/
theorem pushAll_pushed {ch : Nat} (xs : List F32) : ∀ {s : State}, StateInv s → s.status.prepared = true →
    ch < s.nat .nchl → ∃ t, pushAll ch xs s = .next t ∧ Pushed ch xs s t := by
  induction xs with
  | nil =>
    intro s _ _ _
    refine ⟨s, rfl, rfl, fun τ h1 _ => ?_⟩
    rw [if_neg (by simpa using Nat.ne_of_gt h1)]
    simp
  | cons x xs ih =>
    intro s h hp hc
    have hexec := exec_dlPush hp hc x
    obtain ⟨t, ht, hpush⟩ := ih ((h.setReg .din x (by decide)).exec hexec) ((pushed_prepared ch x s).trans hp)
      (by rwa [pushed_nat ch x s (by decide) (by decide)])
    refine ⟨t, ?_, hpush.cons (pushed_nat ch x s (by decide) (by decide)) fun τ => tap_pushed h hp hc x⟩
    rw [pushAll, hexec]
    exact ht

/-- Settles O23, by induction on the run of pushes. -/
theorem pushedSampleLiesBehindCursor : Obligations.PushedSampleLiesBehindCursor := by
  intro s ch xs h hp hc
  obtain ⟨t, ht, hpush⟩ := pushAll_pushed xs h hp hc
  refine ⟨t, ht, fun τ h1 h2 h3 => ?_⟩
  have htap := hpush.tap τ h1 h2
  rw [if_pos h3] at htap
  rw [← htap, tap, tapSlot, hpush.len]

end Sys2Proof.Machine
end

section
/-! The command word and its decoding (30_encoding.md R110 to R115): a word is its three fields, the decoder reads a
command exactly where the fields are that command's, and the rows of the opcode map say the same by mask and match. -/

namespace Sys2Proof.Laws.CommandWord

open Sys2Proof.Machine

/-! ## The fields of a word (30_encoding.md R111) -/

/-- A word is its reserved bits 31:16, its channel bits 15:8 and its opcode byte. -/
theorem word_ext_iff {v w : Word} :
    v = w ↔ v.extractLsb' 16 16 = w.extractLsb' 16 16 ∧ channelField v = channelField w ∧
      opcodeField v = opcodeField w := by
  refine ⟨by rintro rfl; exact ⟨rfl, rfl, rfl⟩, fun ⟨hres, hch, hop⟩ => BitVec.eq_of_toNat_eq ?_⟩
  have hres := congrArg BitVec.toNat hres
  simp only [channelField, opcodeField, BitVec.extractLsb'_toNat, Nat.shiftRight_eq_div_pow] at hres hch hop
  omega

/-- The fields of `w` are those of the command word of `i`. -/
structure HasFields (w : Word) (i : Instr) : Prop where
  reserved : w.extractLsb' 16 16 = 0#16
  channel : channelField w = i.channel
  opcode : opcodeField w = i.opcode

theorem opcode_lt (i : Instr) : i.opcode < 256 := by
  cases i <;> simp [Instr.opcode]

theorem wellFormed_iff (i : Instr) : i.wellFormed = true ↔ i.channel < 256 := by
  cases i <;> simp [Instr.wellFormed, Instr.channel]

theorem channelField_lt (w : Word) : channelField w < 256 := (w.extractLsb' 8 8).isLt

theorem HasFields.wellFormed {w : Word} {i : Instr} (h : HasFields w i) : i.wellFormed = true :=
  (wellFormed_iff i).2 (h.channel ▸ channelField_lt w)

theorem hasFields_encode {i : Instr} (h : i.wellFormed = true) : HasFields (encode i) i := by
  obtain ⟨hres, hop, hch⟩ := of_fields i (opcode_lt i) (wellFormed_iff i).1
  exact ⟨hres, hch h, hop⟩

theorem HasFields.encode_eq {w : Word} {i : Instr} (h : HasFields w i) : encode i = w := by
  have he := hasFields_encode h.wellFormed
  exact word_ext_iff.2 ⟨he.reserved.trans h.reserved.symm, he.channel.trans h.channel.symm,
    he.opcode.trans h.opcode.symm⟩

/-! ## The decoder reads the fields (30_encoding.md R111, R114) -/

/-- The reserved field of format Z is that of format C and the channel field. -/
theorem reservedZ_iff (w : Word) :
    w.extractLsb' 8 24 = 0#24 ↔ w.extractLsb' 16 16 = 0#16 ∧ channelField w = 0 := by
  simp only [channelField, ← BitVec.toNat_inj, BitVec.extractLsb'_toNat, Nat.shiftRight_eq_div_pow,
    BitVec.toNat_ofNat]
  omega

theorem formatZ_eq_ok {w : Word} {i j : Instr} :
    formatZ w i = .ok j ↔ w.extractLsb' 16 16 = 0#16 ∧ channelField w = 0 ∧ i = j := by
  rw [← and_assoc, ← reservedZ_iff, formatZ]
  split <;> simp_all

theorem formatC_eq_ok {w : Word} {f : Nat → Instr} {j : Instr} :
    formatC w f = .ok j ↔ w.extractLsb' 16 16 = 0#16 ∧ f (channelField w) = j := by
  rw [formatC]
  split <;> simp_all

/-- The decoder reads a command from exactly the words that have its fields. -/
theorem decode_eq_ok_iff {w : Word} {i : Instr} : decode w = .ok i ↔ HasFields w i := by
  constructor
  · intro h
    unfold decode at h
    split at h
    -- the last branch is every unlisted opcode; 5, 6 and 12 are the rows of format C
    case h_14 => cases h
    case h_5 | h_6 | h_12 =>
      obtain ⟨hres, rfl⟩ := formatC_eq_ok.1 h
      exact ⟨hres, rfl, ‹_›⟩
    all_goals
      obtain ⟨hres, hch, rfl⟩ := formatZ_eq_ok.1 h
      exact ⟨hres, hch, ‹_›⟩
  · rintro ⟨hres, hch, hop⟩
    unfold decode
    rw [hop]
    cases i
    case dlPush | dlPop | fbRun => exact formatC_eq_ok.2 ⟨hres, congrArg _ hch⟩
    all_goals exact formatZ_eq_ok.2 ⟨hres, hch, rfl⟩

/-! ## The rows of the opcode map (30_encoding.md R114) -/

/-- The row of the opcode map that a command belongs to. -/
def rowOf : Instr → Word × Word × (Nat → Instr)
  | .dlPush _ => (0xFFFF00FF#32, 0x10#32, .dlPush)
  | .dlPop _ => (0xFFFF00FF#32, 0x11#32, .dlPop)
  | .fbRun _ => (0xFFFF00FF#32, 0x31#32, .fbRun)
  | i => (0xFFFFFFFF#32, BitVec.ofNat 32 i.opcode, fun _ => i)

theorem rowOf_mem (i : Instr) : rowOf i ∈ opcodeRows := by
  cases i <;> simp [rowOf, opcodeRows, Instr.opcode]

/-- A row of the map is the row of each command it gives. -/
theorem rowOf_command (c : Nat) : ∀ row ∈ opcodeRows, rowOf (row.2.2 c) = row := by
  simp [opcodeRows, rowOf, Instr.opcode]

theorem opcodeField_ofNat {op : Nat} (h : op < 256) : opcodeField (BitVec.ofNat 32 op) = op := by
  simp only [opcodeField, BitVec.extractLsb'_toNat, BitVec.toNat_ofNat, Nat.shiftRight_eq_div_pow]
  omega

theorem reservedZ_ofNat {op : Nat} (h : op < 256) : (BitVec.ofNat 32 op).extractLsb' 8 24 = 0#24 := by
  apply BitVec.eq_of_toNat_eq
  simp only [BitVec.extractLsb'_toNat, BitVec.toNat_ofNat, Nat.shiftRight_eq_div_pow]
  omega

/-- The mask and match of format Z: the whole word is the opcode. -/
theorem maskZ_iff {w : Word} {op : Nat} (h : op < 256) :
    w &&& 0xFFFFFFFF#32 = BitVec.ofNat 32 op ↔
      w.extractLsb' 16 16 = 0#16 ∧ channelField w = 0 ∧ opcodeField w = op := by
  obtain ⟨hres, hch⟩ := (reservedZ_iff _).1 (reservedZ_ofNat h)
  rw [show 0xFFFFFFFF#32 = BitVec.allOnes 32 from rfl, BitVec.and_allOnes, word_ext_iff, hres, hch,
    opcodeField_ofNat h]

/-- The mask and match of format C: the channel bits are masked out. -/
theorem maskC_iff {w : Word} {op : Nat} (h : op < 256) :
    w &&& 0xFFFF00FF#32 = BitVec.ofNat 32 op ↔ w.extractLsb' 16 16 = 0#16 ∧ opcodeField w = op := by
  obtain ⟨hres, hch⟩ := (reservedZ_iff _).1 (reservedZ_ofNat h)
  have hmres : (w &&& 0xFFFF00FF#32).extractLsb' 16 16 = w.extractLsb' 16 16 := by
    rw [BitVec.extractLsb'_and]
    exact BitVec.and_allOnes
  have hmch : channelField (w &&& 0xFFFF00FF#32) = 0 := by
    rw [channelField, BitVec.extractLsb'_and]
    exact congrArg BitVec.toNat BitVec.and_zero
  have hmop : opcodeField (w &&& 0xFFFF00FF#32) = opcodeField w := by
    rw [opcodeField, BitVec.extractLsb'_and]
    exact congrArg BitVec.toNat BitVec.and_allOnes
  rw [word_ext_iff, hmres, hmch, hmop, hres, hch, opcodeField_ofNat h]
  simp

/-- With the reserved bits clear, the channel is all that lies above the opcode. -/
theorem shiftRight_eq_channelField {w : Word} (h : w.extractLsb' 16 16 = 0#16) :
    (w >>> 8).toNat = channelField w := by
  have h := congrArg BitVec.toNat h
  simp only [channelField, BitVec.extractLsb'_toNat, BitVec.toNat_ushiftRight, BitVec.toNat_ofNat,
    Nat.shiftRight_eq_div_pow] at h ⊢
  omega

/-- A word has the fields of a command when it meets the command's row and the row gives that command. -/
theorem hasFields_iff_row {w : Word} {i : Instr} :
    HasFields w i ↔ w &&& (rowOf i).1 = (rowOf i).2.1 ∧ (rowOf i).2.2 (w >>> 8).toNat = i := by
  have hop := opcode_lt i
  cases i
  case dlPush c | dlPop c | fbRun c =>
    constructor
    · rintro ⟨hres, hch, hopc⟩
      exact ⟨(maskC_iff hop).2 ⟨hres, hopc⟩, congrArg _ ((shiftRight_eq_channelField hres).trans hch)⟩
    · rintro ⟨hmeet, hcmd⟩
      obtain ⟨hres, hopc⟩ := (maskC_iff hop).1 hmeet
      rw [shiftRight_eq_channelField hres] at hcmd
      exact ⟨hres, congrArg Instr.channel hcmd, hopc⟩
  all_goals
    constructor
    · rintro ⟨hres, hch, hopc⟩
      exact ⟨(maskZ_iff hop).2 ⟨hres, hch, hopc⟩, rfl⟩
    · rintro ⟨hmeet, -⟩
      obtain ⟨hres, hch, hopc⟩ := (maskZ_iff hop).1 hmeet
      exact ⟨hres, hch, hopc⟩

/-! ## The statements -/

/-- Settles O1: the fields of the encoded word are the command's own. -/
theorem decodeInvertsEncode : Obligations.DecodeInvertsEncode := fun _ h =>
  decode_eq_ok_iff.2 (hasFields_encode h)

/-- Settles O2: two words with the same three fields are one. -/
theorem encodeInvertsDecode : Obligations.EncodeInvertsDecode := fun _ _ h =>
  have hf := decode_eq_ok_iff.1 h
  ⟨hf.encode_eq, hf.wellFormed⟩

/-- Settles O3: the fields of a command are its row's mask and match. -/
theorem decodeFollowsOpcodeTable : Obligations.DecodeFollowsOpcodeTable := by
  constructor
  · intro w row hrow hmeet
    have hof := rowOf_command (w >>> 8).toNat row hrow
    exact decode_eq_ok_iff.2 (hasFields_iff_row.2 (by rw [hof]; exact ⟨hmeet, rfl⟩))
  · intro w hnone i hdec
    exact hnone (rowOf i) (rowOf_mem i) (hasFields_iff_row.1 (decode_eq_ok_iff.1 hdec)).1

/-- Settles O4: six of the words encode what the spec says, one has a reserved bit set and one no listed opcode. -/
theorem specWordsDecode : Obligations.SpecWordsDecode :=
  ⟨decodeInvertsEncode .nop rfl, decodeInvertsEncode .prepare rfl, decodeInvertsEncode (.dlPush 5) rfl,
    decodeInvertsEncode (.dlPop 255) rfl, decodeInvertsEncode .rmBuild rfl, decodeInvertsEncode (.fbRun 3) rfl,
    rfl, rfl⟩

end Sys2Proof.Laws.CommandWord
end

section
/-! The system commands (40_system.md): what `NOP`, `CLRERR`, `SETORDER` and `PREPARE` answer in each case of their
checks, and what they leave alone. -/

namespace Sys2Proof.Machine

/-! ## Commands that run in any state (40_system.md R130, R140) -/

theorem KeepsBut.acknowledge {rs : List Reg} {cs A : Nat → Prop} {s t : State} (h : KeepsBut rs cs A s t) :
    KeepsBut (.errinfo :: rs) cs A s t.acknowledge :=
  have hflag : KeepsBut rs cs A s t.clearErrorFlag :=
    ⟨h.params, h.ctrl, h.reg, h.cursor, h.byte, h.draw, h.pending, h.reply⟩
  hflag.setReg _ _

/-- Settles O15: `NOP` does nothing before it completes. -/
theorem nopCompletes : Obligations.NopCompletes := fun s =>
  ⟨s.complete, rfl, State.reg_setReg_same _ _ _, State.complete_status s, (KeepsBut.refl _ _ _ s).complete⟩

/-- Settles O16: `CLRERR` acknowledges the record and completes. -/
theorem clrerrClearsRecord : Obligations.ClrerrClearsRecord := by
  intro s
  have hcount : s.acknowledge.complete.reg .cmdcnt = s.reg .cmdcnt + 1#32 := by simp
  have hinfo : s.acknowledge.complete.reg .errinfo = 0#32 := by simp
  exact ⟨s.acknowledge.complete, rfl, rfl, rfl, hinfo, rfl, rfl, rfl, hcount,
    (KeepsBut.refl _ _ _ s).acknowledge.complete⟩

/-! ## Commands that fault -/

/-- A command that needs `PREPARED = 1` faults with `NotPrepared` without it, before any other check
(60_exceptions.md R235, R236). -/
theorem exec_of_unprepared {i : Instr} {s : State} (hi : i ∉ runsUnprepared) (hp : s.status.prepared = false) :
    exec i s = .next (s.raise .notPrepared (encode i)) := by
  have hne : ∀ q : Prop, ¬ (s.status.prepared = true ∧ q) := fun q hc => by simp [hp] at hc
  cases i with
  | nop => exact absurd (by decide) hi
  | prepare => exact absurd (by decide) hi
  | setorder => exact (if_neg (hne _)).trans (runPrepared_of_unprepared hp _ _)
  | clrerr => exact absurd (by decide) hi
  | dlPush ch => exact runChannel_of_unprepared hp _ _ _
  | dlPop ch => exact runChannel_of_unprepared hp _ _ (work (.dlPop ch))
  | dlRun => exact runPrepared_of_unprepared hp _ _
  | rmBuild => exact runPrepared_of_unprepared hp _ _
  | rmApply => exact (if_neg (hne _)).trans (runPrepared_of_unprepared hp _ _)
  | rmCommit => exact runPrepared_of_unprepared hp _ (work .rmCommit)
  | fbSetcut => exact runPrepared_of_unprepared hp _ _
  | fbRun ch => exact runChannel_of_unprepared hp _ _ _
  | fbRunall => exact runPrepared_of_unprepared hp _ _

/-- A fault entry keeps `PREPARED` as it is found. -/
theorem faultEntry_of_prepared {s : State} {p : Bool} (hp : s.status.prepared = p) (k : Cause) (w : Word) :
    FaultEntry k.code w p s (s.raise k w) := by
  rw [← hp]
  exact faultEntry_raise s k w

/-- What `PREPARED` was before a fault entry is no part of it. -/
theorem FaultEntry.of_setPrepared {k : BitVec 4} {w : Word} {p b : Bool} {s t : State}
    (h : FaultEntry k w p (s.setPrepared b) t) : FaultEntry k w p s t :=
  have hr := h.rest
  ⟨h.err, h.first, h.kept, h.prepared, h.matOk,
    ⟨hr.params, hr.ctrl, hr.reg, hr.cursor, hr.byte, hr.draw, hr.pending, hr.reply⟩⟩

theorem exec_prepare_of_invalid {s : State} (h : ¬ PrepareValid s) :
    exec .prepare s = .next ((s.setPrepared false).raise .configurationError (encode .prepare)) :=
  if_neg fun hv => h ((prepareArgsValid_iff s).1 hv)

/-- Settles O10: the withdrawal comes before the fault entry, which keeps it, and what the withdrawn state refuses
rests on the flag alone. -/
theorem invalidPrepareFaults : Obligations.InvalidPrepareFaults := by
  intro s hv
  have hfault : FaultEntry 1#4 (encode .prepare) false (s.setPrepared false)
      ((s.setPrepared false).raise .configurationError (encode .prepare)) :=
    faultEntry_of_prepared (State.setPrepared_prepared s false) .configurationError _
  refine ⟨_, exec_prepare_of_invalid hv, hfault.of_setPrepared, ?_, ?_⟩
  · intro i hi
    exact ⟨_, exec_of_unprepared hi hfault.prepared, faultEntry_of_prepared hfault.prepared .notPrepared _⟩
  · intro A hA
    exact target_buf_of_unprepared hfault.prepared hA

theorem exec_setorder_of_no_inputs {s : State} (hp : s.status.prepared = true) (hi : s.int .inch < 1) :
    exec .setorder s = .next (s.raise .configurationError (encode .setorder)) :=
  if_pos ⟨hp, hi⟩

/-- Settles O11. -/
theorem setorderWithoutInputsFaults : Obligations.SetorderWithoutInputsFaults := fun _ hp hi =>
  ⟨_, exec_setorder_of_no_inputs hp (Int.lt_add_one_of_le hi), faultEntry_of_prepared hp .configurationError _⟩

/-! ## `SETORDER` (40_system.md R137 to R139) -/

theorem exec_setorder_of_inputs {s : State} (hp : s.status.prepared = true) (hi : 1 ≤ s.int .inch) :
    exec .setorder s = .next (resolveOrder false s).complete :=
  (if_neg fun hc => absurd hc.2 (not_lt.2 hi)).trans (runPrepared_of_prepared hp _ _)

/-- Without force, an order that is the order found already is left alone. -/
theorem resolveOrder_of_unchanged {s : State} (hi : 1 ≤ s.int .inch) (hn : 1 ≤ s.nat .nchl)
    (hm : 1 ≤ s.params.nchMax) (ho : foundOrder s = s.nat .order) : resolveOrder false s = s := by
  have hw : workingOrder s = (s.nat .order : Int) := (workingOrder_eq hi hn hm).trans (congrArg Nat.cast ho)
  exact if_neg (by simp [hw])

/-- What making an order the working order leaves alone. -/
theorem OrderSet.keepsBut {o : Nat} {s t : State} (h : OrderSet o s t) (cs : Nat → Prop) :
    KeepsBut [.order, .n] cs (fun A => s.ctrl.xmode = .rotate ∧ matWords (t.nat .n) A) s t where
  params := h.params
  ctrl := h.ctrl
  reg r hr := by
    simp only [List.mem_cons, List.not_mem_nil, or_false, not_or] at hr
    exact h.reg r hr.1 hr.2
  cursor c _ := cur_of_wcur h.wcur c
  byte a ha := h.touches.outside a (by rwa [h.n] at ha)
  draw := h.draw
  pending := h.pending
  reply := h.reply

theorem State.nat_complete {s : State} {r : Reg} (h : r ≠ .cmdcnt) : s.complete.nat r = s.nat r :=
  State.nat_setReg_ne s h _

/-- The flags after the order is set: `MAT_OK` as the mode has it, the others as before. -/
theorem OrderSet.status_eq {o : Nat} {s t : State} (h : OrderSet o s t) :
    (t.status.matOk = true ↔ s.ctrl.xmode = .rotate) ∧ t.status.prepared = s.status.prepared ∧
      t.status.err = s.status.err ∧ t.status.errCode = s.status.errCode := by
  rw [h.matOk]
  exact ⟨decide_eq_true_iff, rfl, rfl, rfl⟩

/-- Settles O20: the resolution finds the order that is there, so completion is all that happens. -/
theorem setorderKeepsOrder : Obligations.SetorderKeepsOrder := by
  intro s hp hi hn hm ho
  have hexec : exec .setorder s = .next s.complete := by
    rw [exec_setorder_of_inputs hp hi, resolveOrder_of_unchanged hi hn hm ho]
  exact ⟨_, hexec, rfl, State.reg_setReg_same _ _ _, (KeepsBut.refl _ _ _ s).complete⟩

/-- Settles O19: the order found is another one, so the resolution sets it. -/
theorem setorderChangesOrder : Obligations.SetorderChangesOrder := by
  intro s h hp hi hne
  have hset : OrderSet (foundOrder s) s (resolveOrder false s) := by
    rcases (h.setupInv hp).resolveOrder_cases hi false with ho | ⟨-, -, hsame⟩
    · exact ho
    · exact absurd hsame.symm hne
  obtain ⟨hmat, hprep, herr, hcode⟩ := hset.status_eq
  have hcount : (resolveOrder false s).reg .cmdcnt = s.reg .cmdcnt := hset.reg _ (by decide) (by decide)
  refine ⟨_, exec_setorder_of_inputs hp hi, ?_⟩
  rw [State.nat_complete (by decide), State.nat_complete (by decide), State.complete_status,
    State.reg_complete, if_pos rfl, hcount, hset.order, hset.n]
  refine ⟨rfl, rfl, hmat, hset.mat, hprep.trans hp, herr, hcode, rfl, ?_⟩
  rw [← hset.n]
  exact (hset.keepsBut nowhere).complete

/-! ## What a valid `PREPARE` writes (40_system.md R132 to R135) -/

/-- The words of the `FST` and `BUF` windows, which `PREPARE` clears (40_system.md R134). -/
def signalWords (A : Nat) : Prop := (0x2000 ≤ A ∧ A ≤ 0x20FF) ∨ 0x4000000 ≤ A

theorem signalWords_iff {a : Nat} : (inBuf a || inFst a) = true ↔ signalWords (a / 4) := by
  unfold signalWords inFst fstBase
  rw [Bool.or_eq_true, inBuf_iff, Bool.and_eq_true, decide_eq_true_iff, decide_eq_true_iff, bufBase]
  omega

theorem signalWords_fstAddr {c i : Nat} (hc : c < 64) (hi : i < 4) : signalWords (fstAddr c i) := by
  unfold signalWords fstAddr fstBase
  omega

theorem signalWords_bufAddr (c k : Nat) : signalWords (bufAddr c k) := by
  unfold signalWords bufAddr bufBase
  omega

/-- `MAT` lies below the memories that are cleared. -/
theorem not_matWords_of_signalWords {n A : Nat} (hn : n ≤ 64) (hA : signalWords A) : ¬ matWords n A := by
  rintro ⟨i, j, hi, hj, rfl⟩
  unfold signalWords matAddr matBase at hA
  omega

/-- A cleared word is `+0.0`. -/
theorem Memory.readWord_clearSignal (m : Memory) {A : Nat} (hA : signalWords A) :
    m.clearSignal.readWord A = 0#32 := by
  have hbyte : ∀ x, x / 4 = A → m.clearSignal.readByte x = 0#8 := fun x hx => by
    rw [Memory.readByte_clearSignal, if_pos (signalWords_iff.2 (hx ▸ hA))]
  unfold Memory.readWord
  rw [hbyte (4 * A + 3) (by omega), hbyte (4 * A + 2) (by omega), hbyte (4 * A + 1) (by omega),
    hbyte (4 * A) (by omega)]
  rfl

/-- The registers that `LatchAndClear` writes (40_system.md R134), the last one first. -/
def latchWritten : List Reg := [.dout, .lfoph, .dcur, .len, .nsamp, .blkl, .nchl, .lfomaxl, .dmaxl, .fs]

/-- The registers that `ComputeCoefficients` writes (43_filter_bank.md R212), the last one first. -/
def coefWritten : List Reg :=
  [.lpa2, .lpa1, .lpb2, .lpb1, .lpb0, .hpa2, .hpa1, .hpb2, .hpb1, .hpb0, .lphzc, .hphzc]

theorem KeepsBut.clearSignal {rs : List Reg} {s t : State}
    (h : KeepsBut rs (fun _ => True) signalWords s t) :
    KeepsBut rs (fun _ => True) signalWords s (clearSignal t) where
  params := h.params
  ctrl := h.ctrl
  reg := h.reg
  cursor _ hc := absurd trivial hc
  byte a ha := by
    show t.mem.clearSignal.readByte a = _
    rw [Memory.readByte_clearSignal, if_neg fun hs => ha (signalWords_iff.1 hs)]
    exact h.byte a ha
  draw := h.draw
  pending := h.pending
  reply := h.reply

theorem KeepsBut.setPrepared {rs : List Reg} {cs A : Nat → Prop} {s t : State} (h : KeepsBut rs cs A s t)
    (b : Bool) : KeepsBut rs cs A s (t.setPrepared b) :=
  ⟨h.params, h.ctrl, h.reg, h.cursor, h.byte, h.draw, h.pending, h.reply⟩

theorem latchAndClear_keepsBut (s : State) :
    KeepsBut latchWritten (fun _ => True) signalWords s (latchAndClear s) := by
  unfold latchAndClear latchSizes
  iterate 3 refine KeepsBut.setReg ?_ _ _
  refine KeepsBut.clearSignal ?_
  iterate 7 refine KeepsBut.setReg ?_ _ _
  exact .refl _ _ _ s

theorem KeepsBut.computeCoefficients {rs : List Reg} {cs A : Nat → Prop} {s t : State}
    (h : KeepsBut rs cs A s t) : KeepsBut (coefWritten ++ rs) cs A s (computeCoefficients t) := by
  unfold Machine.computeCoefficients State.setHp State.setLp
  iterate 12 refine KeepsBut.setReg ?_ _ _
  exact h

theorem latchedState_keepsBut (s : State) :
    KeepsBut (coefWritten ++ latchWritten) (fun _ => True) signalWords s (latchedState s) :=
  ((latchAndClear_keepsBut s).setPrepared true).computeCoefficients

/-- The flags and memories in which `PREPARE` resolves the order. -/
theorem latchedState_rest (s : State) :
    (latchedState s).status = { s.status with prepared := true } ∧
      (latchedState s).wcur = Vector.replicate 64 0#32 ∧ (latchedState s).mem = s.mem.clearSignal := by
  obtain ⟨-, -, cst, cw, cm, -⟩ := computeCoefficients_rest ((latchAndClear s).setPrepared true)
  obtain ⟨-, -, lst, lw, lm, -⟩ := latch_rest s
  exact ⟨cst.trans lst, cw.trans lw, cm.trans lm⟩

/-- Where `ComputeCoefficients` does not write, the registers are those that `LatchAndClear` left. -/
theorem latchedState_latched (s : State) {r : Reg} (hr : r ∉ coefWritten) :
    (latchedState s).reg r = ((latchAndClear s).setPrepared true).reg r := by
  have hc := (KeepsBut.refl [] nowhere nowhere ((latchAndClear s).setPrepared true)).computeCoefficients
  exact hc.reg r (by rwa [List.append_nil])

/-- A cleared cursor file reads 0 everywhere. -/
theorem State.cursor_of_zeroed {s : State} (h : s.wcur = Vector.replicate 64 0#32) (c : Nat) : s.cursor c = 0 := by
  unfold State.cursor
  rw [h]
  rcases Nat.lt_or_ge c 64 with hc | hc <;> simp [hc]

/-- The matrix of an order depends on the parameters and the three angles. -/
theorem rotationAt_congr {s t : State} (hp : t.params = s.params)
    (hr : ∀ r ∈ [Reg.yaw, .pitch, .roll], t.reg r = s.reg r) (o : Nat) : rotationAt t o = rotationAt s o := by
  unfold rotationAt
  rw [hp, hr .yaw (by decide), hr .pitch (by decide), hr .roll (by decide)]

/-- The order that a valid `PREPARE` resolves: that of the new channel count (40_system.md R138). -/
def preparedOrder (s : State) : Nat :=
  resolvedOrder s.params (s.int .inch) (s.int .cfgorder) (s.nat .nch)

theorem foundOrder_latchedState (s : State) : foundOrder (latchedState s) = preparedOrder s := by
  have hk := latchedState_keepsBut s
  have hnchl : (latchedState s).reg .nchl = s.reg .nch :=
    (latchedState_latched s (by decide)).trans (latch_reg s .nchl)
  unfold foundOrder preparedOrder State.int State.nat
  rw [hk.params, hk.reg .inch (by decide), hk.reg .cfgorder (by decide), hnchl]

theorem exec_prepare_of_valid {s : State} (h : PrepareValid s) :
    exec .prepare s = .next (runPrepare s).complete :=
  if_pos ((prepareArgsValid_iff s).2 h)

/-- The channels of the prepared order are within the largest `MAT`. -/
theorem preparedOrder_sq_le {s : State} (hw : s.params.wellFormed = true) :
    (preparedOrder s + 1) * (preparedOrder s + 1) ≤ 64 := by
  obtain ⟨hmax, hpos, -⟩ := Params.bounds hw
  exact (sq_le hpos (resolved_le _ _ _ _).1).trans hmax

section
variable {s : State} (hw : s.params.wellFormed = true) (hv : PrepareValid s)
include hw hv

/-- A valid `PREPARE` ends by making the prepared order the working order. -/
theorem runPrepare_orderSet : OrderSet (preparedOrder s) (latchedState s) (runPrepare s) := by
  have hk := latchedState_keepsBut s
  have hpos := (Params.bounds hw).2.1
  have hinch : 1 ≤ (latchedState s).int .inch := by
    unfold State.int
    rw [hk.reg .inch (by decide)]
    exact hv.inch
  have hnchl : 1 ≤ (latchedState s).nat .nchl := by
    unfold State.nat
    rw [latchedState_latched s (by decide)]
    exact (latchAndClear_latchedOk hw hv).nchl_pos
  have hmax : 1 ≤ (latchedState s).params.nchMax := by
    rw [hk.params]
    exact hpos
  have hord : workingOrder (latchedState s) = (foundOrder (latchedState s) : Int) :=
    workingOrder_eq hinch hnchl hmax
  rw [runPrepare_eq, resolveOrder_true, hord, foundOrder_latchedState]
  exact setOrder_set (preparedOrder_sq_le hw) _

theorem runPrepare_complete_reg {r : Reg} (hr : r ∉ [Reg.cmdcnt, .order, .n]) :
    (runPrepare s).complete.reg r = (latchedState s).reg r := by
  simp only [List.mem_cons, List.not_mem_nil, or_false, not_or] at hr
  rw [State.reg_complete, if_neg hr.1]
  exact (runPrepare_orderSet hw hv).reg r hr.2.1 hr.2.2

/-- What `LatchAndClear` leaves in a register stays, where neither the coefficients nor the order go there. -/
theorem runPrepare_complete_latched {r : Reg} {v : Word}
    (hlatch : ((latchAndClear s).setPrepared true).reg r = v)
    (hr : r ∉ coefWritten ++ [.cmdcnt, .order, .n]) : (runPrepare s).complete.reg r = v := by
  rw [List.mem_append, not_or] at hr
  rw [runPrepare_complete_reg hw hv hr.2, latchedState_latched s hr.1, hlatch]

theorem runPrepare_complete_order :
    (runPrepare s).complete.nat .order = preparedOrder s ∧
      (runPrepare s).complete.nat .n = (preparedOrder s + 1) * (preparedOrder s + 1) := by
  have hset := runPrepare_orderSet hw hv
  rw [State.nat_complete (by decide), State.nat_complete (by decide)]
  exact ⟨hset.order, hset.n⟩

/-- The words that `PREPARE` writes: the cleared windows, and the matrix that setting the order stores. -/
def preparedWords (s : State) (A : Nat) : Prop :=
  signalWords A ∨ (s.ctrl.xmode = .rotate ∧ matWords ((runPrepare s).nat .n) A)

theorem runPrepare_keepsBut :
    KeepsBut (coefWritten ++ latchWritten ++ [.order, .n]) (fun _ => True) (preparedWords s) s (runPrepare s) := by
  have hk := latchedState_keepsBut s
  have hset := (runPrepare_orderSet hw hv).keepsBut fun _ => True
  have hmode : (latchedState s).ctrl.xmode = s.ctrl.xmode := congrArg Ctrl.xmode hk.ctrl
  rw [hmode] at hset
  exact (hk.mono (by decide) (fun _ => id) fun _ => .inl).trans (hset.mono (by decide) (fun _ => id) fun _ => .inr)

/-- `LEN` is what the new sizes need (40_system.md R133 g, R134). -/
theorem runPrepare_complete_len :
    (runPrepare s).complete.nat .len = s.nat .maxd + s.nat .lfomax + 4 := by
  have hl := (latchAndClear_latchedOk hw hv).len_eq
  unfold State.nat at hl ⊢
  rw [runPrepare_complete_latched hw hv rfl (by decide), hl, latch_reg, latch_reg]

end

/-- `ComputeCoefficients` stores the coefficient set of each stage (43_filter_bank.md R212). -/
theorem computeCoefficients_coefs (s : State) :
    (computeCoefficients s).hpCoefs = stageCoefs s .hp .hphz ∧
      (computeCoefficients s).lpCoefs = stageCoefs s .lp .lphz := by
  unfold State.hpCoefs State.lpCoefs State.f32
  simp only [computeCoefficients_reg, and_self]

/-- The coefficient sets depend on the ten coefficient registers. -/
theorem coefs_congr {s t : State} (h : ∀ r ∈ coefWritten, t.reg r = s.reg r) :
    t.hpCoefs = s.hpCoefs ∧ t.lpCoefs = s.lpCoefs := by
  have hf : ∀ r ∈ coefWritten, t.f32 r = s.f32 r := h
  unfold State.hpCoefs State.lpCoefs
  rw [hf .hpb0 (by decide), hf .hpb1 (by decide), hf .hpb2 (by decide), hf .hpa1 (by decide),
    hf .hpa2 (by decide), hf .lpb0 (by decide), hf .lpb1 (by decide), hf .lpb2 (by decide),
    hf .lpa1 (by decide), hf .lpa2 (by decide)]
  exact ⟨rfl, rfl⟩

/-- The cutoffs and coefficients that belong to the sample rate and the cutoff registers of `t`
(43_filter_bank.md R212). -/
structure CoefsFit (s t : State) : Prop where
  hphzc : t.reg .hphzc = fclamp (s.reg .hphz) twenty32 (fmul s.draw (t.reg .fs) half32)
  lphzc : t.reg .lphzc = fclamp (s.reg .lphz) twenty32 (fmul s.draw (t.reg .fs) half32)
  hpCoefs : t.hpCoefs = biquadCoef s.params .hp (t.reg .hphzc) (t.reg .fs)
  lpCoefs : t.lpCoefs = biquadCoef s.params .lp (t.reg .lphzc) (t.reg .fs)

theorem computeCoefficients_fit (s : State) : CoefsFit s (computeCoefficients s) := by
  obtain ⟨hhp, hlp⟩ := computeCoefficients_coefs s
  constructor
  · rw [computeCoefficients_reg, computeCoefficients_reg]
    rfl
  · rw [computeCoefficients_reg, computeCoefficients_reg]
    rfl
  · rw [hhp, computeCoefficients_reg, computeCoefficients_reg]
    rfl
  · rw [hlp, computeCoefficients_reg, computeCoefficients_reg]
    rfl

theorem CoefsFit.congr {s s' t t' : State} (h : CoefsFit s t) (hp : s'.params = s.params)
    (hd : s'.draw = s.draw) (hhp : s'.reg .hphz = s.reg .hphz) (hlp : s'.reg .lphz = s.reg .lphz)
    (ht : ∀ r ∈ Reg.fs :: coefWritten, t'.reg r = t.reg r) : CoefsFit s' t' := by
  obtain ⟨hhpc, hlpc⟩ := coefs_congr fun r hr => ht r (List.mem_cons_of_mem _ hr)
  constructor
  · rw [ht .hphzc (by decide), ht .fs (by decide), hd, hhp]
    exact h.hphzc
  · rw [ht .lphzc (by decide), ht .fs (by decide), hd, hlp]
    exact h.lphzc
  · rw [hhpc, ht .hphzc (by decide), ht .fs (by decide), hp]
    exact h.hpCoefs
  · rw [hlpc, ht .lphzc (by decide), ht .fs (by decide), hp]
    exact h.lpCoefs

theorem runPrepare_complete_fit {s : State} (hw : s.params.wellFormed = true) (hv : PrepareValid s) :
    CoefsFit s (runPrepare s).complete := by
  have hk := (latchAndClear_keepsBut s).setPrepared true
  refine (computeCoefficients_fit ((latchAndClear s).setPrepared true)).congr hk.params.symm hk.draw.symm
    (hk.reg .hphz (by decide)).symm (hk.reg .lphz (by decide)).symm fun r hr => ?_
  have hout : ∀ r ∈ Reg.fs :: coefWritten, r ∉ [Reg.cmdcnt, .order, .n] := by decide
  exact runPrepare_complete_reg hw hv (hout r hr)

/-- Settles O17: what `LatchAndClear` and `ComputeCoefficients` leave, and the order set last. -/
theorem prepareLatches : Obligations.PrepareLatches := by
  intro s hw hv
  have hset := runPrepare_orderSet hw hv
  obtain ⟨hstatus, hwcur, -⟩ := latchedState_rest s
  have hfit := runPrepare_complete_fit hw hv
  have hlatch : ∀ {r v}, ((latchAndClear s).setPrepared true).reg r = v →
      r ∉ coefWritten ++ [.cmdcnt, .order, .n] → (runPrepare s).complete.reg r = v :=
    runPrepare_complete_latched hw hv
  obtain ⟨horder, hn⟩ := runPrepare_complete_order hw hv
  have hprep : (runPrepare s).complete.status.prepared = true := by
    rw [State.complete_status, hset.status_eq.2.1, hstatus]
  have hcursor : ∀ c, (runPrepare s).complete.cursor c = 0 := fun c => by
    rw [State.cursor_complete, State.cursor_of_zeroed (hset.wcur.trans hwcur)]
  have hmaxd : max 2 (s.int .maxd) = ((max 2 (s.nat .maxd) : Nat) : Int) := by
    rw [← int_nat (Int.le_of_lt hv.maxd), Nat.cast_max]
    rfl
  have hdcur : (runPrepare s).complete.reg .dcur =
      fclamp (s.reg .dtgt) two32 (f32OfInt (max 2 (s.nat .maxd) : Nat)) := by
    rw [← hmaxd]
    exact hlatch (latch_reg s .dcur) (by decide)
  have hcount : (runPrepare s).complete.reg .cmdcnt = s.reg .cmdcnt + 1#32 := by
    rw [State.reg_complete, if_pos rfl, hset.reg _ (by decide) (by decide),
      (latchedState_keepsBut s).reg _ (by decide)]
  exact ⟨_, exec_prepare_of_valid hv, hprep, hlatch (latch_reg s .fs) (by decide),
    hlatch (latch_reg s .dmaxl) (by decide), hlatch (latch_reg s .lfomaxl) (by decide),
    hlatch (latch_reg s .nchl) (by decide), hlatch (latch_reg s .blkl) (by decide),
    hlatch (latch_reg s .nsamp) (by decide), runPrepare_complete_len hw hv, hcursor, hdcur,
    hlatch (latch_reg s .lfoph) (by decide), hlatch (latch_reg s .dout) (by decide), horder,
    by rw [hn, horder], hfit.hphzc, hfit.lphzc, hfit.hpCoefs, hfit.lpCoefs, hcount⟩

/-- Settles O18: the memories are those that `LatchAndClear` cleared, but for the square that setting the order
stores in Rotate mode. -/
theorem prepareClears : Obligations.PrepareClears := by
  intro s hw hv
  have hset := runPrepare_orderSet hw hv
  have hk := latchedState_keepsBut s
  obtain ⟨hstatus, -, hmem⟩ := latchedState_rest s
  obtain ⟨hmat, -, herr, hcode⟩ := hset.status_eq
  have hmode : (latchedState s).ctrl.xmode = s.ctrl.xmode := congrArg Ctrl.xmode hk.ctrl
  rw [← State.complete_status, hmode] at hmat
  rw [← State.complete_status, hstatus] at herr hcode
  obtain ⟨horder, hn⟩ := runPrepare_complete_order hw hv
  have hsilent : ∀ A, signalWords A → (runPrepare s).complete.mem.readWord A = 0#32 := fun A hA => by
    have hout := not_matWords_of_signalWords (preparedOrder_sq_le hw) hA
    rw [State.complete_mem, hset.touches.readWord fun h => hout h.2, hmem]
    exact Memory.readWord_clearSignal _ hA
  have hangles : ∀ r ∈ [Reg.yaw, .pitch, .roll], (latchedState s).reg r = s.reg r := fun r hr => by
    have hout : ∀ r ∈ [Reg.yaw, .pitch, .roll], r ∉ coefWritten ++ latchWritten := by decide
    exact hk.reg r (hout r hr)
  refine ⟨_, exec_prepare_of_valid hv, ?_, ?_, hmat, ?_, herr, hcode, ?_⟩
  · intro c k _ _
    exact hsilent _ (signalWords_bufAddr c k)
  · intro c i hc hi
    exact hsilent _ (signalWords_fstAddr (hc.trans_le (Params.bounds hw).1) hi)
  · intro hx i j hi hj
    rw [hn] at hi hj
    rw [horder, ← rotationAt_congr hk.params hangles]
    exact hset.mat (hmode.trans hx) i j hi hj
  · refine (runPrepare_keepsBut hw hv).complete.mono (by decide) (fun _ => id) fun A hA => ?_
    rw [State.nat_complete (by decide)]
    exact or_assoc.1 hA

end Sys2Proof.Machine
end

section
/-! How far a rounded result can lie (00_scope.md R19): between two numbers that the exact result lies between. -/

namespace Sys2Proof.Machine

/-! ## Signed values -/

theorem natAbs_fInt (x : F32) : (fInt x).natAbs = fUnits x := by
  unfold fInt
  split <;> omega

theorem fSign_of_fInt_pos {x : F32} (h : 0 < fInt x) : fSign x = false := by
  refine Bool.eq_false_iff.2 fun hs => ?_
  rw [fInt, if_pos hs] at h
  omega

theorem fInt_packF32 (neg : Bool) {mag : Nat} (h : mag < 2 ^ 31) :
    fInt (packF32 neg mag) = if neg then -(magUnits mag : Int) else magUnits mag := by
  rw [fInt, fUnits, fSign_packF32 _ h, fMag_packF32 _ h]

/-- What lies between two finite numbers is finite. -/
theorem fIsFinite_of_between {lo hi x : F32} (hlo : fIsFinite lo = true) (hhi : fIsFinite hi = true)
    (h1 : fInt lo ≤ fInt x) (h2 : fInt x ≤ fInt hi) : fIsFinite x = true := by
  have hunits : fUnits x ≤ fUnits lo ∨ fUnits x ≤ fUnits hi := by
    have := natAbs_fInt lo
    have := natAbs_fInt hi
    have := natAbs_fInt x
    omega
  have hl := of_decide_eq_true hlo
  have hh := of_decide_eq_true hhi
  refine decide_eq_true ?_
  rcases hunits with h | h
  · exact (magUnits_le_iff.1 h).trans_lt hl
  · exact (magUnits_le_iff.1 h).trans_lt hh

/-! ## Rounding a whole number of units -/

/-- The number that a whole number of units rounds to; `+0` for none. -/
def roundInt (z : Int) : F32 := packF32 (decide (z < 0)) (roundUnits z.natAbs 1)

theorem fInt_roundInt (z : Int) : fInt (roundInt z) =
    if z < 0 then -(magUnits (roundUnits z.natAbs 1) : Int) else magUnits (roundUnits z.natAbs 1) := by
  rw [roundInt, fInt_packF32 _ (roundUnits_lt_sign _ _)]
  simp only [decide_eq_true_eq]

theorem fInt_roundInt_neg (z : Int) : fInt (roundInt (-z)) = -fInt (roundInt z) := by
  rw [fInt_roundInt, fInt_roundInt, Int.natAbs_neg]
  rcases lt_trichotomy z 0 with h | rfl | h
  · rw [if_neg (by omega), if_pos h, Int.neg_neg]
  · simp
  · rw [if_pos (by omega), if_neg (by omega)]

/-- A finite number is its own rounding. -/
theorem roundInt_fInt {x : F32} (hx : fIsFinite x = true) (h0 : fInt x ≠ 0) : roundInt (fInt x) = x := by
  have hmag : roundUnits (fInt x).natAbs 1 = fMag x := by
    rw [natAbs_fInt]
    simpa [fUnits] using roundUnits_exact Nat.one_pos (of_decide_eq_true hx).le
  refine eq_of_sign_mag ?_ ?_
  · rw [roundInt, fSign_packF32 _ (roundUnits_lt_sign _ _)]
    unfold fInt at h0 ⊢
    cases fSign x
    · simp
    · simp at h0 ⊢
      omega
  · rw [roundInt, fMag_packF32 _ (roundUnits_lt_sign _ _), hmag]

/-- Rounding does not pass a number from below. -/
theorem fInt_roundInt_le {z : Int} {y : F32} (hy : fIsFinite y = true) (hz : z ≤ fInt y) :
    fInt (roundInt z) ≤ fInt y := by
  have habs := natAbs_fInt y
  rw [fInt_roundInt]
  split
  · by_cases hneg : fInt y < 0
    · have hle : fMag y ≤ roundUnits z.natAbs 1 :=
        le_roundUnits Nat.one_pos (of_decide_eq_true hy).le (by rw [← fUnits]; omega)
      have := magUnits_le_iff.2 hle
      rw [← fUnits] at this
      omega
    · omega
  · have hle : roundUnits z.natAbs 1 ≤ fMag y := roundUnits_le Nat.one_pos (by rw [← fUnits]; omega)
    have := magUnits_le_iff.2 hle
    rw [← fUnits] at this
    omega

/-- Rounding does not pass a number from above. -/
theorem le_fInt_roundInt {z : Int} {y : F32} (hy : fIsFinite y = true) (hz : fInt y ≤ z) :
    fInt y ≤ fInt (roundInt z) := by
  have hneg : fInt (roundInt (-z)) ≤ fInt (fneg y) :=
    fInt_roundInt_le (by rwa [fIsFinite_fneg]) (by rw [fInt_fneg]; omega)
  rw [fInt_roundInt_neg, fInt_fneg] at hneg
  omega

/-! ## Sums -/

section
variable {a b : F32} (ha : fIsFinite a = true) (hb : fIsFinite b = true)
include ha hb

/-- A sum is the rounded exact sum, but for the sign of a zero. -/
theorem sumWith_eq_roundInt (nan : F32) (h : fInt a + fInt b ≠ 0) :
    sumWith nan a b = roundInt (fInt a + fInt b) := by
  rw [sumWith_of_finite ha hb, if_neg h, roundInt]

theorem fInt_sumWith (nan : F32) : fInt (sumWith nan a b) = fInt (roundInt (fInt a + fInt b)) := by
  by_cases h : fInt a + fInt b = 0
  · rw [sumWith_of_finite ha hb, if_pos h, h, fInt_packF32 _ (by norm_num), fInt_roundInt]
    simp
  · rw [sumWith_eq_roundInt ha hb nan h]

/-- A sum lies between any two numbers that the exact sum lies between. -/
theorem sumWith_between {lo hi : F32} (nan : F32) (hlo : fIsFinite lo = true) (hhi : fIsFinite hi = true)
    (h1 : fInt lo ≤ fInt a + fInt b) (h2 : fInt a + fInt b ≤ fInt hi) :
    fIsFinite (sumWith nan a b) = true ∧ fInt lo ≤ fInt (sumWith nan a b) ∧
      fInt (sumWith nan a b) ≤ fInt hi := by
  have hl : fInt lo ≤ fInt (sumWith nan a b) := by
    rw [fInt_sumWith ha hb]
    exact le_fInt_roundInt hlo h1
  have hh : fInt (sumWith nan a b) ≤ fInt hi := by
    rw [fInt_sumWith ha hb]
    exact fInt_roundInt_le hhi h2
  exact ⟨fIsFinite_of_between hlo hhi hl hh, hl, hh⟩

end

end Sys2Proof.Machine
end

section
/-! The delay control of `DL.RUN` (41_delay_line.md R158 to R161): the LFO phase stays within a turn, and every
effective delay within the safe range. -/

namespace Sys2Proof.Machine

/-! ## The LFO phase (41_delay_line.md R161) -/

/-- A phase within a turn: in `[0, 1)` by the device's own comparisons. -/
def InTurn (ph : F32) : Prop := fge ph zero32 = true ∧ flt ph one32 = true

theorem inTurn_iff {ph : F32} : InTurn ph ↔ fIsFinite ph = true ∧ 0 ≤ fInt ph ∧ fInt ph < 2 ^ 149 := by
  have h0 : fInt zero32 = 0 := by decide
  have h1 : fInt one32 = 2 ^ 149 := by decide
  rw [InTurn, flt, fge_iff, fgt_iff, h0, h1]
  constructor
  · rintro ⟨⟨hnan, -, hlo⟩, -, -, hhi⟩
    exact ⟨fIsFinite_of_between (lo := zero32) (hi := one32) rfl rfl (by omega) (by omega), hlo, hhi⟩
  · rintro ⟨hfin, hlo, hhi⟩
    have hnan := fIsNaN_of_finite hfin
    exact ⟨⟨hnan, rfl, hlo⟩, rfl, hnan, hhi⟩

/-- The phase increment lies between 0 and half a turn. -/
theorem delayPlan_inc (s : State) :
    fIsFinite (delayPlan s).inc = true ∧ 0 ≤ fInt (delayPlan s).inc ∧ fInt (delayPlan s).inc ≤ 2 ^ 148 := by
  have h0 : fInt zero32 = 0 := by decide
  have hhalf : fInt half32 = 2 ^ 148 := by decide
  obtain ⟨-, hlo, hhi⟩ :=
    fclamp_spec (fdiv s.draw (s.f32 .lforate) (s.f32 .fs)) (lo := zero32) (hi := half32) (by decide)
  have hfin := fIsFinite_of_between (lo := zero32) (hi := half32) rfl rfl hlo hhi
  rw [h0] at hlo
  rw [hhalf] at hhi
  exact ⟨hfin, hlo, hhi⟩

theorem startPhase_inTurn (s : State) : InTurn (startPhase s) := by
  unfold startPhase
  split
  · rename_i h
    exact Bool.and_eq_true_iff.1 h
  · exact ⟨by decide, by decide⟩

/-- One advance of the phase reaches at most 1.5 turns, and the wrap takes a whole turn off. -/
theorem nextPhase_inTurn {inc ph : F32} (k : Nat) (hinc : fIsFinite inc = true) (hinc0 : 0 ≤ fInt inc)
    (hinc1 : fInt inc ≤ 2 ^ 148) (h : InTurn ph) : InTurn (nextPhase k inc ph) := by
  obtain ⟨hph, hph0, hph1⟩ := inTurn_iff.1 h
  have h0 : fInt zero32 = 0 := by decide
  have hhalf : fInt half32 = 2 ^ 148 := by decide
  have hone : fInt one32 = 2 ^ 149 := by decide
  have htop : fInt 0x3FC00000#32 = 2 ^ 149 + 2 ^ 148 := by decide
  obtain ⟨hfin, hlo, hhi⟩ : fIsFinite (fadd k ph inc) = true ∧ fInt zero32 ≤ fInt (fadd k ph inc) ∧
      fInt (fadd k ph inc) ≤ fInt 0x3FC00000#32 :=
    sumWith_between hph hinc _ rfl rfl (by omega) (by omega)
  unfold nextPhase
  split
  · rename_i hwrap
    obtain ⟨-, -, hge⟩ := fge_iff.1 hwrap
    have hneg : fInt (fneg one32) = -2 ^ 149 := by rw [fInt_fneg, hone]
    obtain ⟨hfin', hlo', hhi'⟩ : fIsFinite (fsub k (fadd k ph inc) one32) = true ∧
        fInt zero32 ≤ fInt (fsub k (fadd k ph inc) one32) ∧
        fInt (fsub k (fadd k ph inc) one32) ≤ fInt half32 :=
      sumWith_between hfin rfl _ rfl rfl (by omega) (by omega)
    exact inTurn_iff.2 ⟨hfin', by omega, by omega⟩
  · rename_i hwrap
    refine inTurn_iff.2 ⟨hfin, by omega, ?_⟩
    by_contra hge
    exact hwrap (fge_iff.2 ⟨fIsNaN_of_finite hfin, rfl, by omega⟩)

/-- Settles O31, by induction on the sample. -/
theorem phaseStaysInTurn : Obligations.PhaseStaysInTurn := by
  intro s n
  obtain ⟨hinc, hinc0, hinc1⟩ := delayPlan_inc s
  have hturn : InTurn (ctlAt s n).ph := by
    induction n with
    | zero => exact startPhase_inTurn s
    | succ n ih => exact nextPhase_inTurn s.draw hinc hinc0 hinc1 ih
  exact hturn

/-! ## The effective delay (41_delay_line.md R160) -/

/-- Settles O30: every effective delay has gone through the clamp, whose range is not empty. -/
theorem effectiveDelayIsClamped : Obligations.EffectiveDelayIsClamped := by
  intro s n h hp
  have hb := h.bufferOk hp
  have hlen := hb.len_eq
  have hle := hb.len_le
  rw [delayAt_eq]
  exact fclamp_fge _ (dHiTot_ge (by omega))

end Sys2Proof.Machine
end

section
/-! The delay-line commands (41_delay_line.md): what `DL.PUSH` and `DL.POP` write and leave alone, where the four taps
of a read lie, and what a `DL.RUN` computes from the time line of each channel. -/

namespace Sys2Proof.Machine

/-! ## `DL.PUSH` (41_delay_line.md R151, R163) -/

/-- The frame of a push: its cursor and the word at it. -/
theorem push_keepsBut (c : Nat) (x : F32) (s : State) :
    KeepsBut [] (· = c) (· = bufAddr c (s.cursor c)) s (push c x s) :=
  .of_unit (push_skeleton c x s) (push_touches c x s) fun c' hc' => by
    unfold push
    rw [State.cursor_setCursor, if_neg fun h => hc' h.1]
    rfl

theorem State.reg_complete_ne {s : State} {r : Reg} (h : r ≠ .cmdcnt) : s.complete.reg r = s.reg r :=
  State.reg_setReg_ne s h _

/-- Completion counts one command more than the state before its work, where the work leaves the count alone. -/
theorem complete_cmdcnt_of_keepsBut {rs : List Reg} {cs A : Nat → Prop} {s t : State}
    (h : KeepsBut rs cs A s t) (hr : Reg.cmdcnt ∉ rs) : t.complete.reg .cmdcnt = s.reg .cmdcnt + 1#32 := by
  rw [State.complete, State.reg_setReg_same, h.reg _ hr]

/-- Settles O22: the rules of `push` under completion. -/
theorem pushStoresAtCursor : Obligations.PushStoresAtCursor := by
  intro s ch h hp hc
  have hb := h.bufferOk hp
  obtain ⟨-, -, hnchl, -⟩ := h.block_le hp
  have hch : ch < 64 := by omega
  have hcur := hb.cursor_lt ch hch
  have hk := push_keepsBut ch (s.reg .din) s
  have hbuf : (push ch (s.reg .din) s).buf ch (s.cursor ch) = s.reg .din := by
    rw [push_buf hb hch _ (hcur.trans_le hb.len_le), if_pos ⟨rfl, rfl⟩]
  have hcursor : (push ch (s.reg .din) s).cursor ch =
      if s.cursor ch + 1 = s.nat .len then 0 else s.cursor ch + 1 := by
    rw [push_cursor hb hch, if_pos rfl]
    split
    · rename_i hwrap
      rw [hwrap, Nat.mod_self]
    · exact Nat.mod_eq_of_lt (by omega)
  have hstatus : (push ch (s.reg .din) s).status = s.status := State.status_of_skeleton (push_skeleton ch _ s)
  exact ⟨_, runChannel_of_inside hp hc _ (work (.dlPush ch)), hbuf, hcursor, hstatus,
    complete_cmdcnt_of_keepsBut hk (by decide), hk.complete⟩

/-! ## `DL.POP` (41_delay_line.md R154, R157) -/

theorem exec_dlPop {s : State} (hp : s.status.prepared = true) {ch : Nat} (hc : ch < s.nat .nchl) :
    exec (.dlPop ch) s = .next (s.setReg .dout (popAt s ch (s.reg .dly))).complete :=
  runChannel_of_inside hp hc _ (work (.dlPop ch))

theorem dlPop_dout (s : State) (v : Word) : (s.setReg .dout v).complete.reg .dout = v := by
  rw [State.reg_complete_ne (by decide), State.reg_setReg_same]

/-- Settles O24: `DOUT` is `PopAt`, which the statement writes out. -/
theorem popReadsInterpolated : Obligations.PopReadsInterpolated := by
  intro s ch hp hc
  have hk := (KeepsBut.refl [] nowhere nowhere s).setReg .dout (popAt s ch (s.reg .dly))
  refine ⟨_, exec_dlPop hp hc, ?_, rfl, complete_cmdcnt_of_keepsBut hk (by decide), hk.complete⟩
  rintro dc i h rfl rfl rfl
  rw [dlPop_dout]
  rfl

/-! ## The taps (41_delay_line.md R154, R166 a) -/

/-- The slot of a tap delay of at least 1 is not the cursor's. -/
theorem tapSlot_ne_cursor {s : State} (h : BufferOk s) {c : Nat} (hc : c < 64) {τ : Int} (h1 : 1 ≤ τ)
    (h2 : τ < s.nat .len) : tapSlot s c τ ≠ s.cursor c := fun he => by
  have hmod : modInt ((s.cursor c : Int) - τ) (s.nat .len) = modInt ((s.cursor c : Int) - 0) (s.nat .len) := by
    rw [Int.sub_zero, modInt_of_lt (h.cursor_lt c hc)]
    exact he
  have := modInt_sub_inj h.len_pos hmod (by omega) (by omega)
  omega

/-- Settles O25: the tap delays lie between 1 and `LEN - 1`, and within that range `Mod` keeps slots apart. -/
theorem tapsAreSafe : Obligations.TapsAreSafe := by
  intro s ch d h hp hc
  have hb := h.bufferOk hp
  have hlen := hb.len_eq
  have hle := hb.len_le
  obtain ⟨-, -, hnchl, -⟩ := h.block_le hp
  obtain ⟨hlo, hhi⟩ := clampDelay_floor (s := s) (by omega) d
  refine ⟨hlo, hhi, fun τ h1 h2 => ?_⟩
  obtain ⟨hτ1, hτ2⟩ := tapDelay_bounds hb d h1 h2
  have hslot : tapSlot s ch τ < s.nat .len := modInt_lt _ hb.len_pos
  have hlocated : Located s (bufAddr ch (tapSlot s ch τ)) (.buf ch (tapSlot s ch τ)) := ⟨hp, hc, hslot, rfl⟩
  refine ⟨target_of_located h.windowsFit nofun hlocated, tapSlot_ne_cursor hb (by omega) hτ1 hτ2, ?_⟩
  intro τ' h1' h2' hne he
  obtain ⟨hτ1', hτ2'⟩ := tapDelay_bounds hb d h1' h2'
  exact hne (modInt_sub_inj hb.len_pos he (by omega) (by omega))

/-! ## `DL.RUN` (41_delay_line.md R158 to R163) -/

theorem exec_dlRun {s : State} (hp : s.status.prepared = true) :
    exec .dlRun s = .next (runDelay s).complete :=
  runPrepared_of_prepared hp _ _

/-- `Mod` of a difference sees the minuend modulo `m`. -/
theorem modInt_mod_sub (a m : Nat) (τ : Int) :
    modInt (((a % m : Nat) : Int) - τ) m = modInt ((a : Int) - τ) m := by
  unfold modInt
  push_cast
  rw [Int.emod_sub_emod]

/-- The block of a `DL.RUN` from a state with the invariant. -/
theorem StateInv.blockRun {s : State} (h : StateInv s) (hp : s.status.prepared = true) :
    BlockRun s (s.nat .nsamp) (delayBlock s) := by
  obtain ⟨-, hn, hnchl, hnsamp⟩ := h.block_le hp
  exact delayBlock_run (h.bufferOk hp) (by omega) hnsamp

/-- Settles O28: what the block leaves in each working channel; registers and completion do not touch it. -/
theorem runReadsDelayedHistory : Obligations.RunReadsDelayedHistory := by
  intro s h hp
  have hrun := h.blockRun hp
  obtain ⟨-, -, -, hnsamp⟩ := h.block_le hp
  refine ⟨_, exec_dlRun hp, ?_, ?_, fun c hc => (hrun.working c hc).cursor⟩
  · rintro c n dc i k hc hn rfl rfl rfl
    have hcb : (delayBlock s).st.cb c n = interpolate s.params s.draw (delayAt s n) fun τ =>
        history s c ((n : Int) + 1 - τ) := by
      rw [(hrun.working c hc).cb n (by omega), if_pos hn]
    exact hcb
  · intro c τ hc h1 h2
    have hcursor : (runDelay s).complete.cursor c = (s.cursor c + s.nat .nsamp) % s.nat .len :=
      (hrun.working c hc).cursor
    rw [hcursor, modInt_mod_sub]
    push_cast
    exact (hrun.working c hc).buf τ h1 h2

/-- The start phase with its test written as a conjunction. -/
theorem startPhase_eq (s : State) : startPhase s =
    if fge (s.reg .lfoph) zero32 = true ∧ flt (s.reg .lfoph) one32 = true then s.reg .lfoph else zero32 := by
  unfold startPhase
  simp only [Bool.and_eq_true]
  rfl

/-- The base delay in ramp mode (41_delay_line.md R159). -/
theorem baseDelay_ramp {p : DelayPlan} (hm : p.mode = .ramp) (k n : Nat) (cur : F32) : baseDelay k p n cur =
    if n + 1 = p.samples then p.d1 else fadd k p.d0 (fmul k (f32OfInt (n + 1 : Nat)) p.step) := by
  rw [baseDelay, hm]

/-- The base delay in one-pole mode (41_delay_line.md R159). -/
theorem baseDelay_onePole {p : DelayPlan} (hm : p.mode = .onePole) (k n : Nat) (cur : F32) :
    baseDelay k p n cur = fadd k cur (fmul k p.coef (fsub k p.d1 cur)) := by
  rw [baseDelay, hm]

/-- In one-pole mode the smoother's new value is the base delay. -/
theorem nextCtl_cur_onePole {p : DelayPlan} (hm : p.mode = .onePole) (k n : Nat) (c : DelayCtl) :
    (nextCtl k p n c).cur = baseDelay k p n c.cur := by
  rw [nextCtl, hm]

theorem endDelay_ramp {p : DelayPlan} (hm : p.mode = .ramp) (c : DelayCtl) : endDelay p c = p.d1 := by
  rw [endDelay, hm]

theorem endDelay_onePole {p : DelayPlan} (hm : p.mode = .onePole) (c : DelayCtl) : endDelay p c = c.cur := by
  rw [endDelay, hm]

/-- What `DL.RUN` leaves in its two registers. -/
theorem runDelay_regs (s : State) :
    (runDelay s).reg .dcur = endDelay (delayPlan s) (delayBlock s).ctl ∧
      (runDelay s).reg .lfoph = (delayBlock s).ctl.ph := by
  unfold runDelay
  rw [State.reg_setReg_ne _ (by decide), State.reg_setReg_same, State.reg_setReg_same]
  exact ⟨rfl, rfl⟩

/-- The frame of `DL.RUN` (20_memory.md R99). -/
theorem runDelay_keepsBut {s : State} (h : StateInv s) (hp : s.status.prepared = true) :
    KeepsBut [.lfoph, .dcur] (· < s.nat .n)
      (fun A => cbWords (· < s.nat .n) (s.nat .nsamp) A ∨ bufWords (· < s.nat .n) (s.nat .len) A) s
      (runDelay s) := by
  have hrun := h.blockRun hp
  refine KeepsBut.setReg (KeepsBut.setReg (.of_unit hrun.skeleton (hrun.touches le_rfl) ?_) _ _) _ _
  intro c hc
  rcases Nat.lt_or_ge c 64 with hc64 | hc64
  · exact (hrun.others c hc64 (not_lt.1 hc)).cursor
  · rw [State.cursor_of_ge _ hc64, State.cursor_of_ge _ hc64]

/-- Settles O29: the delay control by its cases, and the registers and the frame of the run. -/
theorem runEndsOnTarget : Obligations.RunEndsOnTarget := by
  rintro s _ _ _ _ _ _ h hp rfl rfl rfl rfl rfl rfl
  have hctl := (h.blockRun hp).ctl
  have hk := runDelay_keepsBut h hp
  obtain ⟨hdcur, hlfoph⟩ := runDelay_regs s
  rw [hctl] at hdcur hlfoph
  refine ⟨rfl, startPhase_eq s, ?_, _, exec_dlRun hp, ?_, ?_, ?_, ?_,
    complete_cmdcnt_of_keepsBut hk (by decide), hk.complete.mono (by decide) (fun _ => id) fun _ => id⟩
  · rintro n _ _ rfl rfl
    refine ⟨rfl, fun hm => ?_, fun hm => ?_⟩
    · rw [delayAt_eq, baseDelay_ramp (p := delayPlan s) hm]
      rfl
    · have hcur : (ctlAt s (n + 1)).cur = baseDelay s.draw (delayPlan s) n (ctlAt s n).cur :=
        nextCtl_cur_onePole hm _ _ _
      refine ⟨hcur.trans (baseDelay_onePole hm _ _ _), ?_⟩
      rw [delayAt_eq, hcur]
      rfl
  · intro hm
    rw [State.reg_complete_ne (by decide), hdcur]
    exact endDelay_ramp hm _
  · intro hm
    rw [State.reg_complete_ne (by decide), hdcur]
    exact endDelay_onePole hm _
  · rw [State.reg_complete_ne (by decide), hlfoph]
  · exact runDelay_status s

end Sys2Proof.Machine
end

section
/-! The default kernel (41_delay_line.md R153): at an integer delay it picks one sample, and over silence it answers
`+0`, since its weights are finite and the second of them is not negative. -/

namespace Sys2Proof.Machine

/-! ## Signs of products and quotients -/

section
variable {a b : F32} (ha : fIsFinite a = true) (hb : fIsFinite b = true)
include ha hb

theorem fSign_fmul (k : Nat) : fSign (fmul k a b) = (fSign a != fSign b) := by
  rw [fmul_of_finite ha hb, fSign_packF32 _ (roundUnits_lt_sign _ _)]

theorem fSign_fdiv (k : Nat) (h0 : fMag b ≠ 0) : fSign (fdiv k a b) = (fSign a != fSign b) := by
  rw [fdiv_of_finite ha hb k h0, fSign_packF32 _ (roundUnits_lt_sign _ _)]

end

/-! ## Zeros -/

/-- A zero times a finite number is a zero. -/
theorem fMag_fmul_zero {z x : F32} (k : Nat) (hz : fMag z = 0) (hx : fIsFinite x = true) :
    fMag (fmul k z x) = 0 := by
  have hzfin : fIsFinite z = true := decide_eq_true (by rw [hz]; decide)
  rw [fmul_of_finite hzfin hx, fMag_packF32 _ (roundUnits_lt_sign _ _), fUnits, hz, magUnits_zero, Nat.zero_mul,
    roundUnits_zero (by positivity)]

theorem fInt_of_zero {z : F32} (hz : fMag z = 0) : fInt z = 0 := by
  simp [fInt, fUnits, hz]

/-- A finite number times `+0` is a zero of its sign. -/
theorem fmul_posZero {x : F32} (k : Nat) (hx : fIsFinite x = true) :
    fmul k x zero32 = packF32 (fSign x) 0 := by
  have hz : fUnits zero32 = 0 := by decide
  have hs : fSign zero32 = false := by decide
  rw [fmul_of_finite hx (by decide), hz, Nat.mul_zero, roundUnits_zero (by positivity), hs, Bool.bne_false]

/-- A sum of zeros is negative only if both are. -/
theorem fadd_zeros (k : Nat) (s t : Bool) : fadd k (packF32 s 0) (packF32 t 0) = packF32 (s && t) 0 := by
  have hfin : ∀ u, fIsFinite (packF32 u 0) = true := by decide
  have hint : ∀ u, fInt (packF32 u 0) = 0 := by decide
  have hsign : ∀ u, fSign (packF32 u 0) = u := by decide
  rw [fadd, sumWith_of_finite (hfin s) (hfin t), hint, hint, if_pos (by decide), hsign, hsign]

/-! ## Sums with a zero -/

/-- `y` is the number `x`, up to the sign of a zero. -/
structure SameNumber (x y : F32) : Prop where
  mag : fMag y = fMag x
  eq : fMag x ≠ 0 → y = x

theorem SameNumber.refl (x : F32) : SameNumber x x := ⟨rfl, fun _ => rfl⟩

theorem SameNumber.not_nan {x y : F32} (h : SameNumber x y) (hx : fIsNaN x = false) : fIsNaN y = false := by
  rwa [fIsNaN, h.mag]

theorem SameNumber.trans {x y z : F32} (h : SameNumber x y) (h' : SameNumber y z) : SameNumber x z :=
  ⟨h'.mag.trans h.mag, fun h0 => (h'.eq (h.mag ▸ h0)).trans (h.eq h0)⟩

/-- A number that is no NaN is finite or an infinity. -/
theorem finite_or_inf {x : F32} (h : fIsNaN x = false) : fIsFinite x = true ∨ fIsInf x = true := by
  have hle := of_decide_eq_false h
  rcases Nat.lt_or_ge (fMag x) infMag with hlt | hge
  · exact .inl (decide_eq_true hlt)
  · exact .inr (decide_eq_true (by omega))

/-- A finite exact sum that is the number `x` itself is answered as `x`. -/
theorem sumWith_same {a b x : F32} (nan : F32) (ha : fIsFinite a = true) (hb : fIsFinite b = true)
    (hx : fIsFinite x = true) (h : fInt a + fInt b = fInt x) : SameNumber x (sumWith nan a b) := by
  by_cases h0 : fInt x = 0
  · have hmag : fMag x = 0 := by
      by_contra hne
      have := fUnits_pos hne
      have := natAbs_fInt x
      omega
    rw [sumWith_of_finite ha hb, if_pos (h.trans h0)]
    exact ⟨(fMag_packF32 _ (by norm_num)).trans hmag.symm, fun hne => absurd hmag hne⟩
  · rw [sumWith_eq_roundInt ha hb nan (h ▸ h0), h, roundInt_fInt hx h0]
    exact .refl x

/-- Adding a number to a zero, or a zero to a number, gives the number. -/
theorem fadd_zero_same {z x : F32} (k : Nat) (hz : fMag z = 0) (hx : fIsNaN x = false) :
    SameNumber x (fadd k z x) ∧ SameNumber x (fadd k x z) := by
  have hzfin : fIsFinite z = true := decide_eq_true (by rw [hz]; decide)
  have hzint := fInt_of_zero hz
  rcases finite_or_inf hx with hfin | hinf
  · exact ⟨sumWith_same _ hzfin hfin hfin (by omega), sumWith_same _ hfin hzfin hfin (by omega)⟩
  · have hznan := fIsNaN_of_finite hzfin
    have hzinf := fIsInf_of_finite hzfin
    have hleft : fadd k z x = x := by simp [fadd, sumWith, hx, hznan, hinf, hzinf]
    have hright : fadd k x z = x := by simp [fadd, sumWith, hx, hznan, hinf, hzinf]
    rw [hleft, hright]
    exact ⟨.refl x, .refl x⟩

/-- `1.0` times a number is the number. -/
theorem fmul_one {x : F32} (k : Nat) (hx : fIsNaN x = false) : fmul k one32 x = x := by
  have hone : fIsFinite one32 = true := by decide
  have hunits : fUnits one32 = 2 ^ 149 := by decide
  have hsign : fSign one32 = false := by decide
  rcases finite_or_inf hx with hfin | hinf
  · rw [fmul_of_finite hone hfin, hunits, hsign, Nat.mul_comm, fUnits,
      roundUnits_exact (by positivity) (of_decide_eq_true hfin).le, Bool.false_bne]
    exact eq_of_sign_mag (fSign_packF32 _ (fMag_lt x)) (fMag_packF32 _ (fMag_lt x))
  · have hnonzero : fMag one32 ≠ 0 := by decide
    have hmul : fmul k one32 x = packF32 (fSign x) infMag := by
      simp [fmul, fIsNaN_of_finite hone, fIsInf_of_finite hone, hx, hinf, hnonzero, hsign]
    have hmag : infMag = fMag x := (of_decide_eq_true hinf).symm
    rw [hmul, hmag]
    exact eq_of_sign_mag (fSign_packF32 _ (fMag_lt x)) (fMag_packF32 _ (fMag_lt x))

/-! ## An integer delay (41_delay_line.md R155, R166 b) -/

/-- The default weights at fraction 0 (41_delay_line.md R153): every operand on the way is finite, so no NaN draw
matters and the rest is a computation. -/
theorem lagrange4_zero (k : Nat) : lagrange4 k zero32 = ⟨packF32 true 0, one32, zero32, packF32 true 0⟩ := by
  unfold lagrange4 fsub fadd
  simp (disch := decide) only [sumWith_of_finite, fmul_of_finite, fdiv_of_finite, Kernel.mk.injEq]
  exact ⟨by decide, by decide, by decide, by decide⟩

/-- A clamped delay that is an integer has that integer as its floor and `+0` as its fraction. -/
theorem integerDelay_parts {d : Nat} (k : Nat) (hd : d ≤ 2 ^ 24) :
    fFloor (f32OfInt d) = d ∧ fsub k (f32OfInt d) (f32OfInt d) = zero32 := by
  obtain ⟨hsign, hmag, hint⟩ := f32OfInt_spec hd
  have hfin : fIsFinite (f32OfInt d) = true := decide_eq_true hmag
  refine ⟨?_, ?_⟩
  · rw [fFloor, hint, Int.mul_ediv_cancel _ (by norm_num)]
  · rw [fsub, sumWith_of_finite hfin (by rwa [fIsFinite_fneg]), fInt_fneg, if_pos (by omega), hsign]
    rfl

/-- An integer delay in range is clamped to itself. -/
theorem clampDelay_of_integer {s : State} (h : BufferOk s) {d : Nat} (h1 : 2 ≤ d)
    (h2 : d ≤ max 2 (s.nat .dmaxl + s.nat .lfomaxl)) : clampDelay s (f32OfInt d) = f32OfInt d := by
  have hlen := h.len_eq
  have hle := h.len_le
  have hd : d ≤ 2 ^ 24 := by omega
  obtain ⟨-, -, hint⟩ := f32OfInt_spec hd
  have hnan := f32OfInt_not_nan hd
  have hbound : max 2 (s.nat .dmaxl + s.nat .lfomaxl) ≤ 2 ^ 24 := by omega
  have htop := fInt_dHiTot (s := s) (by omega)
  refine fclamp_of_mem (fge_iff.2 ⟨hnan, by decide, ?_⟩)
    (fgt_eq_false_of_fge (fge_iff.2 ⟨f32OfInt_not_nan hbound, hnan, ?_⟩))
  · rw [hint, fInt_two32]
    omega
  · rw [hint]
    refine le_trans ?_ htop.ge
    omega

/-- The weights at fraction 0 pick the second tap, if the other three are finite. -/
theorem interpolate_integer {p : Params} (hp : p.realisation = 0) (k : Nat) {d : Nat} (hd : d ≤ 2 ^ 24)
    {x : Int → F32} (h0 : fIsFinite (x (d - 1)) = true) (h1 : fIsNaN (x d) = false)
    (h2 : fIsFinite (x (d + 1)) = true) (h3 : fIsFinite (x (d + 2)) = true) :
    SameNumber (x d) (interpolate p k (f32OfInt d) x) := by
  obtain ⟨hfloor, hfrac⟩ := integerDelay_parts k hd
  simp only [interpolate, kernel4, hfloor, hfrac, if_pos hp, lagrange4_zero]
  have hfirst := (fadd_zero_same k (fMag_fmul_zero k (z := packF32 true 0) (by decide) h0) h1).1
  have hsecond := (fadd_zero_same k (fMag_fmul_zero k (z := zero32) (by decide) h2) (hfirst.not_nan h1)).2
  have hthird := (fadd_zero_same k (fMag_fmul_zero k (z := packF32 true 0) (by decide) h3)
    ((hfirst.trans hsecond).not_nan h1)).2
  rw [fmul_one k h1]
  exact (hfirst.trans hsecond).trans hthird

/-- Settles O26: the clamp leaves the delay, and the weights at fraction 0 pick its sample. -/
theorem integerDelayReadsSample : Obligations.IntegerDelayReadsSample := by
  intro s ch d h hp hr hc h2 hmax hdly hf0 hf2 hf3 hnan
  have hb := h.bufferOk hp
  have hlen := hb.len_eq
  have hle := hb.len_le
  have hread : SameNumber (tap s ch d) (popAt s ch (s.reg .dly)) := by
    rw [popAt, hdly, clampDelay_of_integer hb h2 hmax]
    exact interpolate_integer hr s.draw (by omega) hf0 hnan hf2 hf3
  refine ⟨_, exec_dlPop hp hc, ?_⟩
  rw [dlPop_dout]
  exact ⟨hread.mag, hread.eq⟩

end Sys2Proof.Machine
end

section
/-! Silence (41_delay_line.md R156): for every fraction the default weights are finite and the second is not negative,
so a read over zeros sums zeros of which one is `+0`. -/

namespace Sys2Proof.Machine

/-! ## Bounds of results -/

/-- `x` is a finite number of magnitude at most `b`. -/
structure AbsLe (b : Nat) (x : F32) : Prop where
  finite : fIsFinite x = true
  units : fUnits x ≤ b * 2 ^ 149

theorem AbsLe.fneg {b : Nat} {x : F32} (h : AbsLe b x) : AbsLe b (fneg x) :=
  ⟨(fIsFinite_fneg x).trans h.finite, by rw [fUnits, fMag_fneg]; exact h.units⟩

/-- A rounded magnitude is at most an integer that the exact one is at most. -/
theorem absLe_packF32 (neg : Bool) {num den b : Nat} (hd : 0 < den) (hb : b ≤ 2 ^ 24)
    (h : num ≤ b * 2 ^ 149 * den) : AbsLe b (packF32 neg (roundUnits num den)) := by
  obtain ⟨mag, hm, hu⟩ := magUnits_ofInt hb
  have hle : roundUnits num den ≤ mag := roundUnits_le hd (hu ▸ h)
  have hmag := fMag_packF32 neg (roundUnits_lt_sign num den)
  refine ⟨decide_eq_true (by omega), ?_⟩
  rw [fUnits, hmag, ← hu]
  exact magUnits_le_iff.2 hle

section
variable {a b : Nat} {x y : F32} (hx : AbsLe a x) (hy : AbsLe b y)
include hx hy

theorem AbsLe.sumWith (nan : F32) (hab : a + b ≤ 2 ^ 24) : AbsLe (a + b) (sumWith nan x y) := by
  have hxabs := natAbs_fInt x
  have hyabs := natAbs_fInt y
  have hxle := hx.units
  have hyle := hy.units
  rw [sumWith_of_finite hx.finite hy.finite]
  split
  · have := absLe_packF32 (fSign x && fSign y) (num := 0) Nat.one_pos hab (Nat.zero_le _)
    rwa [roundUnits_zero Nat.one_pos] at this
  · exact absLe_packF32 _ Nat.one_pos hab (by omega)

theorem AbsLe.fadd (k : Nat) (hab : a + b ≤ 2 ^ 24) : AbsLe (a + b) (fadd k x y) := hx.sumWith hy _ hab

theorem AbsLe.fsub (k : Nat) (hab : a + b ≤ 2 ^ 24) : AbsLe (a + b) (fsub k x y) := hx.sumWith hy.fneg _ hab

theorem AbsLe.fmul (k : Nat) (hab : a * b ≤ 2 ^ 24) : AbsLe (a * b) (fmul k x y) := by
  rw [fmul_of_finite hx.finite hy.finite]
  refine absLe_packF32 _ (by positivity) hab ?_
  calc fUnits x * fUnits y ≤ a * 2 ^ 149 * (b * 2 ^ 149) := Nat.mul_le_mul hx.units hy.units
    _ = a * b * 2 ^ 149 * 2 ^ 149 := by ring

end

theorem fMag_ne_zero {y : F32} (hy : 2 ^ 149 ≤ fUnits y) : fMag y ≠ 0 := fun h => by
  rw [fUnits, h, magUnits_zero] at hy
  omega

/-- A quotient by a number of magnitude at least 1 is not larger than its dividend. -/
theorem AbsLe.fdiv {a : Nat} {x y : F32} (hx : AbsLe a x) (k : Nat) (hy : fIsFinite y = true)
    (hy1 : 2 ^ 149 ≤ fUnits y) (ha : a ≤ 2 ^ 24) : AbsLe a (fdiv k x y) := by
  rw [fdiv_of_finite hx.finite hy k (fMag_ne_zero hy1)]
  exact absLe_packF32 _ (by omega) ha (Nat.mul_le_mul hx.units hy1)

/-! ## The fraction of a delay (41_delay_line.md R154) -/

/-- A fraction: a number in `[0, 1)` that is not `-0`. -/
structure Fraction (f : F32) : Prop where
  finite : fIsFinite f = true
  sign : fSign f = false
  lt_one : fInt f < 2 ^ 149

/-- A number of magnitude at least 2 is a multiple of `2^-22`. -/
theorem dvd_fUnits {x : F32} (h : 2 ^ 150 ≤ fUnits x) : 2 ^ 127 ∣ fUnits x := by
  obtain ⟨e, q, -, hq, -, hu⟩ := magUnits_parts (fMag x)
  have he : 127 ≤ e := by
    by_contra hc
    have hsmall : q * 2 ^ e < 2 ^ 150 :=
      calc q * 2 ^ e < 2 ^ 24 * 2 ^ e := Nat.mul_lt_mul_of_pos_right hq (by positivity)
        _ ≤ 2 ^ 24 * 2 ^ 126 := Nat.mul_le_mul_left _ (Nat.pow_le_pow_right (by norm_num) (by omega))
        _ = 2 ^ 150 := by norm_num
    rw [fUnits, hu] at h
    omega
  rw [fUnits, hu]
  exact Dvd.dvd.mul_left (Nat.pow_dvd_pow 2 he) q

/-- What is left of a delay of at least 2 above its integer part is a fraction: it is a multiple of `2^-22` below 1,
so rounding does not carry it to 1. -/
theorem fraction_of_delay {dc : F32} (k : Nat) (hdc : fIsFinite dc = true) (h2 : 2 * 2 ^ 149 ≤ fInt dc)
    (hmax : fFloor dc ≤ 2 ^ 24) : Fraction (fsub k dc (f32OfInt (fFloor dc))) := by
  have hfloor : fFloor dc * 2 ^ 149 ≤ fInt dc ∧ fInt dc < fFloor dc * 2 ^ 149 + 2 ^ 149 := by
    unfold fFloor
    omega
  obtain ⟨n, hn⟩ : ∃ n : Nat, fFloor dc = n := ⟨(fFloor dc).toNat, by omega⟩
  rw [hn] at hfloor hmax ⊢
  obtain ⟨hsign, hmag, hint⟩ := f32OfInt_spec (n := n) (by omega)
  have hnfin : fIsFinite (fneg (f32OfInt n)) = true := by
    rw [fIsFinite_fneg]
    exact decide_eq_true hmag
  have hneg : fInt (fneg (f32OfInt n)) = -(n * 2 ^ 149) := by rw [fInt_fneg, hint]
  have hpos := fSign_of_fInt_pos (x := dc) (by omega)
  have hunits : (fUnits dc : Int) = fInt dc := by rw [fInt, hpos]; rfl
  obtain ⟨q, hq⟩ := dvd_fUnits (x := dc) (by omega)
  have hzero : fInt zero32 = 0 := by decide
  have htop : fInt 0x3F7FFFFC#32 = 2 ^ 149 - 2 ^ 127 := by decide
  obtain ⟨hfin, hlo, hhi⟩ : fIsFinite (fsub k dc (f32OfInt n)) = true ∧
      fInt zero32 ≤ fInt (fsub k dc (f32OfInt n)) ∧ fInt (fsub k dc (f32OfInt n)) ≤ fInt 0x3F7FFFFC#32 :=
    sumWith_between hdc hnfin _ rfl rfl (by omega) (by omega)
  refine ⟨hfin, ?_, by omega⟩
  by_cases hz : fInt dc + fInt (fneg (f32OfInt n)) = 0
  · rw [fsub, (sumWith_eq_zero hdc hnfin _ hz).2, hpos, Bool.false_and]
  · rw [fsub, (sumWith_ne_zero hdc hnfin _ hz).2]
    exact decide_eq_false (by omega)

/-! ## The default weights of a fraction (41_delay_line.md R153) -/

/-- Weights that answer `+0` over silence: finite ones, the second not negative. -/
structure QuietKernel (h : Kernel) : Prop where
  h0 : fIsFinite h.h0 = true
  h1 : fIsFinite h.h1 = true
  h2 : fIsFinite h.h2 = true
  h3 : fIsFinite h.h3 = true
  sign : fSign h.h1 = false

theorem Fraction.fInt_eq {f : F32} (h : Fraction f) : fInt f = fUnits f := by
  rw [fInt, h.sign]
  rfl

theorem Fraction.absLe {f : F32} (h : Fraction f) : AbsLe 1 f := by
  have hint := h.fInt_eq
  have hlt := h.lt_one
  exact ⟨h.finite, by omega⟩

/-- The signs of the three factors that the weights are products of. -/
theorem Fraction.factor_signs {f : F32} (h : Fraction f) (k : Nat) : fSign (fadd k f one32) = false ∧
    fSign (fsub k f one32) = true ∧ fSign (fsub k f two32) = true := by
  have hint := h.fInt_eq
  have hlt := h.lt_one
  have hone : fInt one32 = 2 ^ 149 := by decide
  have hone' : fInt (fneg one32) = -2 ^ 149 := by decide
  have htwo' : fInt (fneg two32) = -2 ^ 150 := by decide
  refine ⟨?_, ?_, ?_⟩
  · exact (sumWith_ne_zero h.finite rfl _ (by omega)).2.trans (decide_eq_false (by omega))
  · exact (sumWith_ne_zero h.finite rfl _ (by omega)).2.trans (decide_eq_true (by omega))
  · exact (sumWith_ne_zero h.finite rfl _ (by omega)).2.trans (decide_eq_true (by omega))

/-- A weight is a product of three bounded factors over a divisor of at least 1: it is finite, and its sign is that
of the four. -/
theorem weight_spec {a b c : Nat} {x y z w : F32} (k : Nat) (hx : AbsLe a x) (hy : AbsLe b y) (hz : AbsLe c z)
    (hab : a * b ≤ 2 ^ 24) (habc : a * b * c ≤ 2 ^ 24) (hw : fIsFinite w = true) (hw1 : 2 ^ 149 ≤ fUnits w) :
    fIsFinite (fdiv k (fmul k (fmul k x y) z) w) = true ∧
      fSign (fdiv k (fmul k (fmul k x y) z) w) = (((fSign x != fSign y) != fSign z) != fSign w) := by
  have hxy := hx.fmul hy k hab
  have hxyz := hxy.fmul hz k habc
  refine ⟨(hxyz.fdiv k hw hw1 habc).finite, ?_⟩
  rw [fSign_fdiv hxyz.finite hw k (fMag_ne_zero hw1), fSign_fmul hxy.finite hz.finite,
    fSign_fmul hx.finite hy.finite]

theorem lagrange4_quiet {f : F32} (k : Nat) (hf : Fraction f) : QuietKernel (lagrange4 k f) := by
  have hone : AbsLe 1 one32 := ⟨rfl, by decide⟩
  have htwo : AbsLe 2 two32 := ⟨rfl, by decide⟩
  have hf1 := hf.absLe
  have hm1 := hf1.fsub hone k (by norm_num)
  have hm2 := hf1.fsub htwo k (by norm_num)
  have hp1 := hf1.fadd hone k (by norm_num)
  obtain ⟨hsp1, hsm1, hsm2⟩ := hf.factor_signs k
  have hw0 := weight_spec k hf1.fneg hm1 hm2 (w := six32) (by norm_num) (by norm_num) rfl (by decide)
  have hw1 := weight_spec k hp1 hm1 hm2 (w := two32) (by norm_num) (by norm_num) rfl (by decide)
  have hw2 := weight_spec k hp1.fneg hf1 hm2 (w := two32) (by norm_num) (by norm_num) rfl (by decide)
  have hw3 := weight_spec k hp1 hf1 hm1 (w := six32) (by norm_num) (by norm_num) rfl (by decide)
  refine ⟨hw0.1, hw1.1, hw2.1, hw3.1, hw1.2.trans ?_⟩
  rw [hsp1, hsm1, hsm2]
  rfl

/-- Over silence, weights of that kind answer `+0`. -/
theorem interpolate_silence {p : Params} {k : Nat} {dc : F32} {x : Int → F32}
    (hk : QuietKernel (kernel4 p k (fsub k dc (f32OfInt (fFloor dc)))))
    (hx : ∀ t, fFloor dc - 1 ≤ t → t ≤ fFloor dc + 2 → x t = zero32) : interpolate p k dc x = zero32 := by
  rw [interpolate_congr (y := fun _ => zero32) hx]
  simp only [interpolate]
  rw [fmul_posZero k hk.h0, fmul_posZero k hk.h1, fmul_posZero k hk.h2, fmul_posZero k hk.h3, hk.sign,
    fadd_zeros, fadd_zeros, fadd_zeros, Bool.and_false, Bool.false_and, Bool.false_and]
  rfl

/-- With the default kernel a read of a silent channel is `+0`, whatever the delay. -/
theorem popAt_silence {s : State} (h : BufferOk s) (hr : s.params.realisation = 0) {c : Nat}
    (hbuf : ∀ k, k < s.nat .len → s.buf c k = zero32) (d : F32) : popAt s c d = zero32 := by
  have hlen := h.len_eq
  have hle := h.len_le
  have hrange := dHiTot_ge (s := s) (by omega)
  have htop := fInt_dHiTot (s := s) (by omega)
  obtain ⟨-, hmax⟩ := clampDelay_floor (s := s) (by omega) d
  obtain ⟨-, hlo, hhi⟩ := fclamp_spec d hrange
  have hbound : fIsFinite (dHiTot s) = true := decide_eq_true
    (f32OfInt_spec (show max 2 (s.nat .dmaxl + s.nat .lfomaxl) ≤ 2 ^ 24 by omega)).2.1
  have hfin : fIsFinite (clampDelay s d) = true := fIsFinite_of_between (lo := two32) rfl hbound hlo hhi
  have hfrac := fraction_of_delay s.draw hfin (fInt_two32 ▸ hlo) (by omega)
  refine interpolate_silence ?_ fun τ _ _ => hbuf _ (modInt_lt _ h.len_pos)
  rw [kernel4, if_pos hr]
  exact lagrange4_quiet s.draw hfrac

/-! ## After `PREPARE` (41_delay_line.md R156) -/

theorem LatchedOk.bufferOk {s : State} (h : LatchedOk s) (hw : s.params.wellFormed = true) : BufferOk s :=
  ⟨h.dmaxl_pos, h.len_eq, h.len_le.trans (Params.bounds hw).2.2.2, h.cursor_lt⟩

/-- The sizes that a valid `PREPARE` latches are there when it has completed. -/
theorem runPrepare_complete_latchedOk {s : State} (hw : s.params.wellFormed = true) (hv : PrepareValid s) :
    LatchedOk (runPrepare s).complete := by
  obtain ⟨hparams, -, -, hzero, -⟩ := latch_rest s
  obtain ⟨-, hwcur, -⟩ := latchedState_rest s
  have hout : ∀ r ∈ latchedRegs, r ∉ coefWritten ++ [.cmdcnt, .order, .n] := by decide
  refine (latchAndClear_latchedOk hw hv).congr ?_ ?_ fun r hr => runPrepare_complete_latched hw hv rfl (hout r hr)
  · exact (runPrepare_keepsBut hw hv).params.trans hparams.symm
  · exact ((runPrepare_orderSet hw hv).wcur.trans hwcur).trans hzero.symm

/-- `DL.POP` of a silent channel at the delay just written answers `+0`. -/
theorem dlPop_silence {t : State} (h : LatchedOk t) (hw : t.params.wellFormed = true)
    (hr : t.params.realisation = 0) (hp : t.status.prepared = true) {ch : Nat} (hc : ch < t.nat .nchl)
    (hbuf : ∀ k, k < t.nat .len → t.buf ch k = zero32) (d : F32) :
    ∃ u, exec (.dlPop ch) (t.setReg .dly d) = .next u ∧ u.reg .dout = zero32 := by
  have hnat : ∀ r, r ≠ .dly → (t.setReg .dly d).nat r = t.nat r := fun r hr => State.nat_setReg_ne t hr d
  have hlatched : LatchedOk (t.setReg .dly d) := h.congr rfl rfl fun r hr =>
    State.reg_setReg_ne t (by rintro rfl; exact absurd hr (by decide)) d
  refine ⟨_, exec_dlPop (s := t.setReg .dly d) hp (by rwa [hnat _ (by decide)]), ?_⟩
  rw [dlPop_dout]
  exact popAt_silence (hlatched.bufferOk hw) hr (fun k hk => hbuf k (by rwa [hnat _ (by decide)] at hk)) _

/-- Settles O27: a valid `PREPARE` leaves a sound buffer of zeros, and a read over zeros is `+0`. -/
theorem emptyBufferReadsZero : Obligations.EmptyBufferReadsZero := by
  intro s ch d hw hr hv hc
  have hexec := exec_prepare_of_valid hv
  have hlatched := runPrepare_complete_latchedOk hw hv
  have hparams : (runPrepare s).complete.params = s.params := (runPrepare_keepsBut hw hv).params
  obtain ⟨t, ht, hprep, -, -, -, hnchl, -⟩ := prepareLatches s hw hv
  obtain ⟨t', ht', hbuf, -⟩ := prepareClears s hw hv
  obtain rfl : t = t' := by simpa using ht.symm.trans ht'
  obtain rfl : (runPrepare s).complete = t := by simpa using hexec.symm.trans ht
  have hchannel : ch < (runPrepare s).complete.nat .nchl := by
    rw [State.nat, hnchl]
    exact hc
  obtain ⟨u, hu, hdout⟩ := dlPop_silence hlatched (hparams ▸ hw) (hparams ▸ hr) hprep hchannel
    (fun k => hbuf ch k hchannel) d
  exact ⟨_, u, hexec, hu, hdout⟩

end Sys2Proof.Machine
end

section
/-! The matrix `RotMat` entry by entry (42_rotation.md R187): zero between degrees, the exact identity at zero angles,
and no entry above 1 in magnitude. -/

namespace Sys2Proof.Machine

/-! ## Degrees (42_rotation.md R181) -/

theorem acnDegree_eq (c : Nat) : acnDegree c = Nat.sqrt c := iSqrt_eq c

/-- Degree 0 has channel 0 alone. -/
theorem eq_zero_of_acnDegree {c : Nat} (h : acnDegree c = 0) : c = 0 := by
  rwa [acnDegree_eq, Nat.sqrt_eq_zero] at h

/-! ## Magnitudes -/

/-- `Clamp` to a range symmetric about zero bounds the magnitude, whatever it is given. -/
theorem fMag_fclamp_fneg_le {hi : F32} (x : F32) (h : fge hi (fneg hi) = true) :
    fMag (fclamp x (fneg hi) hi) ≤ fMag hi := by
  obtain ⟨-, hlo, hhi⟩ := fclamp_spec x h
  rw [fInt_fneg] at hlo
  have hunits : fUnits (fclamp x (fneg hi) hi) ≤ fUnits hi := by
    rw [← natAbs_fInt, ← natAbs_fInt hi]
    omega
  exact magUnits_le_iff.1 hunits

/-- A pattern at most 1 in magnitude is a finite number. -/
theorem fIsFinite_of_fMag_le_one {x : F32} (h : fMag x ≤ fMag one32) : fIsFinite x = true :=
  decide_eq_true (h.trans_lt (by decide))

/-! ## Entries (42_rotation.md R187) -/

/-- The entry of a rotation matrix, from the degree blocks of R184 and R185. -/
theorem entryOf_rotMat (p : Params) (yd pd rd : F32) {o i j : Nat} (hi : i < (o + 1) * (o + 1))
    (hj : j < (o + 1) * (o + 1)) : entryOf (rotMat p yd pd rd o) i j =
      rotEntry p ((List.range (o + 1)).map (rotBlock (degreeOne yd pd rd))) yd pd rd o i j := by
  simp [entryOf, rotMat, List.getD, hi, hj]

section
variable (p : Params) (blocks : List Block) (yd pd rd : F32) (o : Nat) {i j : Nat}

theorem rotEntry_of_degree_ne (h : acnDegree i ≠ acnDegree j) :
    rotEntry p blocks yd pd rd o i j = zero32 := if_pos h

theorem rotEntry_zero_zero : rotEntry p blocks yd pd rd o 0 0 = one32 := rfl

/-- At zero angles every entry is that of the identity, in degree 0 and between degrees as within a block. -/
theorem rotEntry_of_zero_angles {yd pd rd : F32} (hy : fMag yd = 0) (hp : fMag pd = 0) (hr : fMag rd = 0) :
    rotEntry p blocks yd pd rd o i j = if i = j then one32 else zero32 := by
  by_cases hne : acnDegree i ≠ acnDegree j
  · have hij : i ≠ j := fun h => hne (congrArg acnDegree h)
    rw [rotEntry_of_degree_ne p blocks yd pd rd o hne, if_neg hij]
  · have heq : acnDegree i = acnDegree j := not_not.1 hne
    by_cases hi : acnDegree i = 0
    · obtain rfl := eq_zero_of_acnDegree hi
      obtain rfl := eq_zero_of_acnDegree (heq.symm.trans hi)
      rw [rotEntry_zero_zero, if_pos rfl]
    · rw [rotEntry, if_neg hne, if_neg hi, if_pos ⟨hy, hp, hr⟩]

/-- An implementation's entry is taken only within 1, and the default is clamped to it. -/
theorem fMag_rotOr_le (x : Int) (y : F32) : fMag (rotOr p x y) ≤ fMag one32 := by
  unfold rotOr
  split
  · rename_i h
    exact h.2.2
  · exact fMag_fclamp_fneg_le _ (by decide)

theorem fMag_rotEntry_le (i j : Nat) : fMag (rotEntry p blocks yd pd rd o i j) ≤ fMag one32 := by
  have hzero : fMag zero32 ≤ fMag one32 := by decide
  unfold rotEntry
  split
  · exact hzero
  split
  · exact le_rfl
  split
  · split
    · exact le_rfl
    · exact hzero
  · exact fMag_rotOr_le p _ _

end

/-! ## The statements -/

/-- Settles O33. -/
theorem rotationIsIdentityAtZero : Obligations.RotationIsIdentityAtZero := by
  intro p yd pd rd o i j hy hp hr hi hj
  rw [entryOf_rotMat p yd pd rd hi hj]
  exact rotEntry_of_zero_angles p _ o hy hp hr

/-- Settles O34: every entry is one of the cases of R187, and none of them exceeds 1. -/
theorem rotationIsBlockDiagonal : Obligations.RotationIsBlockDiagonal := by
  intro p yd pd rd o i j hi hj
  rw [entryOf_rotMat p yd pd rd hi hj]
  have hmag := fMag_rotEntry_le p ((List.range (o + 1)).map (rotBlock (degreeOne yd pd rd))) yd pd rd o i j
  refine ⟨fun hne => ?_, ?_, fIsFinite_of_fMag_le_one hmag, hmag⟩
  · rw [← acnDegree_eq, ← acnDegree_eq] at hne
    exact rotEntry_of_degree_ne p _ yd pd rd o hne
  · rintro rfl rfl
    exact rotEntry_zero_zero p _ yd pd rd o

end Sys2Proof.Machine
end

section
/-! The rotation-matrix commands (42_rotation.md): what `RM.BUILD`, `RM.APPLY` and `RM.COMMIT` write and leave alone,
and that `RM.APPLY` in Rotate mode builds a missing matrix as `RM.BUILD` does. -/

namespace Sys2Proof.Machine

/-! ## `RM.COMMIT` (42_rotation.md R193) -/

/-- Settles O37. -/
theorem commitMarksMatrix : Obligations.CommitMarksMatrix := by
  intro s hp
  have hk : KeepsBut [] nowhere nowhere s (s.setMatOk true) := (KeepsBut.refl _ _ _ s).setMatOk true
  exact ⟨_, runPrepared_of_prepared hp _ (work .rmCommit), rfl, complete_cmdcnt_of_keepsBut hk (by decide),
    hk.complete⟩

/-! ## `RM.BUILD` (42_rotation.md R182, R189) -/

theorem exec_rmBuild {s : State} (hp : s.status.prepared = true) :
    exec .rmBuild s = .next (buildRotation s).complete :=
  runPrepared_of_prepared hp _ _

theorem buildRotation_reg (s : State) (r : Reg) : (buildRotation s).reg r = s.reg r :=
  State.reg_of_skeleton (storeMatrix_skeleton _ _ s) r

/-- The matrix that a build stores, from a state with the invariant. -/
theorem StateInv.rotationStored {s : State} (h : StateInv s) (hp : s.status.prepared = true) :
    MatrixStored (rotationAt s (s.nat .order)) (s.nat .n) s (storeMatrix (rotation s) (s.nat .n) s) := by
  obtain ⟨-, hn, hnchl, -⟩ := h.block_le hp
  exact storeMatrix_stored _ (hn.trans hnchl) s

/-- Settles O32: the square of the stored matrix, which the flag and the completion do not touch. -/
theorem buildStoresRotation : Obligations.BuildStoresRotation := by
  intro s h hp
  have hm := h.rotationStored hp
  have hk : KeepsBut [] nowhere (matWords (s.nat .n)) s (buildRotation s) :=
    (KeepsBut.of_unit hm.skeleton hm.touches fun c _ => cur_of_wcur hm.wcur c).setMatOk true
  have hstatus : (buildRotation s).status = { s.status with matOk := true } :=
    congrArg (fun st : Status => { st with matOk := true }) (State.status_of_skeleton hm.skeleton)
  exact ⟨_, exec_rmBuild hp, hm.mat, hstatus, complete_cmdcnt_of_keepsBut hk (by decide), hk.complete⟩

/-! ## `RM.APPLY` (42_rotation.md R190) -/

/-- `RM.APPLY` passes its checks unless the matrix is missing in Warp mode (30_encoding.md R112 step 4). -/
theorem exec_rmApply {s : State} (hp : s.status.prepared = true)
    (h : ¬ (s.ctrl.xmode = .warp ∧ s.status.matOk = false)) :
    exec .rmApply s = .next (runApply s).complete :=
  (if_neg fun hc => h hc.2).trans (runPrepared_of_prepared hp _ _)

/-- A ready matrix is applied as it stands, in either mode. -/
theorem exec_rmApply_of_matOk {s : State} (hp : s.status.prepared = true) (hm : s.status.matOk = true) :
    exec .rmApply s = .next (applyMatrix s).complete := by
  have happly : runApply s = applyMatrix s := if_neg (by simp [hm])
  rw [exec_rmApply hp (by simp [hm]), happly]

/-- In Rotate mode a matrix that is not ready is built first. -/
theorem exec_rmApply_of_rebuild {s : State} (hp : s.status.prepared = true) (hx : s.ctrl.xmode = .rotate)
    (hm : s.status.matOk = false) : exec .rmApply s = .next (applyMatrix (buildRotation s)).complete := by
  have happly : runApply s = applyMatrix (buildRotation s) := if_pos ⟨hx, hm⟩
  rw [exec_rmApply hp (by simp [hx]), happly]

/-- Settles O35: the block of `applyMatrix_run`, which completion does not touch. -/
theorem applyMultipliesBlock : Obligations.ApplyMultipliesBlock := by
  intro s h hp hm
  obtain ⟨hpos, hn, hnchl, hnsamp⟩ := h.block_le hp
  have hrun := applyMatrix_run hpos (hn.trans hnchl) hnsamp
  have hk : KeepsBut [] nowhere (cbWords (· < s.nat .n) (s.nat .nsamp)) s (applyMatrix s) :=
    .of_unit hrun.skeleton hrun.touches fun c _ => cur_of_wcur hrun.wcur c
  have hstatus : (applyMatrix s).status = s.status := State.status_of_skeleton hrun.skeleton
  exact ⟨_, exec_rmApply_of_matOk hp hm, hrun.cb, hstatus, complete_cmdcnt_of_keepsBut hk (by decide),
    hk.complete⟩

/-- Applying the matrix does not see the command counter. -/
theorem applyMatrix_complete (s : State) : applyMatrix s.complete = (applyMatrix s).complete := by
  rw [State.complete, (blind_count _).apply, State.complete, State.reg_of_skeleton (applyMatrix_skeleton s)]

/-- Settles O36: `RM.BUILD` leaves a ready matrix, so the `RM.APPLY` after it applies it to the state that the
rebuilding `RM.APPLY` applies it to, but for the count. -/
theorem applyRebuildsInRotate : Obligations.ApplyRebuildsInRotate := by
  intro s hp hx hm
  have hprep : (buildRotation s).complete.status.prepared = true := (buildRotation_prepared s).trans hp
  have happly := exec_rmApply_of_matOk hprep (State.setMatOk_matOk _ true)
  have hcount : (applyMatrix (buildRotation s)).complete.reg .cmdcnt = s.reg .cmdcnt + 1#32 := by
    rw [State.complete, State.reg_setReg_same, State.reg_of_skeleton (applyMatrix_skeleton _), buildRotation_reg]
  exact ⟨_, _, _, exec_rmBuild hp, happly, exec_rmApply_of_rebuild hp hx hm, hcount,
    congrArg State.complete (applyMatrix_complete _)⟩

end Sys2Proof.Machine
end

section
/-! The filter-bank commands (43_filter_bank.md): what `FB.SETCUT`, `FB.RUN` and `FB.RUNALL` write and leave alone, and
that `FB.RUNALL` is an `FB.RUN` of each working channel. -/

namespace Sys2Proof.Machine

/-! ## `FB.SETCUT` (43_filter_bank.md R211, R212) -/

theorem exec_fbSetcut {s : State} (hp : s.status.prepared = true) :
    exec .fbSetcut s = .next (computeCoefficients s).complete :=
  runPrepared_of_prepared hp _ _

/-- Settles O38: the sets of `computeCoefficients_fit`, which completion does not touch; `FS` is not written. -/
theorem setcutStoresCoefficients : Obligations.SetcutStoresCoefficients := by
  intro s hp
  have hk : KeepsBut (coefWritten ++ []) nowhere nowhere s (computeCoefficients s) :=
    (KeepsBut.refl [] nowhere nowhere s).computeCoefficients
  have hcoef : ∀ r ∈ Reg.fs :: coefWritten, r ≠ .cmdcnt := by decide
  have hfit : CoefsFit s (computeCoefficients s).complete :=
    (computeCoefficients_fit s).congr rfl rfl rfl rfl fun r hr => State.reg_complete_ne (hcoef r hr)
  have hfs : (computeCoefficients s).complete.reg .fs = s.reg .fs := hk.complete.reg .fs (by decide)
  have hstatus : (computeCoefficients s).complete.status = s.status := by
    rw [State.complete_status, computeCoefficients_status]
  have hcount := complete_cmdcnt_of_keepsBut hk (by decide)
  obtain ⟨hhphzc, hlphzc, hhp, hlp⟩ := hfit
  rw [hfs] at hhphzc hlphzc hhp hlp
  exact ⟨_, exec_fbSetcut hp, hhphzc, hlphzc, hhp, hlp, hstatus, hcount,
    hk.complete.mono (by decide) (fun _ => id) fun _ => id⟩

/-! ## `FB.RUN` (43_filter_bank.md R215 to R217) -/

theorem exec_fbRun {s : State} (hp : s.status.prepared = true) {ch : Nat} (hc : ch < s.nat .nchl) :
    exec (.fbRun ch) s = .next (filterChannel ch s).complete :=
  runChannel_of_inside hp hc _ _

/-- A sample that a filter run has reached holds its output. -/
theorem FilterRun.cb_out {s t : State} {c m : Nat} (h : FilterRun s c m t) (hm : m ≤ 0x4000) {n : Nat} (hn : n < m) :
    t.cb c n = filterOutAt s c n := by
  rw [h.cb n (hn.trans_le hm), if_pos hn]

/-- Settles O40: the recurrence of `filterAt` is that of the statement, and the run of `filterChannel_filtered`
follows it. -/
theorem filterRunsRecurrence : Obligations.FilterRunsRecurrence := by
  intro s ch h hp hc
  obtain ⟨-, -, hnchl, hnsamp⟩ := h.block_le hp
  have hf : ChannelFiltered s ch (filterChannel ch s) := filterChannel_filtered (hc.trans_le hnchl) hnsamp
  have hk := KeepsBut.of_unit (cs := nowhere) hf.skeleton (hf.touches (C := (· = ch)) rfl)
    fun c _ => cur_of_wcur hf.wcur c
  have hstatus : (filterChannel ch s).status = s.status := State.status_of_skeleton hf.skeleton
  refine ⟨_, exec_fbRun hp hc, rfl, ?recurrence, fun n => hf.run.cb_out hnsamp, hf.run.words,
    hstatus, complete_cmdcnt_of_keepsBut hk (by decide), hk.complete⟩
  case recurrence =>
    rintro n x y z f - rfl rfl rfl rfl
    exact ⟨rfl, rfl⟩

/-! ## `FB.RUNALL` (43_filter_bank.md R219) -/

theorem exec_fbRunall {s : State} (hp : s.status.prepared = true) :
    exec .fbRunall s = .next (filterAll s).complete :=
  runPrepared_of_prepared hp _ _

/-- Settles O41: the runs of `filterChannels_filtered`, which completion does not touch. -/
theorem runallFiltersWorkingChannels : Obligations.RunallFiltersWorkingChannels := by
  intro s h hp
  obtain ⟨-, hn, hnchl, hnsamp⟩ := h.block_le hp
  have hf : AllFiltered s (s.nat .n) (filterAll s) := filterChannels_filtered (hn.trans hnchl) hnsamp
  have hk := KeepsBut.of_unit (cs := nowhere) hf.skeleton hf.touches fun c _ => cur_of_wcur hf.wcur c
  have hstatus : (filterAll s).status = s.status := State.status_of_skeleton hf.skeleton
  exact ⟨_, exec_fbRunall hp, fun c n hc => (hf.run c hc).cb_out hnsamp, fun c hc => (hf.run c hc).words,
    hstatus, complete_cmdcnt_of_keepsBut hk (by decide), hk.complete⟩

/-! ## `FB.RUNALL` as single runs (43_filter_bank.md R219) -/

/-- Writing back what a register holds changes nothing. -/
theorem setReg_reg_self (s : State) (r : Reg) : s.setReg r (s.reg r) = s := by
  unfold State.setReg State.reg
  simp

/-- A single run does not see the command counter, and counts itself on top of it. -/
theorem exec_fbRun_counted {s : State} (hp : s.status.prepared = true) {ch : Nat} (hc : ch < s.nat .nchl) (v : Word) :
    exec (.fbRun ch) (s.setReg .cmdcnt v) = .next ((filterChannel ch s).setReg .cmdcnt (v + 1#32)) := by
  have hnchl : (s.setReg .cmdcnt v).nat .nchl = s.nat .nchl := State.nat_setReg_ne s (by decide) v
  rw [exec_fbRun (s := s.setReg .cmdcnt v) hp (hnchl ▸ hc), (blind_count v).filter, State.complete,
    State.reg_setReg_same, setReg_setReg]

/-- The first `m` single runs leave what `m` passes of the loop of `FB.RUNALL` leave, and a count of `m` commands. -/
theorem filterEach_eq {s : State} (hp : s.status.prepared = true) (m : Nat) (hm : m ≤ s.nat .nchl) :
    filterEach m s =
      .next ((forUpTo m filterChannel s).setReg .cmdcnt (s.reg .cmdcnt + BitVec.ofNat 32 m)) := by
  induction m with
  | zero =>
    rw [forUpTo_zero, BitVec.add_zero, setReg_reg_self]
    rfl
  | succ m ih =>
    have hsk : (forUpTo m filterChannel s).skeleton = s.skeleton :=
      forUpTo_frame State.skeleton fun c t _ => filterChannel_skeleton c t
    have hprep : (forUpTo m filterChannel s).status.prepared = true := by rwa [State.status_of_skeleton hsk]
    have hnchl : (forUpTo m filterChannel s).nat .nchl = s.nat .nchl := State.nat_of_skeleton hsk _
    rw [filterEach, ih (Nat.le_of_succ_le hm)]
    refine (exec_fbRun_counted hprep (hnchl ▸ hm) _).trans ?_
    rw [forUpTo_succ, BitVec.ofNat_add, ← BitVec.add_assoc]

/-- Settles O42: after `N` single runs the state is that of the loop, as after `FB.RUNALL`, but for the count. -/
theorem runallIsEveryFilterRun : Obligations.RunallIsEveryFilterRun := by
  intro s h hp
  obtain ⟨-, hn, -, -⟩ := h.block_le hp
  have hcount : (filterAll s).complete.reg .cmdcnt = s.reg .cmdcnt + 1#32 := by
    rw [State.complete, State.reg_setReg_same, State.reg_of_skeleton (filterAll_skeleton s)]
  have hn32 : BitVec.ofNat 32 (s.nat .n) = s.reg .n := (BitVec.ofNat_toNat 32 (s.reg .n)).trans (BitVec.setWidth_eq _)
  refine ⟨_, _, exec_fbRunall hp, filterEach_eq hp _ hn, ?_, hcount⟩
  rw [hn32, State.complete, setReg_setReg]
  rfl

end Sys2Proof.Machine
end

section
/-! The exceptions (60_exceptions.md): which command words and which commands fault, with what cause, and what a fault
entry does to the interrupt line. -/

namespace Sys2Proof.Machine

/-! ## `IllegalCommand` (60_exceptions.md R234) -/

/-- A word that decodes to no command raises `IllegalCommand` (30_encoding.md R112 step 1). -/
theorem execute_of_no_command {w : Word} (h : ∀ i, decode w ≠ .ok i) (s : State) :
    execute w s = .next (s.raise .illegalCommand w) := by
  unfold execute
  cases hdec : decode w with
  | ok i => exact absurd hdec (h i)
  | error e => rfl

/-- Settles O6: such a word decodes to no command, so the write to `CMD` ends in a fault entry. -/
theorem illegalWordIsRecorded : Obligations.IllegalWordIsRecorded := by
  intro s w rest hpend hrows
  have hnone : ∀ i, decode w ≠ .ok i := Laws.CommandWord.decodeFollowsOpcodeTable.2 w hrows
  have hprep : ((s.taken rest).setReg .cmd w).status.prepared = s.status.prepared := rfl
  refine ⟨_, ?_, faultEntry_of_prepared hprep .illegalCommand w⟩
  rw [step_of_pending hpend, transact_commandWrite, execute_of_no_command hnone]
  rfl

/-! ## `NotPrepared` (60_exceptions.md R235) -/

/-- Settles O7. -/
theorem unpreparedCommandFaults : Obligations.UnpreparedCommandFaults := fun _ _ hi hp =>
  ⟨_, exec_of_unprepared hi hp, faultEntry_of_prepared hp .notPrepared _⟩

/-! ## `ChannelOutOfRange` (60_exceptions.md R239) -/

/-- The commands that name a channel check it against the prepared count before they run. -/
theorem exec_of_channel_outside {s : State} {ch : Nat} {i : Instr}
    (hi : i = .dlPush ch ∨ i = .dlPop ch ∨ i = .fbRun ch)
    (hp : s.status.prepared = true) (hc : s.nat .nchl ≤ ch) :
    exec i s = .next (s.raise .channelOutOfRange (encode i)) := by
  rcases hi with rfl | rfl | rfl
  · exact runChannel_of_outside hp hc _ _
  · exact runChannel_of_outside hp hc _ (work (.dlPop ch))
  · exact runChannel_of_outside hp hc _ _

/-- Settles O8. -/
theorem channelOutsideFaults : Obligations.ChannelOutsideFaults := fun _ _ _ hi hp hc =>
  ⟨_, exec_of_channel_outside hi hp hc, faultEntry_of_prepared hp .channelOutOfRange _⟩

/-! ## `MatrixNotReady` (60_exceptions.md R241) -/

theorem exec_rmApply_of_no_matrix {s : State} (hp : s.status.prepared = true) (hx : s.ctrl.xmode = .warp)
    (hm : s.status.matOk = false) : exec .rmApply s = .next (s.raise .matrixNotReady (encode .rmApply)) :=
  if_pos ⟨hp, hx, hm⟩

theorem buildRotation_status (s : State) : (buildRotation s).status = { s.status with matOk := true } :=
  congrArg (fun st : Status => { st with matOk := true }) (State.status_of_skeleton (storeMatrix_skeleton _ _ s))

/-- Applying a matrix writes `CB` alone, so the matrix stays. -/
theorem MatrixRun.mat {s t : State} {m : Nat} (h : MatrixRun s m t) {i j : Nat} (hi : i < 64) (hj : j < 64) :
    t.mat i j = s.mat i j := by
  refine h.touches.readWord ?_
  rintro ⟨c, n, -, -, he⟩
  exact (matAddr_lt_cbAddr hi hj).ne he

/-- After a rebuild and its application the matrix is the transposed rotation of the angles. -/
theorem StateInv.rebuilt_mat {s : State} (h : StateInv s) (hp : s.status.prepared = true) {i j : Nat}
    (hi : i < s.nat .n) (hj : j < s.nat .n) :
    (applyMatrix (buildRotation s)).mat i j = entryOf (rotationAt s (s.nat .order)) j i := by
  obtain ⟨hpos, hn, hnchl, hnsamp⟩ := h.block_le hp
  have hnat : ∀ r, (buildRotation s).nat r = s.nat r := fun r => congrArg BitVec.toNat (buildRotation_reg s r)
  have hrun := applyMatrix_run (s := buildRotation s) (by rwa [hnat]) (by rw [hnat]; exact hn.trans hnchl)
    (by rwa [hnat])
  have hbuilt : (buildRotation s).mat i j = entryOf (rotationAt s (s.nat .order)) j i :=
    (h.rotationStored hp).mat i j hi hj
  rw [hrun.mat (by omega) (by omega), hbuilt]

/-- Settles O9: Warp mode stops at the check of the matrix; Rotate mode rebuilds, and neither the rebuild nor the
application touches the record. -/
theorem warpWithoutMatrixFaults : Obligations.WarpWithoutMatrixFaults := by
  intro s hp hm
  have hreg : ∀ r, (applyMatrix (buildRotation s)).reg r = s.reg r := fun r =>
    (State.reg_of_skeleton (applyMatrix_skeleton _) r).trans (buildRotation_reg s r)
  constructor
  · intro hx
    exact ⟨_, exec_rmApply_of_no_matrix hp hx hm, faultEntry_of_prepared hp .matrixNotReady _⟩
  · intro hx
    refine ⟨_, exec_rmApply_of_rebuild hp hx hm, ?status, ?errinfo, ?cmdcnt, fun h i j => h.rebuilt_mat hp⟩
    case status =>
      rw [State.complete_status, State.status_of_skeleton (applyMatrix_skeleton _), buildRotation_status]
    case errinfo => rw [State.reg_complete_ne (by decide), hreg]
    case cmdcnt => rw [State.complete, State.reg_setReg_same, hreg]

/-! ## The interrupt line (60_exceptions.md R238) -/

/-- Settles O55: a fault entry always leaves `ERR` set, and keeps the enable. -/
theorem irqMirrorsError : Obligations.IrqMirrorsError := by
  have hirq : ∀ s : State, s.irq = true ↔ s.status.err = true ∧ s.ctrl.ie = true := fun s => Bool.and_eq_true_iff
  refine ⟨hirq, fun s k w hie => (hirq _).2 ⟨State.raise_err s k w, ?enabled⟩⟩
  rwa [State.raise_ctrl]

end Sys2Proof.Machine
end

section
/-! The error record gates nothing (60_exceptions.md R240): no check and no work of a command reads it, and the work of
`CLRERR` alone writes it. -/

namespace Sys2Proof.Machine

/-! ## The record as one value -/

/-- The error record: `STATUS.ERR`, `STATUS.ERRCODE`, `ERRINFO` (60_exceptions.md R237). -/
structure ErrorRecord where
  err : Bool
  code : BitVec 4
  info : Word

/-- The record of a state. -/
def State.errorRecord (s : State) : ErrorRecord := ⟨s.status.err, s.status.errCode, s.reg .errinfo⟩

/-- The state with another record. -/
def State.withRecord (r : ErrorRecord) (s : State) : State :=
  { s with status := { s.status with err := r.err, errCode := r.code } }.setReg .errinfo r.info

/-- The record while no error is pending. -/
def noRecord : ErrorRecord := ⟨false, 0#4, 0#32⟩

theorem State.acknowledge_eq_withRecord (s : State) : s.acknowledge = s.withRecord noRecord := rfl

@[simp] theorem State.errorRecord_withRecord (s : State) (r : ErrorRecord) : (s.withRecord r).errorRecord = r := by
  unfold State.errorRecord
  rw [State.withRecord, State.reg_setReg_same]
  rfl

theorem State.withRecord_errorRecord (s : State) : s.withRecord s.errorRecord = s := setReg_reg_self s .errinfo

theorem State.withRecord_withRecord (s : State) (r r' : ErrorRecord) :
    (s.withRecord r).withRecord r' = s.withRecord r' :=
  setReg_setReg { s with status := { s.status with err := r'.err, errCode := r'.code } } .errinfo r.info r'.info

/-- Clearing the record forgets whatever it was. -/
theorem State.acknowledge_withRecord (s : State) (r : ErrorRecord) : (s.withRecord r).acknowledge = s.acknowledge :=
  s.withRecord_withRecord r noRecord

/-- A fault entry is one change of the record, or none. -/
theorem State.raise_eq_withRecord (s : State) (k : Cause) (w : Word) :
    ∃ r, s.raise k w = s.withRecord r := by
  cases h : s.status.err
  · exact ⟨⟨true, k.code, w⟩, State.raise_of_noErr s k w h⟩
  · exact ⟨s.errorRecord, (State.raise_of_err s k w h).trans s.withRecord_errorRecord.symm⟩

/-- A fault entry is undone by clearing the record. -/
theorem State.acknowledge_raise (s : State) (k : Cause) (w : Word) : (s.raise k w).acknowledge = s.acknowledge := by
  obtain ⟨r, hr⟩ := s.raise_eq_withRecord k w
  rw [hr, State.acknowledge_withRecord]

/-- No datapath unit sees the record. -/
theorem blind_withRecord (r : ErrorRecord) : Blind (State.withRecord r) where
  store _ _ _ := rfl
  setCursor _ _ _ := rfl
  setReg _ _ _ h _ := setReg_comm _ h.symm _ _
  reg _ _ h _ := State.reg_setReg_ne _ h _
  mem _ := rfl
  wcur _ := rfl
  params _ := rfl
  draw _ := rfl
  ctrl _ := rfl
  setMatOk _ _ := rfl
  prepared _ := rfl
  matOk _ := rfl

theorem State.complete_withRecord (s : State) (r : ErrorRecord) :
    (s.withRecord r).complete = s.complete.withRecord r := by
  have hcount : (s.withRecord r).reg .cmdcnt = s.reg .cmdcnt := State.reg_setReg_ne _ (by decide) _
  rw [State.complete, hcount]
  exact setReg_comm _ (by decide) _ _

/-! ## The work of a command and the record -/

section
variable {T : State → State} (b : Blind T) (s : State)
include b

theorem Blind.sampleRate : (T s).sampleRate = s.sampleRate := by
  unfold State.sampleRate
  rw [b.reg s .srHi (by decide) (by decide), b.reg s .srLo (by decide) (by decide)]

theorem Blind.latchSizes : latchSizes (T s) = T (latchSizes s) := by
  unfold Machine.latchSizes
  rw [b.draw, b.sampleRate]
  simp (disch := decide) only [b.reg, b.int, b.setReg]

theorem Blind.prepareArgsValid : prepareArgsValid (T s) = prepareArgsValid s := by
  unfold Machine.prepareArgsValid
  rw [b.draw, b.sampleRate, b.params]
  simp (disch := decide) only [b.int]

theorem Blind.channelOutside (ch : Nat) : (T s).channelOutside ch = s.channelOutside ch := by
  unfold State.channelOutside
  rw [b.nat s (by decide) (by decide)]

end

theorem latchAndClear_withRecord (s : State) (r : ErrorRecord) :
    latchAndClear (s.withRecord r) = (latchAndClear s).withRecord r := by
  have b := blind_withRecord r
  have hclear : ∀ t : State, clearSignal (t.withRecord r) = (clearSignal t).withRecord r := fun _ => rfl
  unfold latchAndClear
  rw [b.latchSizes, hclear]
  simp (disch := decide) only [b.f32, b.int, b.setReg]

theorem runPrepare_withRecord (s : State) (r : ErrorRecord) :
    runPrepare (s.withRecord r) = (runPrepare s).withRecord r := by
  have b := blind_withRecord r
  have hprep : ∀ t : State, (t.withRecord r).setPrepared true = (t.setPrepared true).withRecord r := fun _ => rfl
  unfold runPrepare
  rw [latchAndClear_withRecord, hprep, b.coefs, b.resolve]

/-- The work of every command but `CLRERR` neither reads nor writes the record. -/
theorem work_withRecord {i : Instr} (h : i ≠ .clrerr) (s : State) (r : ErrorRecord) :
    work i (s.withRecord r) = (work i s).withRecord r := by
  have b := blind_withRecord r
  cases i with
  | nop => rfl
  | prepare => exact runPrepare_withRecord s r
  | setorder => exact b.resolve s false
  | clrerr => exact absurd rfl h
  | dlPush ch =>
    show push ch ((s.withRecord r).f32 .din) (s.withRecord r) = _
    rw [b.f32 s (by decide) (by decide), b.push]
    rfl
  | dlPop ch =>
    show (s.withRecord r).setReg .dout (popAt (s.withRecord r) ch ((s.withRecord r).f32 .dly)) = _
    rw [b.f32 s (by decide) (by decide), b.popAt, b.setReg _ _ _ (by decide) (by decide)]
    rfl
  | dlRun => exact b.runDelay s
  | rmBuild => exact b.build s
  | rmApply => exact b.runApply s
  | rmCommit => rfl
  | fbSetcut => exact b.coefs s
  | fbRun ch => exact b.filter s ch
  | fbRunall => exact b.filterAll s

/-- Clearing the record before the work or after it is the same, for `CLRERR` too. -/
theorem work_acknowledge (i : Instr) (s : State) : work i s.acknowledge = (work i s).acknowledge := by
  by_cases h : i = .clrerr
  · subst h
    rfl
  · exact work_withRecord h s noRecord

/-- What commutes with every change of the record leaves the record that is there. -/
theorem work_errorRecord {i : Instr} (h : i ≠ .clrerr) (s : State) : (work i s).errorRecord = s.errorRecord := by
  have hw := work_withRecord h s s.errorRecord
  rw [State.withRecord_errorRecord] at hw
  rw [hw, State.errorRecord_withRecord]

/-! ## Two runs, with the record and without it -/

/-- Two answers with next states that differ in the record alone. -/
def SameButRecord (a c : Result) : Prop :=
  ∃ t u, a = .next t ∧ c = .next u ∧ t.acknowledge = u.acknowledge

theorem sameButRecord_raise (s : State) (k : Cause) (w : Word) :
    SameButRecord (.next (s.raise k w)) (.next (s.acknowledge.raise k w)) :=
  ⟨_, _, rfl, rfl, by
    rw [State.acknowledge_raise, State.acknowledge_raise]
    exact (s.acknowledge_withRecord noRecord).symm⟩

theorem sameButRecord_complete (i : Instr) (s : State) :
    SameButRecord (.next (work i s).complete) (.next (work i s.acknowledge).complete) :=
  ⟨_, _, rfl, rfl, by
    rw [work_acknowledge, State.acknowledge_eq_withRecord (work i s), State.complete_withRecord,
      State.acknowledge_withRecord]⟩

/-- The check of `PREPARED` does not see the record. -/
theorem sameButRecord_runPrepared (i : Instr) (w : Word) (s : State) :
    SameButRecord (runPrepared w s (work i)) (runPrepared w s.acknowledge (work i)) := by
  unfold runPrepared
  rw [State.acknowledge_prepared]
  split
  · exact sameButRecord_complete i s
  · exact sameButRecord_raise s _ w

/-- The check of the channel does not see the record. -/
theorem sameButRecord_runChannel (i : Instr) (w : Word) (ch : Nat) (s : State) :
    SameButRecord (runChannel w ch s (work i)) (runChannel w ch s.acknowledge (work i)) := by
  unfold runChannel
  rw [State.acknowledge_prepared, blind_ack.channelOutside]
  split
  · split
    · exact sameButRecord_raise s _ w
    · exact sameButRecord_complete i s
  · exact sameButRecord_raise s _ w

/-- The check of the arguments does not see the record, nor does the withdrawal. -/
theorem sameButRecord_prepare (s : State) : SameButRecord (exec .prepare s) (exec .prepare s.acknowledge) := by
  show SameButRecord (execPrepare s) (execPrepare s.acknowledge)
  unfold execPrepare
  rw [blind_ack.prepareArgsValid]
  split
  · exact sameButRecord_complete .prepare s
  · exact sameButRecord_raise (s.setPrepared false) _ _

/-- The check of `INCH` does not see the record. -/
theorem sameButRecord_setorder (s : State) : SameButRecord (exec .setorder s) (exec .setorder s.acknowledge) := by
  show SameButRecord (execSetorder s) (execSetorder s.acknowledge)
  unfold execSetorder
  rw [State.acknowledge_prepared, blind_ack.int s (by decide) (by decide)]
  split
  · exact sameButRecord_raise s _ _
  · exact sameButRecord_runPrepared .setorder _ s

/-- The check of the matrix does not see the record. -/
theorem sameButRecord_rmApply (s : State) : SameButRecord (exec .rmApply s) (exec .rmApply s.acknowledge) := by
  show SameButRecord (execRmApply s) (execRmApply s.acknowledge)
  unfold execRmApply
  rw [State.acknowledge_prepared, State.acknowledge_ctrl, State.acknowledge_matOk]
  split
  · exact sameButRecord_raise s _ _
  · exact sameButRecord_runPrepared .rmApply _ s

/-- No command sees the record. -/
theorem exec_sameButRecord (i : Instr) (s : State) : SameButRecord (exec i s) (exec i s.acknowledge) := by
  cases i with
  | nop => exact sameButRecord_complete .nop s
  | prepare => exact sameButRecord_prepare s
  | setorder => exact sameButRecord_setorder s
  | clrerr => exact sameButRecord_complete .clrerr s
  | dlPush ch => exact sameButRecord_runChannel (.dlPush ch) _ ch s
  | dlPop ch => exact sameButRecord_runChannel (.dlPop ch) _ ch s
  | dlRun => exact sameButRecord_runPrepared .dlRun _ s
  | rmBuild => exact sameButRecord_runPrepared .rmBuild _ s
  | rmApply => exact sameButRecord_rmApply s
  | rmCommit => exact sameButRecord_runPrepared .rmCommit _ s
  | fbSetcut => exact sameButRecord_runPrepared .fbSetcut _ s
  | fbRun ch => exact sameButRecord_runChannel (.fbRun ch) _ ch s
  | fbRunall => exact sameButRecord_runPrepared .fbRunall _ s

/-! ## A recorded error stays -/

theorem State.errorRecord_complete (s : State) : s.complete.errorRecord = s.errorRecord := by
  unfold State.errorRecord
  rw [State.complete_status, State.reg_complete_ne (by decide)]

theorem State.errorRecord_raise {s : State} (h : s.status.err = true) (k : Cause) (w : Word) :
    (s.raise k w).errorRecord = s.errorRecord := by
  rw [State.raise_of_err s k w h]

/-- While an error is recorded, every command but `CLRERR` leaves the record, whichever way it ends. -/
theorem exec_errorRecord {i : Instr} {s t : State} (he : exec i s = .next t) (herr : s.status.err = true)
    (hi : i ≠ .clrerr) : t.errorRecord = s.errorRecord := by
  cases answer_of_exec he with
  | fault k => exact State.errorRecord_raise herr k _
  | withdrawn _ => exact State.errorRecord_raise (s := s.setPrepared false) herr _ _
  | completed _ => rw [State.errorRecord_complete, work_errorRecord hi]

/-- Settles O12: no command sees the record, and a record that is there stays. -/
theorem recordGatesNothing : Obligations.RecordGatesNothing := by
  intro i s
  obtain ⟨t, u, ht, hu, hsame⟩ := exec_sameButRecord i s
  refine ⟨t, u, ht, hu, hsame, fun herr hi => ?_⟩
  have hrec := exec_errorRecord ht herr hi
  have hterr : t.status.err = s.status.err := congrArg ErrorRecord.err hrec
  exact ⟨hterr.trans herr, congrArg ErrorRecord.code hrec, congrArg ErrorRecord.info hrec⟩

end Sys2Proof.Machine
end

section
/-! Reset between two transactions (70_reset_and_hazards.md R260, R261): the registers and the cursors of the reset
state, whatever the state before, and the step that takes the pulse. -/

namespace Sys2Proof.Machine

@[simp] theorem State.afterReset_reg (s : State) (r : Reg) : s.afterReset.reg r = 0#32 := reset_reg r

@[simp] theorem State.afterReset_cursor (s : State) (c : Nat) : s.afterReset.cursor c = 0 := reset_cursor c

/-- `ID` is hard-wired (10_state.md R41): it depends neither on the state nor on the implementation. -/
theorem readIndex_zero (s : State) : s.readIndex 0 = idWord := rfl

/-- A pending pulse of `rst_n` is taken off the list like any transaction. -/
theorem step_of_reset {s : State} {rest : List BusOp} (h : s.pending = .reset :: rest) :
    step s = .next (s.taken rest).afterReset := step_of_pending h

/-- Settles O54: the step answers `afterReset`, which has the registers, cursors and flags of `State.reset`; of the
state before it keeps the implementation and the transactions after the pulse. -/
theorem resetTransaction : Obligations.ResetTransaction := by
  intro s rest hpend
  have hctrl : State.reset.ctrl.word = 0#32 := by decide
  have hstatus : State.reset.status.word = 0#32 := by decide
  refine ⟨(s.taken rest).afterReset, step_of_reset hpend, readIndex_zero _, State.afterReset_reg _,
    State.afterReset_cursor _, hctrl, hstatus, rfl, rfl, rfl, rfl, rfl⟩

end Sys2Proof.Machine
end
